-- ==== Sys2Proof/Word.lean ====
section
/-! DEFINITION. The widths the spec gives its quantities: bytes, blocks, nonces, sequence numbers, addresses (00_scope.md R7, R8). -/

namespace Sys2Proof

/-- One byte of the window, of a buffer or of the wire. -/
abbrev Byte := BitVec 8

/-- The input or output of one AES call, 16 bytes (40_aes.md R112), byte 0 in the most significant place. -/
abbrev Block := BitVec 128

/-- A key register, 16 bytes (10_state.md R53), byte 0 in the most significant place. -/
abbrev Key := BitVec 128

/-- A 13-byte nonce (10_state.md R54), byte 0 in the most significant place. -/
abbrev Nonce := BitVec 104

/-- A 24-bit sequence number or SeqAuth (10_state.md R33, R37; 44_reassembly.md R195). -/
abbrev Seq := BitVec 24

/-- A 16-bit mesh address (10_state.md R34, R35). -/
abbrev MeshAddr := BitVec 16

/-- A six-byte string: PECB, network header or block-ack payload (10_state.md R55, R56; 45_network.md R233). -/
abbrev Six := BitVec 48

end Sys2Proof
end

