-- ==== Sys2Proof/Config.lean ====
section
/-! DEFINITION. The implementation parameters of 00_scope.md R7, each at the value the spec fixes (log 10), and the one free value:
what a reset input leaves in the registers and buffers whose reset contents the spec calls unspecified (log 4). -/

namespace Sys2Proof.Config

/-- Bytes the window spans (R7, R70). -/
def windowSize : Nat := 0x800

/-- `TRANSMIC_SHORT` (R7). -/
def transMicShort : Nat := 4

/-- `TRANSMIC_LONG` (R7). -/
def transMicLong : Nat := 8

/-- `NETMIC_ACCESS`, the NetMIC length for CTL = 0 (R7, R236). -/
def netMicAccess : Nat := 4

/-- `NETMIC_CONTROL`, the NetMIC length for CTL = 1 (R7, R236). -/
def netMicControl : Nat := 8

/-- `SEG_MAX_ACCESS`, also `UNSEG_MAX_ACCESS` (R7, R170). -/
def segMaxAccess : Nat := 12

/-- `SEG_MAX_CONTROL`, also `UNSEG_MAX_CONTROL` (R7, R170). -/
def segMaxControl : Nat := 8

/-- `SEG_COUNT_MAX` (R7). -/
def segCountMax : Nat := 32

/-- `UPPER_MAX`, the capacity of UBUF (R7, R60). -/
def upperMax : Nat := 384

/-- `ACCESS_MAX`, the capacity of ABUF (R7, R59). -/
def accessMax : Nat := 380

/-- `LOWER_MAX`, the capacity of LBUF (R7, R57). -/
def lowerMax : Nat := 16

/-- `NET_MAX`, the capacity of NBUF (R7, R58). -/
def netMax : Nat := 34

/-- `INC_TIMEOUT_MS` (R7, R197). -/
def incTimeoutMs : Nat := 10000

/-- `ACK_BASE_MS` (R7, R205). -/
def ackBaseMs : Nat := 150

/-- `ACK_PER_TTL_MS` (R7, R205). -/
def ackPerTtlMs : Nat := 50

/-- FREE VALUE (70_reset_and_hazards.md R292, 93_implementation_defined.md U1; log 4): the byte that the `n`-th reset input leaves at a
window offset below 0x800, in byte `k - 0x800` of the hidden SEGBUF for `k` from 0x800, in SEGLEN slot `k - 0x980` for `k` from 0x980.
No body: nothing can be proved of its value. -/
opaque unspecified : Nat → Nat → Byte

end Sys2Proof.Config
end

