-- ==== Sys2Proof/Syntax.lean ====
section
/-! DEFINITION. The 21 commands of 30_encoding.md R93, one constructor per row of spec/opcode_table.json, in the table's order. -/

namespace Sys2Proof

/-- A command of the engine. It carries no operands: every operand is a named register or buffer (30_encoding.md R91). -/
inductive Instr where
  /-- `NONCE_NET`, 42_nonce_upper.md R151. -/
  | nonceNet
  /-- `NONCE_APP`, R152. -/
  | nonceApp
  /-- `NONCE_DEV`, R153. -/
  | nonceDev
  /-- `NONCE_PROXY`, R154. -/
  | nonceProxy
  /-- `CCM_ENC`, 41_ccm.md R137. -/
  | ccmEnc
  /-- `CCM_DEC`, R138. -/
  | ccmDec
  /-- `UT_ENC`, 42_nonce_upper.md R158. -/
  | utEnc
  /-- `UT_DEC`, R159. -/
  | utDec
  /-- `PECB_GEN`, 45_network.md R232. -/
  | pecbGen
  /-- `HDR_OBF`, R234. -/
  | hdrObf
  /-- `HDR_DEOBF`, R235. -/
  | hdrDeobf
  /-- `NET_ENC`, R238. -/
  | netEnc
  /-- `NET_DEC`, R240. -/
  | netDec
  /-- `PROXY_ENC`, R239. -/
  | proxyEnc
  /-- `PROXY_DEC`, R241. -/
  | proxyDec
  /-- `LT_FRAME`, 43_segmentation.md R176. -/
  | ltFrame
  /-- `LT_PARSE`, 44_reassembly.md R191. -/
  | ltParse
  /-- `TMR_INC_EXP`, R206. -/
  | tmrIncExp
  /-- `TMR_ACK_EXP`, R207. -/
  | tmrAckExp
  /-- `RX_RESET`, R209. -/
  | rxReset
  /-- `BACK_MATCH`, R211. -/
  | backMatch
  deriving DecidableEq, Repr

/-- The 21 commands in the order of R93. -/
def Instr.all : List Instr :=
  [.nonceNet, .nonceApp, .nonceDev, .nonceProxy, .ccmEnc, .ccmDec, .utEnc, .utDec, .pecbGen, .hdrObf, .hdrDeobf, .netEnc, .netDec,
   .proxyEnc, .proxyDec, .ltFrame, .ltParse, .tmrIncExp, .tmrAckExp, .rxReset, .backMatch]

end Sys2Proof
end

