-- ==== Sys2Proof/WellFormed.lean ====
section
/-! DEFINITION. Well-formedness. A command has no operand, so every `Instr` is well formed; what can be ill formed is the byte a host
writes to CMD (a group or function that 30_encoding.md R92 does not list) and a host access (an offset outside the window, R70). -/

namespace Sys2Proof

/-- Every command is well formed: it has no field to check (R91). -/
def Instr.wellFormed (_ : Instr) : Bool := true

/-- The functions `FN` each group `GRP` has (30_encoding.md R92; the FN of group 0x5 and of group 0x1 by R93). -/
def groupFunctions (grp : Nat) : List Nat :=
  match grp with
  | 0x1 => [0, 1, 2, 3]
  | 0x2 => [0, 1, 8, 9]
  | 0x3 => [0, 1, 2, 8, 9, 10, 11]
  | 0x4 => [0, 8, 9, 10, 11]
  | 0x5 => [0]
  | _ => []

/-- A byte is a command by R92: its function, bits 3:0, is one its group, bits 7:4, lists. -/
def commandByte (op : Byte) : Bool :=
  (groupFunctions (op.toNat / 16)).contains (op.toNat % 16)

/-- An offset lies in the host window (20_memory.md R70). -/
def inWindow (addr : Nat) : Bool := addr < Config.windowSize

end Sys2Proof
end

