-- ==== Sys2Proof/Decode.lean ====
section
/-! DEFINITION. The opcode map of 30_encoding.md R93 read in both directions: the decoder, total on bytes, which rejects the 235 illegal
opcodes of R94 by name, and the encoder. -/

namespace Sys2Proof

/-- Why the decoder rejects a byte. -/
inductive DecodeError where
  /-- The byte is one of the 235 illegal opcodes of R94. -/
  | illegalOpcode (op : Byte)
  deriving DecidableEq, Repr

/-- The command a byte written to CMD stands for (R90, R93), or the rejection of R94. -/
def decode (op : Byte) : Except DecodeError Instr :=
  match op.toNat with
  | 0x10 => .ok .nonceNet
  | 0x11 => .ok .nonceApp
  | 0x12 => .ok .nonceDev
  | 0x13 => .ok .nonceProxy
  | 0x20 => .ok .ccmEnc
  | 0x21 => .ok .ccmDec
  | 0x28 => .ok .utEnc
  | 0x29 => .ok .utDec
  | 0x30 => .ok .pecbGen
  | 0x31 => .ok .hdrObf
  | 0x32 => .ok .hdrDeobf
  | 0x38 => .ok .netEnc
  | 0x39 => .ok .netDec
  | 0x3A => .ok .proxyEnc
  | 0x3B => .ok .proxyDec
  | 0x40 => .ok .ltFrame
  | 0x48 => .ok .ltParse
  | 0x49 => .ok .tmrIncExp
  | 0x4A => .ok .tmrAckExp
  | 0x4B => .ok .rxReset
  | 0x50 => .ok .backMatch
  | _ => .error (.illegalOpcode op)

/-- Group and function of a command (R92, R93): `GRP` in bits 7:4, `FN` in bits 3:0. -/
def Instr.groupFn : Instr → BitVec 4 × BitVec 4
  | .nonceNet => (0x1, 0x0)
  | .nonceApp => (0x1, 0x1)
  | .nonceDev => (0x1, 0x2)
  | .nonceProxy => (0x1, 0x3)
  | .ccmEnc => (0x2, 0x0)
  | .ccmDec => (0x2, 0x1)
  | .utEnc => (0x2, 0x8)
  | .utDec => (0x2, 0x9)
  | .pecbGen => (0x3, 0x0)
  | .hdrObf => (0x3, 0x1)
  | .hdrDeobf => (0x3, 0x2)
  | .netEnc => (0x3, 0x8)
  | .netDec => (0x3, 0x9)
  | .proxyEnc => (0x3, 0xA)
  | .proxyDec => (0x3, 0xB)
  | .ltFrame => (0x4, 0x0)
  | .ltParse => (0x4, 0x8)
  | .tmrIncExp => (0x4, 0x9)
  | .tmrAckExp => (0x4, 0xA)
  | .rxReset => (0x4, 0xB)
  | .backMatch => (0x5, 0x0)

/-- The one byte of a command, format `C8` (R90): `GRP ++ FN`. -/
def encode (i : Instr) : Byte := i.groupFn.1 ++ i.groupFn.2

/-- The command the decoder reads from the first byte of an instruction given as the number `w` of `nbits` bits (a command is one byte,
R90); none where the decoder rejects it. -/
def decodeTableWord (nbits w : Nat) : Option Instr :=
  (decode (BitVec.ofNat 8 (w % 2 ^ nbits))).toOption

end Sys2Proof
end

