-- ==== Sys2Proof/Machine/Bytes.lean ====
section
/-! DEFINITION. Byte strings and big-endian integers (00_scope.md R8 to R10). -/

namespace Sys2Proof.Machine

/-- `be_n(v)`: the `n` bytes of `x`, most significant first (R10). Byte strings held in one word (a nonce, a key) have byte 0 first too. -/
def beBytes {w : Nat} (n : Nat) (x : BitVec w) : List Byte :=
  (List.range n).map fun j => x.extractLsb' (8 * (n - 1 - j)) 8

/-- `from_be(X)`: the inverse of `be_n`, in `w` bits (R10). -/
def fromBE (w : Nat) (bs : List Byte) : BitVec w :=
  bs.foldl (fun acc b => (acc <<< 8) ||| b.setWidth w) 0#w

/-- `X xor Y`, bytewise (R9); the result is as long as the shorter of the two. -/
def xorBytes (xs ys : List Byte) : List Byte := List.zipWith (· ^^^ ·) xs ys

/-- Bit `i` of a byte set to `b`, the other bits unchanged (R11, `REG[hi:lo] <- v` on one bit). -/
def setBit (x : Byte) (i : Nat) (b : Bool) : Byte :=
  if b then x ||| (1#8 <<< i) else x &&& ~~~(1#8 <<< i)

/-- `ceil(n / d)` in integers, `(n + d - 1) / d` (43_segmentation.md R174). -/
def ceilDiv (n d : Nat) : Nat := (n + d - 1) / d

end Sys2Proof.Machine
end

