-- ==== Sys2Proof/Machine/Aes.lean ====
section
/-! DEFINITION. AES-128 encryption of one block (40_aes.md R111 to R118). -/

namespace Sys2Proof.Machine

/-- `a * 0x02` (R111). -/
def xtime (a : Byte) : Byte := (a <<< 1) ^^^ (if a.getLsbD 7 then 0x1B else 0x00)

/-- `a * b` in the field of R111: the sum of `a * x^i` over the bits `i` of `b`, by Horner's rule from bit 7 down. -/
def gfMul (a b : Byte) : Byte :=
  (List.range 8).foldl (fun acc i => xtime acc ^^^ (if b.getLsbD (7 - i) then a else 0x00)) 0x00

/-- The rows of the SBOX table of R113, row `y` for the high nibble `y`, column `0` first. -/
def sboxRows : List Block :=
  [0x637c777bf26b6fc53001672bfed7ab76,
   0xca82c97dfa5947f0add4a2af9ca472c0,
   0xb7fd9326363ff7cc34a5e5f171d83115,
   0x04c723c31896059a071280e2eb27b275,
   0x09832c1a1b6e5aa0523bd6b329e32f84,
   0x53d100ed20fcb15b6acbbe394a4c58cf,
   0xd0efaafb434d338545f9027f503c9fa8,
   0x51a3408f929d38f5bcb6da2110fff3d2,
   0xcd0c13ec5f974417c4a77e3d645d1973,
   0x60814fdc222a908846eeb814de5e0bdb,
   0xe0323a0a4906245cc2d3ac629195e479,
   0xe7c8376d8dd54ea96c56f4ea657aae08,
   0xba78252e1ca6b4c6e8dd741f4bbd8b8a,
   0x703eb5664803f60e613557b986c11d9e,
   0xe1f8981169d98e949b1e87e9ce5528df,
   0x8ca1890dbfe6426841992d0fb054bb16]

/-- `SBOX[a]` (R113): row by the high nibble, column by the low one. -/
def sbox (a : Byte) : Byte :=
  (sboxRows.getD (a.toNat / 16) 0).extractLsb' (8 * (15 - a.toNat % 16)) 8

/-- `SubBytes` (R113). The AES state is the list of its 16 bytes in the order of R112, `s[r][c]` at `r + 4c`. -/
def subBytes (s : List Byte) : List Byte := s.map sbox

/-- `ShiftRows` in flat indices: `Y[r + 4c] = X[r + 4((c + r) mod 4)]` (R114). -/
def shiftRows (s : List Byte) : List Byte :=
  (List.range 16).map fun i => s.getD (i % 4 + 4 * ((i / 4 + i % 4) % 4)) 0

/-- One column of `MixColumns` (R115), with `0x03*a = xtime(a) xor a` (R111). -/
def mixColumn (a0 a1 a2 a3 : Byte) : List Byte :=
  [xtime a0 ^^^ (xtime a1 ^^^ a1) ^^^ a2 ^^^ a3,
   a0 ^^^ xtime a1 ^^^ (xtime a2 ^^^ a2) ^^^ a3,
   a0 ^^^ a1 ^^^ xtime a2 ^^^ (xtime a3 ^^^ a3),
   (xtime a0 ^^^ a0) ^^^ a1 ^^^ a2 ^^^ xtime a3]

/-- `MixColumns` (R115): every column of four bytes. -/
def mixColumns : List Byte → List Byte
  | a0 :: a1 :: a2 :: a3 :: rest => mixColumn a0 a1 a2 a3 ++ mixColumns rest
  | _ => []

/-- `AddRoundKey` (R116). -/
def addRoundKey (s k : List Byte) : List Byte := xorBytes s k

/-- `RotWord`: `[t0,t1,t2,t3] -> [t1,t2,t3,t0]` (R117). -/
def rotWord (w : BitVec 32) : BitVec 32 := w.rotateLeft 8

/-- `SubWord`: SBOX on each byte (R117). -/
def subWord (w : BitVec 32) : BitVec 32 := fromBE 32 ((beBytes 4 w).map sbox)

/-- `RCON[j]`, `j` from 1: successive `xtime` of 0x01 (R117). -/
def rcon : Nat → Byte
  | 0 => 0x00
  | 1 => 0x01
  | j + 2 => xtime (rcon (j + 1))

/-- `w[i]` from the words before it (R117). -/
def nextKeyWord (ws : List (BitVec 32)) (i : Nat) : BitVec 32 :=
  let t := ws.getD (i - 1) 0
  ws.getD (i - 4) 0 ^^^ (if i % 4 = 0 then subWord (rotWord t) ^^^ (rcon (i / 4) ++ 0x000000#24 : BitVec 32) else t)

/-- The 44 words of the key expansion (R117). -/
def keyWords (k : Key) : List (BitVec 32) :=
  (List.range 40).foldl (fun ws n => ws ++ [nextKeyWord ws (n + 4)])
    ((List.range 4).map fun i => k.extractLsb' (32 * (3 - i)) 32)

/-- Round key `j`: the 16 bytes of `w[4j] .. w[4j+3]` (R117). -/
def roundKey (ws : List (BitVec 32)) (j : Nat) : List Byte :=
  ((ws.drop (4 * j)).take 4).flatMap (beBytes 4)

/-- Rounds 1 to 9 (R118). -/
def aesRound (ws : List (BitVec 32)) (s : List Byte) (round : Nat) : List Byte :=
  addRoundKey (mixColumns (shiftRows (subBytes s))) (roundKey ws round)

/-- `AES(K, X)` on bytes (R118). -/
def aesBytes (ws : List (BitVec 32)) (x : List Byte) : List Byte :=
  let s := (List.range 9).foldl (fun s n => aesRound ws s (n + 1)) (addRoundKey x (roundKey ws 0))
  addRoundKey (shiftRows (subBytes s)) (roundKey ws 10)

/-- `AES(K, X)` (R118). -/
def aes (k : Key) (x : Block) : Block := fromBE 128 (aesBytes (keyWords k) (beBytes 16 x))

end Sys2Proof.Machine
end

