-- ==== Sys2Proof/Machine/Ccm.lean ====
section
/-! DEFINITION. CCM with a 13-byte nonce, a 4- or 8-byte MIC and no additional data (41_ccm.md R130 to R136). -/

namespace Sys2Proof.Machine

/-- Block `j` of a message, `P[16j .. 16j+15]`, a short last block padded with zeros (R132). -/
def messageBlock (p : List Byte) (j : Nat) : Block :=
  let bytes := (p.drop (16 * j)).take 16
  fromBE 128 (bytes ++ List.replicate (16 - bytes.length) 0x00)

/-- The flags byte of `B0`, `8*((M-2)/2) + 1` (R132). -/
def b0Flags (m : Nat) : Byte := BitVec.ofNat 8 (8 * ((m - 2) / 2) + 1)

/-- `B0 = [flags] ++ N ++ be_2(n)` (R132). -/
def b0Block (nonce : Nonce) (m n : Nat) : Block := b0Flags m ++ nonce ++ BitVec.ofNat 16 n

/-- The CBC-MAC value whose first `M` bytes are the tag `T` (R132). -/
def cbcMac (k : Key) (nonce : Nonce) (m : Nat) (p : List Byte) : Block :=
  (List.range (ceilDiv p.length 16)).foldl (fun x j => aes k (x ^^^ messageBlock p j)) (aes k (b0Block nonce m p.length))

/-- Counter block `A_i = [0x01] ++ N ++ be_2(i)` (R133). -/
def counterBlock (nonce : Nonce) (i : Nat) : Block := 0x01#8 ++ nonce ++ BitVec.ofNat 16 i

/-- Key stream block `S_i` (R133). -/
def streamBlock (k : Key) (nonce : Nonce) (i : Nat) : Block := aes k (counterBlock nonce i)

/-- The first bytes of `S_1 ++ S_2 ++ ...`, enough for a message of `n` bytes (R134). -/
def keyStream (k : Key) (nonce : Nonce) (n : Nat) : List Byte :=
  (List.range (ceilDiv n 16)).flatMap fun i => beBytes 16 (streamBlock k nonce (i + 1))

/-- A message xor-ed with the key stream, its own inverse (R134). -/
def ctrCrypt (k : Key) (nonce : Nonce) (p : List Byte) : List Byte := xorBytes p (keyStream k nonce p.length)

/-- The MIC `U = T xor S_0[0..M-1]` of a plaintext (R132, R134). -/
def ccmMic (k : Key) (nonce : Nonce) (m : Nat) (p : List Byte) : List Byte :=
  xorBytes ((beBytes 16 (cbcMac k nonce m p)).take m) (beBytes 16 (streamBlock k nonce 0))

/-- `ccm_enc(K, N, M, P) = C ++ U` (R135). -/
def ccmEncrypt (k : Key) (nonce : Nonce) (m : Nat) (p : List Byte) : List Byte :=
  ctrCrypt k nonce p ++ ccmMic k nonce m p

/-- `ccm_dec(K, N, M, Z)`: the plaintext, or none for AUTH_FAIL (R136). -/
def ccmDecrypt (k : Key) (nonce : Nonce) (m : Nat) (z : List Byte) : Option (List Byte) :=
  let p := ctrCrypt k nonce (z.take (z.length - m))
  if ccmMic k nonce m p = z.drop (z.length - m) then some p else none

end Sys2Proof.Machine
end

