-- ==== Sys2Proof/Machine/State.lean ====
section
/-! DEFINITION. The state of the engine as plain data: every register, buffer and hidden store of 10_state.md, grouped by the sections of
that file, and the host's port (the model's own field, log 1). Faults, refusals and the state after reset. -/

namespace Sys2Proof.Machine

/-- A byte store: (address, byte) cells in one canonical form, `Memory.wf` of Machine/Ops.lean. -/
abbrev Memory := List Host.Cell

/-- What the outside world can do to the engine between two commands: one byte access of the window (20_memory.md R71) or the reset
input (70_reset_and_hazards.md R290). Addresses are offsets from WINDOW_BASE (R70, log 6). -/
inductive HostInput where
  /-- `MemRead(addr, 1)`. -/
  | read (addr : Nat)
  /-- `MemWrite(addr, 1, v)`; at offset 0x000 this issues the command `v` (R24). -/
  | write (addr : Nat) (v : Byte)
  /-- The reset input (R290). -/
  | reset
  deriving DecidableEq, Repr

/-- Configuration registers (10_state.md section 4). -/
structure ConfRegs where
  /-- R28. -/
  cfg : Byte
  /-- R29. -/
  ccmcfg : Byte
  deriving DecidableEq, Repr

/-- Parameter registers (10_state.md section 5). -/
structure ParamRegs where
  /-- R30. -/
  pdutype : Byte
  /-- R31. -/
  nid : Byte
  /-- R32. -/
  ctlttl : Byte
  /-- R33. -/
  nseq : Seq
  /-- R34. -/
  src : MeshAddr
  /-- R35. -/
  dst : MeshAddr
  /-- R36. -/
  ivindex : BitVec 32
  /-- R37. -/
  tseq : Seq
  /-- R38. -/
  tctrl : Byte
  /-- R39. -/
  copc : Byte
  /-- R40. -/
  sego : Byte
  /-- R41. -/
  txseg : Byte
  deriving DecidableEq, Repr

/-- What `LT_PARSE` reports of the PDU it parsed (10_state.md R42 to R44). -/
structure ParseRegs where
  /-- R42. -/
  rxseg : Byte
  /-- R43. -/
  rxsego : Byte
  /-- R44. -/
  acktmr : BitVec 16
  deriving DecidableEq, Repr

/-- The reassembly context (44_reassembly.md R190; 10_state.md R27, R45 to R48, R61). -/
structure RxContext where
  /-- R27: the flags INC_RUN, ACK_RUN, ACK_SENT. -/
  rflags : Byte
  /-- R45. -/
  lastseqauth : Seq
  /-- R45: VALID in bit 0. -/
  lsav : Byte
  /-- R46. -/
  rseqzero : BitVec 16
  /-- R47. -/
  blockack : BitVec 32
  /-- R48. -/
  segvalid : BitVec 32
  /-- R61: byte `j` of slot `i` at `12 * i + j` (log 15). -/
  segbuf : Memory
  /-- R61. -/
  seglen : Vector (BitVec 4) 32
  deriving DecidableEq, Repr

/-- Block-ack matcher outputs (10_state.md section 7). -/
structure MatchRegs where
  /-- R49. -/
  rxblockack : BitVec 32
  /-- R50. -/
  missing : BitVec 32
  /-- R51. -/
  rxackhdr : BitVec 16
  deriving DecidableEq, Repr

/-- Length registers (10_state.md R52). -/
structure LenRegs where
  alen : BitVec 16
  ulen : BitVec 16
  llen : Byte
  nlen : Byte
  deriving DecidableEq, Repr

/-- Key registers (10_state.md R53). -/
structure KeyRegs where
  kenc : Key
  kpriv : Key
  ktrans : Key
  deriving DecidableEq, Repr

/-- The host's side of the window, the MODEL's own field (log 1, 4, 7). -/
structure HostPort where
  /-- The inputs the host has issued and the engine has not served, oldest first. -/
  pending : List HostInput
  /-- The bytes the host's reads returned, oldest first. -/
  returned : List Byte
  /-- How many reset inputs were served: where the free reset contents are read. -/
  resets : Nat
  deriving DecidableEq, Repr

/-- The whole state. -/
structure State where
  /-- R25. -/
  status : Byte
  /-- R26. -/
  events : Byte
  conf : ConfRegs
  par : ParamRegs
  parsed : ParseRegs
  ctx : RxContext
  matcher : MatchRegs
  len : LenRegs
  keys : KeyRegs
  /-- R54. -/
  nonce : Nonce
  /-- R55. -/
  pecb : Six
  /-- R56. -/
  ackbuf : Six
  /-- The four buffers LBUF, NBUF, ABUF, UBUF (R57 to R60), keyed by window offset. -/
  mem : Memory
  port : HostPort
  deriving DecidableEq, Repr

/-- Why the machine stops. The engine itself has no fault (60_exceptions.md R260). -/
inductive Fault where
  /-- Raised by the step for a host access at an offset outside the window: it never reaches the engine and what the platform does with
  it is outside the spec (20_memory.md R74, log 5). Safe: the model stops where the spec says nothing. -/
  | outsideWindow (addr : Nat)
  deriving DecidableEq, Repr

/-- Why an instruction has no meaning. -/
inductive Refusal where
  /-- An arm of `exec` with no meaning yet; no arm answers it. Safe: the model stops. -/
  | notModelled (mnemonic : String)
  deriving DecidableEq, Repr

/-- What every command answers: always a next state, for this hardware. -/
abbrev Result := Host.Outcome State Fault Refusal

/-- The state after reset (70_reset_and_hazards.md R290): every register with a reset value holds it. The registers and buffers the spec
leaves unspecified hold zero: DESIGN CHOICE, unsafe (log 2, 3). The host has issued nothing. -/
def State.reset : State where
  status := 0
  events := 0
  conf := ⟨0, 0⟩
  par := ⟨0, 0, 0, 0, 0, 0, 0, 0, 0, 0, 0, 0⟩
  parsed := ⟨0, 0, 0⟩
  ctx := ⟨0, 0, 0, 0, 0, 0, [], Vector.replicate 32 0⟩
  matcher := ⟨0, 0, 0⟩
  len := ⟨0, 0, 0, 0⟩
  keys := ⟨0, 0, 0⟩
  nonce := 0
  pecb := 0
  ackbuf := 0
  mem := []
  port := ⟨[], [], 0⟩

end Sys2Proof.Machine
end

