-- ==== Sys2Proof/Machine/Ops.lean ====
section
/-! DEFINITION. The named operations over memory, and those over the state that every command shares (30_encoding.md R98). -/

namespace Sys2Proof.Machine

/-! Memory. -/

/-- What an address that no cell lists reads as: 0x00. The spec leaves the buffers' reset contents unspecified (R292): DESIGN CHOICE,
unsafe (log 3). -/
def Memory.unlisted : Byte := 0x00

/-- The canonical form: addresses strictly rising, no cell equal to what an unlisted address reads as. -/
abbrev Memory.wf (m : Memory) : Prop :=
  List.Pairwise (fun c d => c.1 < d.1) m ∧ ∀ c ∈ m, c.2 ≠ Memory.unlisted

/-- One byte. -/
def Memory.read (m : Memory) (a : Nat) : Byte :=
  match m with
  | [] => Memory.unlisted
  | c :: rest => if c.1 = a then c.2 else Memory.read rest a

/-- A cell put before the first cell of a greater address. -/
def Memory.insert (m : Memory) (a : Nat) (b : Byte) : Memory :=
  match m with
  | [] => [(a, b)]
  | c :: rest => if a < c.1 then (a, b) :: c :: rest else c :: Memory.insert rest a b

/-- One byte written; writing what an unlisted address reads as removes the cell. -/
def Memory.write (m : Memory) (a : Nat) (b : Byte) : Memory :=
  let others : Memory := m.filter fun c => c.1 != a
  if b = Memory.unlisted then others else Memory.insert others a b

/-- `BUF[base .. base + n - 1]`, the empty string for `n = 0` (R9). -/
def Memory.readRange (m : Memory) (base n : Nat) : List Byte :=
  (List.range n).map fun j => Memory.read m (base + j)

/-- `BUF[base ..] <- bs`, byte by byte (R11). -/
def Memory.writeRange (m : Memory) (base : Nat) (bs : List Byte) : Memory :=
  match bs with
  | [] => m
  | b :: rest => Memory.writeRange (Memory.write m base b) (base + 1) rest

/-! The places and capacities of the buffers (10_state.md R57 to R60). -/

/-- Window offset of LBUF (R57). -/
def lbufBase : Nat := 0x090

/-- Window offset of NBUF (R58). -/
def nbufBase : Nat := 0x0A0

/-- Window offset of ABUF (R59). -/
def abufBase : Nat := 0x100

/-- Window offset of UBUF (R60). -/
def ubufBase : Nat := 0x300

/-- `ABUF[0..ALEN-1]`. -/
def State.abuf (s : State) : List Byte := s.mem.readRange abufBase s.len.alen.toNat

/-- `UBUF[0..ULEN-1]`. -/
def State.ubuf (s : State) : List Byte := s.mem.readRange ubufBase s.len.ulen.toNat

/-- `LBUF[0..LLEN-1]`. -/
def State.lbuf (s : State) : List Byte := s.mem.readRange lbufBase s.len.llen.toNat

/-- `NBUF[0..NLEN-1]`. -/
def State.nbuf (s : State) : List Byte := s.mem.readRange nbufBase s.len.nlen.toNat

/-- `ABUF[0..] <- bs ; ALEN <- len(bs)` (R11, R52): the bytes above keep their contents. -/
def State.putAbuf (s : State) (bs : List Byte) : State :=
  { s with mem := s.mem.writeRange abufBase bs, len := { s.len with alen := BitVec.ofNat 16 bs.length } }

/-- `UBUF[0..] <- bs ; ULEN <- len(bs)`. -/
def State.putUbuf (s : State) (bs : List Byte) : State :=
  { s with mem := s.mem.writeRange ubufBase bs, len := { s.len with ulen := BitVec.ofNat 16 bs.length } }

/-- `LBUF[0..] <- bs ; LLEN <- len(bs)`. -/
def State.putLbuf (s : State) (bs : List Byte) : State :=
  { s with mem := s.mem.writeRange lbufBase bs, len := { s.len with llen := BitVec.ofNat 8 bs.length } }

/-- `NBUF[0..] <- bs ; NLEN <- len(bs)`. -/
def State.putNbuf (s : State) (bs : List Byte) : State :=
  { s with mem := s.mem.writeRange nbufBase bs, len := { s.len with nlen := BitVec.ofNat 8 bs.length } }

/-- `NONCE <- n` (R54). -/
def State.setNonce (s : State) (n : Nonce) : State := { s with nonce := n }

/-- `PECB <- p` (R55). -/
def State.setPecb (s : State) (p : Six) : State := { s with pecb := p }

/-- The parameter registers replaced. -/
def State.setPar (s : State) (p : ParamRegs) : State := { s with par := p }

/-- The parse outputs replaced. -/
def State.setParsed (s : State) (p : ParseRegs) : State := { s with parsed := p }

/-- The reassembly context replaced. -/
def State.setCtx (s : State) (c : RxContext) : State := { s with ctx := c }

end Sys2Proof.Machine
end

