-- ==== Sys2Proof/Machine/Flags.lean ====
section
/-! DEFINITION. STATUS codes, EVENTS bits, RFLAGS bits, and the common execution template (60_exceptions.md R261; 10_state.md R26, R27;
30_encoding.md R94, R98). A typed failure is the engine's only abnormal outcome: it has no exception to take or to return from (R260). -/

namespace Sys2Proof.Machine

/-- The STATUS codes of R261. -/
inductive StatusCode where
  | ok
  | pending
  | ignored
  | errCmd
  | errLen
  | errAuth
  | errNid
  | errField
  | errMalformed
  | errSeq
  deriving DecidableEq, Repr

/-- The byte STATUS takes (R261). -/
def StatusCode.toByte : StatusCode → Byte
  | .ok => 0x00
  | .pending => 0x01
  | .ignored => 0x02
  | .errCmd => 0x80
  | .errLen => 0x81
  | .errAuth => 0x82
  | .errNid => 0x83
  | .errField => 0x84
  | .errMalformed => 0x85
  | .errSeq => 0x86

/-- The ten codes of R261. -/
def StatusCode.all : List StatusCode :=
  [.ok, .pending, .ignored, .errCmd, .errLen, .errAuth, .errNid, .errField, .errMalformed, .errSeq]

/-- The EVENTS flags of R26. -/
inductive Event where
  | incStart
  | incCancel
  | ackStart
  | ackCancel
  | sendAck
  | complete
  | txnFailed
  | szMatch
  deriving DecidableEq, Repr

/-- The bit of EVENTS a flag stands in (R26). -/
def Event.bit : Event → Nat
  | .incStart => 0
  | .incCancel => 1
  | .ackStart => 2
  | .ackCancel => 3
  | .sendAck => 4
  | .complete => 5
  | .txnFailed => 6
  | .szMatch => 7

/-- The RFLAGS flags of R27. -/
inductive RFlag where
  | incRun
  | ackRun
  | ackSent
  deriving DecidableEq, Repr

/-- The bit of RFLAGS a flag stands in (R27). -/
def RFlag.bit : RFlag → Nat
  | .incRun => 0
  | .ackRun => 1
  | .ackSent => 2

/-- An event flag is set in a value of EVENTS. -/
def Event.isIn (e : Event) (ev : Byte) : Bool := ev.getLsbD e.bit

/-- `EVENTS.e <- 1`. -/
def State.raise (s : State) (e : Event) : State := { s with events := setBit s.events e.bit true }

/-- A flag of RFLAGS. -/
def RxContext.flag (c : RxContext) (f : RFlag) : Bool := c.rflags.getLsbD f.bit

/-- A flag of RFLAGS written. -/
def RxContext.setFlag (c : RxContext) (f : RFlag) (b : Bool) : RxContext := { c with rflags := setBit c.rflags f.bit b }

/-- `EVENTS <- 0x00`, the first action of every command (R98 step 1). -/
def State.begin (s : State) : State := { s with events := 0x00 }

/-- `done c`: STATUS written, the last action of a command (R98 step 4, R11). -/
def State.finish (s : State) (c : StatusCode) : State := { s with status := c.toByte }

/-- `fail c`: the command ends here with a typed failure (R11, R98 step 2). It writes STATUS alone; what was written before it stays. -/
def State.fail (s : State) (c : StatusCode) : State := { s with status := c.toByte }

/-- An illegal opcode: EVENTS cleared, STATUS ERR_CMD, nothing else (R94). -/
def State.illegalCommand (s : State) : State := s.begin.fail .errCmd

end Sys2Proof.Machine
end

