-- ==== Sys2Proof/Machine/Operands.lean ====
section
/-! DEFINITION. The operand fields commands read from the registers (10_state.md R28 to R41), and the lengths they select. -/

namespace Sys2Proof.Machine

/-- `CFG.OBO` (R28). -/
def State.obo (s : State) : Bool := s.conf.cfg.getLsbD 0

/-- `CCMCFG.KSEL` (R29). -/
def State.ksel (s : State) : Nat := (s.conf.ccmcfg.extractLsb' 0 2).toNat

/-- `CCMCFG.MICL` (R29). -/
def State.micl (s : State) : Bool := s.conf.ccmcfg.getLsbD 2

/-- `NID[6:0]` (R31). -/
def State.nid7 (s : State) : BitVec 7 := s.par.nid.extractLsb' 0 7

/-- `CTLTTL.CTL` (R32). -/
def State.ctl (s : State) : Bool := s.par.ctlttl.getLsbD 7

/-- `CTLTTL.TTL` (R32). -/
def State.ttl (s : State) : BitVec 7 := s.par.ctlttl.extractLsb' 0 7

/-- `TSEQ[12:0]`, SeqZero (R37; 43_segmentation.md R173). -/
def State.tseqZero (s : State) : BitVec 13 := s.par.tseq.extractLsb' 0 13

/-- `TCTRL.SZMIC` (R38). -/
def State.szmic (s : State) : Bool := s.par.tctrl.getLsbD 7

/-- `TCTRL.AKF` (R38). -/
def State.akf (s : State) : Bool := s.par.tctrl.getLsbD 6

/-- `COPC.OPCODE` when CTL = 1, else `TCTRL[6:0]`: the low seven bits of a lower-transport header's first byte (R38, R39; 43_segmentation.md
R171, R172, R176). -/
def State.headerBits (s : State) : BitVec 7 :=
  if s.ctl then s.par.copc.extractLsb' 0 7 else s.par.tctrl.extractLsb' 0 7

/-- `SEGO[4:0]` (R40). -/
def State.segIndex (s : State) : BitVec 5 := s.par.sego.extractLsb' 0 5

/-- `TXSEG.SEGN` (R41). -/
def State.txSegN (s : State) : BitVec 5 := s.par.txseg.extractLsb' 0 5

/-- `LSAV.VALID` (R45). -/
def RxContext.lastValid (c : RxContext) : Bool := c.lsav.getLsbD 0

/-- The segment payload size, also the unsegmented bound (43_segmentation.md R170). -/
def segmentSize (ctl : Bool) : Nat := if ctl then Config.segMaxControl else Config.segMaxAccess

/-- The NetMIC length by CTL (45_network.md R236). -/
def netMicLen (ctl : Bool) : Nat := if ctl then Config.netMicControl else Config.netMicAccess

/-- A transport MIC length by its flag (41_ccm.md R137; 42_nonce_upper.md R159). -/
def transMicLen (long : Bool) : Nat := if long then Config.transMicLong else Config.transMicShort

/-- `unicast(a)`: `a != 0` and `a[15] = 0` (44_reassembly.md R193). -/
def unicast (a : MeshAddr) : Bool := a != 0 && !a.getLsbD 15

end Sys2Proof.Machine
end

