-- ==== Sys2Proof/Machine/CcmUnit.lean ====
section
/-! DEFINITION. The raw commands of the CCM unit (41_ccm.md R137, R138). -/

namespace Sys2Proof.Machine

/-- The key `CCMCFG.KSEL` selects: 0 KENC, 1 KTRANS (R29, R137). -/
def State.rawKey (s : State) : Key := if s.ksel = 0 then s.keys.kenc else s.keys.ktrans

/-- `CCM_ENC` (R137). -/
def execCcmEnc (s : State) : Result :=
  let s := s.begin
  let n := s.len.alen.toNat
  let m := transMicLen s.micl
  if 2 ≤ s.ksel then .next (s.fail .errField)
  else if n < 1 ∨ Config.accessMax < n then .next (s.fail .errLen)
  else if Config.upperMax < n + m then .next (s.fail .errLen)
  else .next ((s.putUbuf (ccmEncrypt s.rawKey s.nonce m s.abuf)).finish .ok)

/-- `CCM_DEC` (R138). -/
def execCcmDec (s : State) : Result :=
  let s := s.begin
  let n := s.len.ulen.toNat
  let m := transMicLen s.micl
  if 2 ≤ s.ksel then .next (s.fail .errField)
  else if n < m + 1 ∨ Config.upperMax < n then .next (s.fail .errLen)
  else match ccmDecrypt s.rawKey s.nonce m s.ubuf with
    | none => .next (s.fail .errAuth)
    | some p => .next ((s.putAbuf p).finish .ok)

end Sys2Proof.Machine
end

