-- ==== Sys2Proof/Machine/NonceMux.lean ====
section
/-! DEFINITION. The nonce construction mux (42_nonce_upper.md R150 to R156). -/

namespace Sys2Proof.Machine

/-- Network nonce, type 0x00 (R151). -/
def networkNonce (ctlTtl : Byte) (seq : Seq) (src : MeshAddr) (iv : BitVec 32) : Nonce :=
  0x00#8 ++ ctlTtl ++ seq ++ src ++ 0x0000#16 ++ iv

/-- Proxy nonce, type 0x03: no CTL/TTL byte in it (R154). -/
def proxyNonce (_ctlTtl : Byte) (seq : Seq) (src : MeshAddr) (iv : BitVec 32) : Nonce :=
  0x03#8 ++ 0x00#8 ++ seq ++ src ++ 0x0000#16 ++ iv

/-- Application (type 0x01) and device (type 0x02) nonce; the flags byte carries ASZMIC in bit 7 (R152, R153). -/
def transportNonce (type : Byte) (aszmic : Bool) (seq : Seq) (src dst : MeshAddr) (iv : BitVec 32) : Nonce :=
  type ++ (BitVec.ofBool aszmic ++ 0#7) ++ seq ++ src ++ dst ++ iv

/-- The transport nonce of the parameter registers with a given type and flag (R152, R155). -/
def State.transportNonceOf (s : State) (type : Byte) (aszmic : Bool) : Nonce :=
  transportNonce type aszmic s.par.tseq s.par.src s.par.dst s.par.ivindex

/-- The nonce type `AKF` selects: 0x01 application, 0x02 device (R156). -/
def State.transportType (s : State) : Byte := if s.akf then 0x01 else 0x02

/-- `NONCE_NET` (R151). -/
def execNonceNet (s : State) : Result :=
  .next ((s.begin.setNonce (networkNonce s.par.ctlttl s.par.nseq s.par.src s.par.ivindex)).finish .ok)

/-- `NONCE_APP` (R152). -/
def execNonceApp (s : State) : Result :=
  .next ((s.begin.setNonce (s.transportNonceOf 0x01 s.szmic)).finish .ok)

/-- `NONCE_DEV` (R153). -/
def execNonceDev (s : State) : Result :=
  .next ((s.begin.setNonce (s.transportNonceOf 0x02 s.szmic)).finish .ok)

/-- `NONCE_PROXY` (R154). -/
def execNonceProxy (s : State) : Result :=
  .next ((s.begin.setNonce (proxyNonce s.par.ctlttl s.par.nseq s.par.src s.par.ivindex)).finish .ok)

end Sys2Proof.Machine
end

