-- ==== Sys2Proof/Machine/Obfuscator.lean ====
section
/-! DEFINITION. The privacy obfuscator (45_network.md R231 to R235). -/

namespace Sys2Proof.Machine

/-- `pecb(privacyRandom)`: bytes 0 to 5 of AES over five zero bytes, the IV index and the 7-byte privacy random (R231). -/
def pecbOf (kpriv : Key) (iv : BitVec 32) (random : BitVec 56) : Six :=
  (aes kpriv (0#40 ++ iv ++ random)).extractLsb' 80 48

/-- The privacy random of a byte string that begins with it: its first seven bytes (R231). -/
def privacyRandom (bs : List Byte) : BitVec 56 := fromBE 56 (bs.take 7)

/-- `NBUF[8 .. 14]`. -/
def State.nbufRandom (s : State) : BitVec 56 := privacyRandom (s.mem.readRange (nbufBase + 8) 7)

/-- The network header before obfuscation, `[CTLTTL] ++ be_3(NSEQ) ++ be_2(SRC)` (R233). -/
def State.header (s : State) : Six := s.par.ctlttl ++ s.par.nseq ++ s.par.src

/-- `NBUF[2 .. 7]`. -/
def State.nbufHeader (s : State) : Six := fromBE 48 (s.mem.readRange (nbufBase + 2) 6)

/-- `h[0]` of a header: the CTL/TTL byte (R233). -/
def headerCtlTtl (h : Six) : Byte := h.extractLsb' 40 8

/-- `h[1..3]` of a header: the sequence number (R233). -/
def headerSeq (h : Six) : Seq := h.extractLsb' 16 24

/-- `h[4..5]` of a header: the source (R233). -/
def headerSrc (h : Six) : MeshAddr := h.extractLsb' 0 16

/-- `PECB_GEN` (R232). -/
def execPecbGen (s : State) : Result :=
  let s := s.begin
  if s.len.nlen.toNat < 15 then .next (s.fail .errLen)
  else .next ((s.setPecb (pecbOf s.keys.kpriv s.par.ivindex s.nbufRandom)).finish .ok)

/-- `NBUF[2 .. 7] <- h`, NLEN unchanged (R234). -/
def State.putNbufHeader (s : State) (h : Six) : State :=
  { s with mem := s.mem.writeRange (nbufBase + 2) (beBytes 6 h) }

/-- `HDR_OBF` (R234). -/
def execHdrObf (s : State) : Result :=
  let s := s.begin
  if s.len.nlen.toNat < 8 then .next (s.fail .errLen)
  else .next ((s.putNbufHeader (s.header ^^^ s.pecb)).finish .ok)

/-- `CTLTTL`, `NSEQ`, `SRC` taken from a header (R235). -/
def ParamRegs.withHeader (p : ParamRegs) (h : Six) : ParamRegs :=
  { p with ctlttl := headerCtlTtl h, nseq := headerSeq h, src := headerSrc h }

/-- `HDR_DEOBF` (R235). -/
def execHdrDeobf (s : State) : Result :=
  let s := s.begin
  if s.len.nlen.toNat < 8 then .next (s.fail .errLen)
  else .next ((s.setPar (s.par.withHeader (s.nbufHeader ^^^ s.pecb))).finish .ok)

end Sys2Proof.Machine
end

