-- ==== Sys2Proof/Machine/Network.lean ====
section
/-! DEFINITION. The whole-frame commands of the network layer (45_network.md R236 to R241). `NET_*` and `PROXY_*` differ in the nonce
alone, so both are one operation over a nonce layout. -/

namespace Sys2Proof.Machine

/-- A nonce layout as a function of the CTL/TTL byte, the sequence number, the source and the IV index (R151, R154). -/
abbrev NonceLayout := Byte → Seq → MeshAddr → BitVec 32 → Nonce

/-- The nonce of the parameter registers under a layout (R238, R239). -/
def State.frameNonce (s : State) (layout : NonceLayout) : Nonce :=
  layout s.par.ctlttl s.par.nseq s.par.src s.par.ivindex

/-- The network plaintext `be_2(DST) ++ LBUF[0..LLEN-1]` (R236). -/
def State.networkPlaintext (s : State) : List Byte := beBytes 2 s.par.dst ++ s.lbuf

/-- The encrypted payload of the frame (R236). -/
def State.encryptedPayload (s : State) (layout : NonceLayout) : List Byte :=
  ccmEncrypt s.keys.kenc (s.frameNonce layout) (netMicLen s.ctl) s.networkPlaintext

/-- `NBUF[1]` of a frame built: IVI in bit 7, NID in bits 6:0 (R237). -/
def State.iviNid (s : State) : Byte := BitVec.ofBool (s.par.ivindex.getLsbD 0) ++ s.nid7

/-- The frame in `NBUF` around an encrypted payload, under the PECB given (R237). -/
def State.frameOf (s : State) (pecb : Six) (enc : List Byte) : List Byte :=
  [s.par.pdutype, s.iviNid] ++ beBytes 6 (s.header ^^^ pecb) ++ enc

/-- `NET_ENC` and `PROXY_ENC` under a nonce layout (R238, R239). -/
def State.encryptFrame (s : State) (layout : NonceLayout) : State :=
  let s := s.begin
  if s.len.llen.toNat < 1 ∨ Config.lowerMax < s.len.llen.toNat then s.fail .errLen
  else
    let enc := s.encryptedPayload layout
    let pecb := pecbOf s.keys.kpriv s.par.ivindex (privacyRandom enc)
    (((s.setNonce (s.frameNonce layout)).setPecb pecb).putNbuf (s.frameOf pecb enc)).finish .ok

/-- `NET_ENC` (R238). -/
def execNetEnc (s : State) : Result := .next (s.encryptFrame networkNonce)

/-- `PROXY_ENC` (R239). -/
def execProxyEnc (s : State) : Result := .next (s.encryptFrame proxyNonce)

/-- `NBUF[1][6:0]`, the NID of the frame in NBUF (R240). -/
def State.frameNid (s : State) : BitVec 7 := (s.mem.read (nbufBase + 1)).extractLsb' 0 7

/-- The parameter registers a decoded frame leaves: PDUTYPE from `NBUF[0]`, the header's three, DST from the plaintext (R240). -/
def State.decodedPar (s : State) (h : Six) (plain : List Byte) : ParamRegs :=
  { s.par.withHeader h with pdutype := s.mem.read nbufBase, dst := fromBE 16 (plain.take 2) }

/-- `NET_DEC` and `PROXY_DEC` under a nonce layout (R240, R241). -/
def State.decryptFrame (s : State) (layout : NonceLayout) : State :=
  let s := s.begin
  let nlen := s.len.nlen.toNat
  if nlen < 15 ∨ Config.netMax < nlen then s.fail .errLen
  else if s.frameNid ≠ s.nid7 then s.fail .errNid
  else
    let pecb := pecbOf s.keys.kpriv s.par.ivindex s.nbufRandom
    let h := s.nbufHeader ^^^ pecb
    let m := netMicLen ((headerCtlTtl h).getLsbD 7)
    let l := nlen - 8
    if l < 3 + m ∨ 18 + m < l then (s.setPecb pecb).fail .errLen
    else
      let nonce := layout (headerCtlTtl h) (headerSeq h) (headerSrc h) s.par.ivindex
      let s1 := (s.setPecb pecb).setNonce nonce
      match ccmDecrypt s.keys.kenc nonce m (s.mem.readRange (nbufBase + 8) l) with
      | none => s1.fail .errAuth
      | some plain => ((s1.setPar (s.decodedPar h plain)).putLbuf (plain.drop 2)).finish .ok

/-- `NET_DEC` (R240). -/
def execNetDec (s : State) : Result := .next (s.decryptFrame networkNonce)

/-- `PROXY_DEC` (R241). -/
def execProxyDec (s : State) : Result := .next (s.decryptFrame proxyNonce)

end Sys2Proof.Machine
end

