-- ==== Sys2Proof/Machine/BlockAck.lean ====
section
/-! DEFINITION. The block-acknowledgement payload and the sender's matcher (44_reassembly.md R208, R211). -/

namespace Sys2Proof.Machine

/-- The block-ack payload (R208): `OBO | z[12:6]`, `z[5:0] | RFU`, BLOCKACK most significant byte first. -/
def ackPayload (obo : Bool) (rseqzero : BitVec 16) (blockack : BitVec 32) : Six :=
  (BitVec.ofBool obo ++ rseqzero.extractLsb' 6 7) ++ (rseqzero.extractLsb' 0 6 ++ 0#2) ++ blockack

/-- The payload the engine builds now (R208). -/
def State.ackPayloadNow (s : State) : Six := ackPayload s.obo s.ctx.rseqzero s.ctx.blockack

/-- `2^(segN+1) - 1`, the bits of segments `0..segN` (R202, R211). -/
def segmentMask (segN : BitVec 5) : BitVec 32 := BitVec.ofNat 32 (2 ^ (segN.toNat + 1) - 1)

/-- SeqZero of a block-ack payload (R211); the RFU bits are ignored. -/
def ackSeqZero (payload : Six) : BitVec 13 := payload.extractLsb' 34 13

/-- The bitmask of a block-ack payload (R211). -/
def ackMask (payload : Six) : BitVec 32 := payload.extractLsb' 0 32

/-- OBO of a block-ack payload (R211). -/
def ackObo (payload : Six) : Bool := payload.getLsbD 47

/-- The matcher's outputs for a payload and the SegN of the message it answers (R211). -/
def matchOutputs (payload : Six) (segN : BitVec 5) : MatchRegs where
  rxblockack := ackMask payload
  missing := segmentMask segN &&& ~~~(ackMask payload)
  rxackhdr := BitVec.ofBool (ackObo payload) ++ 0#2 ++ ackSeqZero payload

/-- `BACK_MATCH` (R211). -/
def execBackMatch (s : State) : Result :=
  let s := s.begin
  if s.len.ulen.toNat ≠ 6 then .next (s.fail .errLen)
  else
    let payload := fromBE 48 (s.mem.readRange ubufBase 6)
    let s1 : State := { s with matcher := matchOutputs payload s.txSegN }
    let s2 := if ackSeqZero payload = s.tseqZero then s1.raise .szMatch else s1
    .next (s2.finish .ok)

end Sys2Proof.Machine
end

