-- ==== Sys2Proof/Machine/Reassembly.lean ====
section
/-! DEFINITION. Reassembly (44_reassembly.md R190 to R209): the reassembly context, `LT_PARSE`, the two timer expiries, `RX_RESET`. -/

namespace Sys2Proof.Machine

/-! Fields of a received segment (R200). -/

/-- The fields of a segment header and the payload behind it (R200). -/
structure Segment where
  h0 : BitVec 7
  szmic : Bool
  seqZero : BitVec 13
  segO : BitVec 5
  segN : BitVec 5
  payload : List Byte
  deriving DecidableEq, Repr

/-- The fields of R200 read from the bytes of a segment. -/
def segmentFields (bs : List Byte) : Segment where
  h0 := (bs.getD 0 0).extractLsb' 0 7
  szmic := (bs.getD 1 0).getLsbD 7
  seqZero := (bs.getD 1 0).extractLsb' 0 7 ++ (bs.getD 2 0).extractLsb' 2 6
  segO := (bs.getD 2 0).extractLsb' 0 2 ++ (bs.getD 3 0).extractLsb' 5 3
  segN := (bs.getD 3 0).extractLsb' 0 5
  payload := bs.drop 4

/-- Sequence reconciliation (R194): the largest value not above `nseq` whose low 13 bits are `z`; none where it would be negative. -/
def reconcile (nseq : Seq) (z : BitVec 13) : Option Seq :=
  let low := nseq.toNat % 0x2000
  let t := nseq.toNat - low + z.toNat
  if low < z.toNat then
    if t < 0x2000 then none else some (BitVec.ofNat 24 (t - 0x2000))
  else some (BitVec.ofNat 24 t)

/-! Operations of the context. -/

/-- The context at the start of a new SeqAuth (R196), its ACK_RUN not yet settled. -/
def RxContext.start (c : RxContext) (t : Seq) (z : BitVec 13) : RxContext :=
  ({ c with lastseqauth := t, lsav := setBit c.lsav 0 true, segvalid := 0, blockack := 0, rseqzero := z.setWidth 16 }.setFlag .ackSent false).setFlag
    .incRun true

/-- Segment `o` stored (R201). -/
def RxContext.store (c : RxContext) (o : BitVec 5) (payload : List Byte) : RxContext :=
  { c with
    segbuf := c.segbuf.writeRange (12 * o.toNat) payload
    seglen := c.seglen.setIfInBounds o.toNat (BitVec.ofNat 4 payload.length)
    segvalid := c.segvalid ||| (1#32 <<< o.toNat)
    blockack := c.blockack ||| (1#32 <<< o.toNat) }

/-- The completion test (R202). -/
def RxContext.isComplete (c : RxContext) (segN : BitVec 5) : Bool := c.segvalid == segmentMask segN

/-- The bytes stored in slot `i` (R61). -/
def RxContext.slot (c : RxContext) (i : Nat) : List Byte := c.segbuf.readRange (12 * i) (c.seglen.getD i 0).toNat

/-- `SEGBUF[0] ++ .. ++ SEGBUF[segN]`, each with its length (R203). -/
def RxContext.assembled (c : RxContext) (segN : BitVec 5) : List Byte :=
  (List.range (segN.toNat + 1)).flatMap c.slot

/-! The steps of `LT_PARSE`. -/

/-- `ACK_RUN <- 1 ; ACKTMR <- 150 + 50 * TTL ; EVENTS.ACK_START <- 1` (R196, R198, R205). -/
def State.startAckTimer (s : State) : State :=
  ((s.setCtx (s.ctx.setFlag .ackRun true)).setParsed
    { s.parsed with acktmr := BitVec.ofNat 16 (Config.ackBaseMs + Config.ackPerTtlMs * s.ttl.toNat) }).raise .ackStart

/-- `ACK_RUN <- 0 ; EVENTS.ACK_CANCEL <- 1` (R196, R203, R206). -/
def State.cancelAckTimer (s : State) : State := (s.setCtx (s.ctx.setFlag .ackRun false)).raise .ackCancel

/-- COPC or TCTRL from the first header byte: access writes `SZMIC | AKF | AID`, control writes the opcode and clears SZMIC (R191, R192). -/
def State.noteHeaderByte (s : State) (h0 : BitVec 7) (szmic : Bool) : State :=
  if s.ctl then s.setPar { s.par with copc := 0#1 ++ h0, tctrl := setBit s.par.tctrl 7 false }
  else s.setPar { s.par with tctrl := BitVec.ofBool szmic ++ h0 }

/-- The unsegmented path (R192). -/
def State.parseUnsegmented (s : State) : State :=
  let s1 := s.noteHeaderByte ((s.lbuf.getD 0 0).extractLsb' 0 7) false
  let s2 := s1.putUbuf (s.lbuf.drop 1)
  let s3 := s2.setPar { s2.par with tseq := s.par.nseq }
  ((s3.setParsed { s3.parsed with rxseg := 0x00, rxsego := 0x00 }).raise .complete).finish .ok

/-- The header outputs of a segment (R191). -/
def State.noteSegment (s : State) (g : Segment) : State :=
  let s1 := s.noteHeaderByte g.h0 g.szmic
  s1.setParsed { s1.parsed with rxseg := 1#1 ++ 0#2 ++ g.segN, rxsego := 0#3 ++ g.segO }

/-- The new-SeqAuth branch (R196). -/
def State.newSeqAuth (s : State) (t : Seq) (z : BitVec 13) : State :=
  let s1 := (s.setCtx (s.ctx.start t z)).raise .incStart
  if unicast s.par.dst then s1.startAckTimer
  else if s1.ctx.flag .ackRun then s1.cancelAckTimer
  else s1

/-- The same-SeqAuth branch (R198). -/
def State.sameSeqAuth (s : State) : State :=
  let s1 := s.raise .incStart
  if !s1.ctx.flag .ackRun && unicast s.par.dst then s1.startAckTimer else s1

/-- The block-ack sent at once by a completion (R203): `ACKBUF`, ACK_SENT, the timer cancelled, SEND_ACK. -/
def State.sendAckNow (s : State) : State :=
  (({ s with ackbuf := s.ackPayloadNow }.setCtx (s.ctx.setFlag .ackSent true)).cancelAckTimer).raise .sendAck

/-- Completion (R203). -/
def State.deliver (s : State) (t : Seq) (segN : BitVec 5) : State :=
  let s1 := s.putUbuf (s.ctx.assembled segN)
  let s2 := s1.setPar { s1.par with tseq := t }
  let s3 := (s2.setCtx (s2.ctx.setFlag .incRun false)).raise .incCancel
  let s4 := if unicast s.par.dst && !s3.ctx.flag .ackSent then s3.sendAckNow else s3
  ((s4.setCtx { s4.ctx with segvalid := 0 }).raise .complete).finish .ok

/-- Store, completion test, and the outcome (R191, R201 to R203). -/
def State.storeSegment (s : State) (t : Seq) (g : Segment) : State :=
  let s1 := s.setCtx (s.ctx.store g.segO g.payload)
  if s1.ctx.isComplete g.segN then s1.deliver t g.segN else s1.finish .pending

/-- A segment that passed the format checks, with its reconciled sequence number: header outputs, then one of the three branches (R191,
R196, R198, R199). -/
def State.acceptSegment (s : State) (t : Seq) (g : Segment) : State :=
  let s1 := s.noteSegment g
  if !s.ctx.lastValid || decide (s.ctx.lastseqauth < t) then (s1.newSeqAuth t g.seqZero).storeSegment t g
  else if t == s.ctx.lastseqauth && s.ctx.flag .incRun then s1.sameSeqAuth.storeSegment t g
  else s1.finish .ignored

/-- The segmented path with its checks (R191). -/
def State.parseSegment (s : State) : State :=
  let llen := s.len.llen.toNat
  let g := segmentFields s.lbuf
  if llen < 5 ∨ 4 + segmentSize s.ctl < llen then s.fail .errLen
  else if g.segN < g.segO then s.fail .errMalformed
  else match reconcile s.par.nseq g.seqZero with
    | none => s.fail .errSeq
    | some t => s.acceptSegment t g

/-- `LT_PARSE` (R191). -/
def execLtParse (s : State) : Result :=
  let s := s.begin
  let llen := s.len.llen.toNat
  if llen < 2 ∨ Config.lowerMax < llen then .next (s.fail .errLen)
  else if (s.lbuf.getD 0 0).getLsbD 7 = false then .next s.parseUnsegmented
  else .next s.parseSegment

/-! Timer expiry and reset of the context. -/

/-- `TMR_INC_EXP` (R206). -/
def execTmrIncExp (s : State) : Result :=
  let s := s.begin
  if s.ctx.flag .incRun = false then .next (s.finish .ignored)
  else
    let s1 := (s.setCtx { s.ctx.setFlag .incRun false with segvalid := 0 }).raise .txnFailed
    let s2 := if s1.ctx.flag .ackRun then s1.cancelAckTimer else s1
    .next (s2.finish .ok)

/-- `TMR_ACK_EXP` (R207). -/
def execTmrAckExp (s : State) : Result :=
  let s := s.begin
  if s.ctx.flag .ackRun = false then .next (s.finish .ignored)
  else
    let s1 := { s with ackbuf := s.ackPayloadNow }.setCtx ((s.ctx.setFlag .ackRun false).setFlag .ackSent true)
    .next ((s1.raise .sendAck).finish .ok)

/-- The context after `RX_RESET`: LASTSEQAUTH and LSAV kept (R209). -/
def RxContext.cleared (c : RxContext) : RxContext :=
  { ((c.setFlag .incRun false).setFlag .ackRun false).setFlag .ackSent false with segvalid := 0, blockack := 0, rseqzero := 0 }

/-- `RX_RESET` (R209). -/
def execRxReset (s : State) : Result :=
  let s := s.begin
  let s1 := if s.ctx.flag .incRun then s.raise .incCancel else s
  let s2 := if s.ctx.flag .ackRun then s1.raise .ackCancel else s1
  .next ((s2.setCtx s2.ctx.cleared).finish .ok)

end Sys2Proof.Machine
end

