-- ==== Sys2Proof/Machine/Segmentation.lean ====
section
/-! DEFINITION. The segmentation framer (43_segmentation.md R170 to R176). -/

namespace Sys2Proof.Machine

/-- The four bytes of a segment header (R172): `SEG(1) | header bits(7)`, `SZMIC(1) | z[12:6]`, `z[5:0] | segO[4:3]`,
`segO[2:0] | segN`. -/
def segmentHeader (h0 : BitVec 7) (szmic : Bool) (z : BitVec 13) (segO segN : BitVec 5) : List Byte :=
  [1#1 ++ h0, BitVec.ofBool szmic ++ z.extractLsb' 6 7, z.extractLsb' 0 6 ++ segO.extractLsb' 3 2, segO.extractLsb' 0 3 ++ segN]

/-- The bytes of `UBUF` segment `i` carries, `UBUF[i*S .. min((i+1)*S, n) - 1]` (R174). -/
def segmentSlice (upper : List Byte) (size i : Nat) : List Byte := (upper.drop (i * size)).take size

/-- TXSEG after a framing: `SEG` in bit 7, `SEGN` in bits 4:0 (R41). -/
def txSegOf (seg : Bool) (segN : BitVec 5) : Byte := BitVec.ofBool seg ++ 0#2 ++ segN

/-- `LBUF`, `LLEN` and `TXSEG` written by a framing that succeeds (R176). -/
def State.framed (s : State) (pdu : List Byte) (txseg : Byte) : State :=
  ((s.putLbuf pdu).setPar { s.par with txseg := txseg }).finish .ok

/-- `LT_FRAME` (R176). -/
def execLtFrame (s : State) : Result :=
  let s := s.begin
  let size := segmentSize s.ctl
  let n := s.len.ulen.toNat
  let i := s.segIndex
  let segN := ceilDiv n size - 1
  if n < 1 ∨ Config.segCountMax * size < n then .next (s.fail .errLen)
  else if n ≤ size then
    if i ≠ 0 then .next (s.fail .errField)
    else .next (s.framed ((0#1 ++ s.headerBits) :: s.ubuf) (txSegOf false 0))
  else if segN < i.toNat then .next (s.fail .errField)
  else
    let header := segmentHeader s.headerBits (!s.ctl && s.szmic) s.tseqZero i (BitVec.ofNat 5 segN)
    .next (s.framed (header ++ segmentSlice s.ubuf size i.toNat) (txSegOf true (BitVec.ofNat 5 segN)))

end Sys2Proof.Machine
end

