-- ==== Sys2Proof/Machine/UpperTransport.lean ====
section
/-! DEFINITION. Upper-transport encryption and decryption (42_nonce_upper.md R157 to R160). -/

namespace Sys2Proof.Machine

/-- `aszmic_eff`: the long MIC is used exactly when SZMIC is 1 and the PDU with a long MIC would be segmented (R157). -/
def State.effectiveAszmic (s : State) : Bool :=
  s.szmic && decide (Config.segMaxAccess < s.len.alen.toNat + Config.transMicLong)

/-- `UT_ENC` (R158). -/
def execUtEnc (s : State) : Result :=
  let s := s.begin
  let n := s.len.alen.toNat
  let m := transMicLen s.effectiveAszmic
  if n < 1 ∨ Config.accessMax < n then .next (s.fail .errLen)
  else if Config.upperMax < n + m then .next (s.fail .errLen)
  else
    let nonce := s.transportNonceOf s.transportType s.effectiveAszmic
    .next (((s.setNonce nonce).putUbuf (ccmEncrypt s.keys.ktrans nonce m s.abuf)).finish .ok)

/-- `UT_DEC` (R159): NONCE is written before the verification. -/
def execUtDec (s : State) : Result :=
  let s := s.begin
  let n := s.len.ulen.toNat
  let m := transMicLen s.szmic
  if n < m + 1 ∨ Config.upperMax < n then .next (s.fail .errLen)
  else
    let nonce := s.transportNonceOf s.transportType s.szmic
    match ccmDecrypt s.keys.ktrans nonce m s.ubuf with
    | none => .next ((s.setNonce nonce).fail .errAuth)
    | some p => .next (((s.setNonce nonce).putAbuf p).finish .ok)

end Sys2Proof.Machine
end

