-- ==== Sys2Proof/Machine/Dispatch.lean ====
section
/-! DEFINITION. One arm per command, each one direct call of its meaning. -/

namespace Sys2Proof.Machine

def exec (i : Instr) (s : State) : Host.Outcome State Fault Refusal :=
  match i with
  | .nonceNet => Sys2Proof.Machine.execNonceNet s
  | .nonceApp => Sys2Proof.Machine.execNonceApp s
  | .nonceDev => Sys2Proof.Machine.execNonceDev s
  | .nonceProxy => Sys2Proof.Machine.execNonceProxy s
  | .ccmEnc => Sys2Proof.Machine.execCcmEnc s
  | .ccmDec => Sys2Proof.Machine.execCcmDec s
  | .utEnc => Sys2Proof.Machine.execUtEnc s
  | .utDec => Sys2Proof.Machine.execUtDec s
  | .pecbGen => Sys2Proof.Machine.execPecbGen s
  | .hdrObf => Sys2Proof.Machine.execHdrObf s
  | .hdrDeobf => Sys2Proof.Machine.execHdrDeobf s
  | .netEnc => Sys2Proof.Machine.execNetEnc s
  | .netDec => Sys2Proof.Machine.execNetDec s
  | .proxyEnc => Sys2Proof.Machine.execProxyEnc s
  | .proxyDec => Sys2Proof.Machine.execProxyDec s
  | .ltFrame => Sys2Proof.Machine.execLtFrame s
  | .ltParse => Sys2Proof.Machine.execLtParse s
  | .tmrIncExp => Sys2Proof.Machine.execTmrIncExp s
  | .tmrAckExp => Sys2Proof.Machine.execTmrAckExp s
  | .rxReset => Sys2Proof.Machine.execRxReset s
  | .backMatch => Sys2Proof.Machine.execBackMatch s

end Sys2Proof.Machine
end

