-- ==== Sys2Proof/Machine/Window.lean ====
section
/-! DEFINITION. The host window (10_state.md R23 to R60; 20_memory.md R70 to R77): the register map, and one-byte reads and writes of
everything in it. The command a write of CMD issues is run by Machine/Port.lean. -/

namespace Sys2Proof.Machine

/-- The rows of the register map of R23 that have an address. -/
inductive Reg where
  /-- `CMD`, R24. -/
  | cmd
  /-- `STATUS`, R25. -/
  | status
  /-- `EVENTS`, R26. -/
  | events
  /-- `RFLAGS`, R27. -/
  | rflags
  /-- `CFG`, R28. -/
  | cfg
  /-- `CCMCFG`, R29. -/
  | ccmcfg
  /-- `PDUTYPE`, R30. -/
  | pdutype
  /-- `NID`, R31. -/
  | nid
  /-- `CTLTTL`, R32. -/
  | ctlttl
  /-- `NSEQ`, R33. -/
  | nseq
  /-- `SRC`, R34. -/
  | src
  /-- `DST`, R35. -/
  | dst
  /-- `IVINDEX`, R36. -/
  | ivindex
  /-- `TSEQ`, R37. -/
  | tseq
  /-- `TCTRL`, R38. -/
  | tctrl
  /-- `COPC`, R39. -/
  | copc
  /-- `SEGO`, R40. -/
  | sego
  /-- `TXSEG`, R41. -/
  | txseg
  /-- `RXSEG`, R42. -/
  | rxseg
  /-- `RXSEGO`, R43. -/
  | rxsego
  /-- `ACKTMR`, R44. -/
  | acktmr
  /-- `LASTSEQAUTH`, R45. -/
  | lastseqauth
  /-- `LSAV`, R45. -/
  | lsav
  /-- `RSEQZERO`, R46. -/
  | rseqzero
  /-- `BLOCKACK`, R47. -/
  | blockack
  /-- `SEGVALID`, R48. -/
  | segvalid
  /-- `RXBLOCKACK`, R49. -/
  | rxblockack
  /-- `MISSING`, R50. -/
  | missing
  /-- `RXACKHDR`, R51. -/
  | rxackhdr
  /-- `ALEN`, R52. -/
  | alen
  /-- `ULEN`, R52. -/
  | ulen
  /-- `LLEN`, R52. -/
  | llen
  /-- `NLEN`, R52. -/
  | nlen
  /-- `KENC`, R53. -/
  | kenc
  /-- `KPRIV`, R53. -/
  | kpriv
  /-- `KTRANS`, R53. -/
  | ktrans
  /-- `NONCE`, R54. -/
  | nonce
  /-- `PECB`, R55. -/
  | pecb
  /-- `ACKBUF`, R56. -/
  | ackbuf
  /-- `LBUF`, R57. -/
  | lbuf
  /-- `NBUF`, R58. -/
  | nbuf
  /-- `ABUF`, R59. -/
  | abuf
  /-- `UBUF`, R60. -/
  | ubuf
  deriving DecidableEq, Repr

/-- The rows of R23 in address order. -/
def Reg.all : List Reg :=
  [.cmd, .status, .events, .rflags, .cfg, .ccmcfg, .pdutype, .nid, .ctlttl, .nseq, .src, .dst, .ivindex, .tseq, .tctrl,
   .copc, .sego, .txseg, .rxseg, .rxsego, .acktmr, .lastseqauth, .lsav, .rseqzero, .blockack, .segvalid, .rxblockack,
   .missing, .rxackhdr, .alen, .ulen, .llen, .nlen, .kenc, .kpriv, .ktrans, .nonce, .pecb, .ackbuf, .lbuf, .nbuf, .abuf,
   .ubuf]

/-- What the host may do with a register (R23). -/
inductive Access where
  | readOnly
  | writeOnly
  | readWrite
  deriving DecidableEq, Repr

/-- The lowest window offset of a register (R23). -/
def Reg.base : Reg → Nat
  | .cmd => 0x000
  | .status => 0x001
  | .events => 0x002
  | .rflags => 0x003
  | .cfg => 0x004
  | .ccmcfg => 0x005
  | .pdutype => 0x006
  | .nid => 0x007
  | .ctlttl => 0x008
  | .nseq => 0x009
  | .src => 0x00C
  | .dst => 0x00E
  | .ivindex => 0x010
  | .tseq => 0x014
  | .tctrl => 0x017
  | .copc => 0x018
  | .sego => 0x019
  | .txseg => 0x01A
  | .rxseg => 0x01B
  | .rxsego => 0x01C
  | .acktmr => 0x01E
  | .lastseqauth => 0x020
  | .lsav => 0x023
  | .rseqzero => 0x024
  | .blockack => 0x028
  | .segvalid => 0x02C
  | .rxblockack => 0x030
  | .missing => 0x034
  | .rxackhdr => 0x038
  | .alen => 0x03A
  | .ulen => 0x03C
  | .llen => 0x03E
  | .nlen => 0x03F
  | .kenc => 0x040
  | .kpriv => 0x050
  | .ktrans => 0x060
  | .nonce => 0x070
  | .pecb => 0x080
  | .ackbuf => 0x088
  | .lbuf => 0x090
  | .nbuf => 0x0A0
  | .abuf => 0x100
  | .ubuf => 0x300

/-- How many bytes a register spans (R23). -/
def Reg.size : Reg → Nat
  | .cmd => 1
  | .status => 1
  | .events => 1
  | .rflags => 1
  | .cfg => 1
  | .ccmcfg => 1
  | .pdutype => 1
  | .nid => 1
  | .ctlttl => 1
  | .nseq => 3
  | .src => 2
  | .dst => 2
  | .ivindex => 4
  | .tseq => 3
  | .tctrl => 1
  | .copc => 1
  | .sego => 1
  | .txseg => 1
  | .rxseg => 1
  | .rxsego => 1
  | .acktmr => 2
  | .lastseqauth => 3
  | .lsav => 1
  | .rseqzero => 2
  | .blockack => 4
  | .segvalid => 4
  | .rxblockack => 4
  | .missing => 4
  | .rxackhdr => 2
  | .alen => 2
  | .ulen => 2
  | .llen => 1
  | .nlen => 1
  | .kenc => 16
  | .kpriv => 16
  | .ktrans => 16
  | .nonce => 13
  | .pecb => 6
  | .ackbuf => 6
  | .lbuf => 16
  | .nbuf => 34
  | .abuf => 380
  | .ubuf => 384

/-- Host access rights (R23). -/
def Reg.access : Reg → Access
  | .cmd => .writeOnly
  | .status => .readOnly
  | .events => .readOnly
  | .rflags => .readOnly
  | .cfg => .readWrite
  | .ccmcfg => .readWrite
  | .pdutype => .readWrite
  | .nid => .readWrite
  | .ctlttl => .readWrite
  | .nseq => .readWrite
  | .src => .readWrite
  | .dst => .readWrite
  | .ivindex => .readWrite
  | .tseq => .readWrite
  | .tctrl => .readWrite
  | .copc => .readWrite
  | .sego => .readWrite
  | .txseg => .readWrite
  | .rxseg => .readOnly
  | .rxsego => .readOnly
  | .acktmr => .readOnly
  | .lastseqauth => .readWrite
  | .lsav => .readWrite
  | .rseqzero => .readOnly
  | .blockack => .readOnly
  | .segvalid => .readOnly
  | .rxblockack => .readOnly
  | .missing => .readOnly
  | .rxackhdr => .readOnly
  | .alen => .readWrite
  | .ulen => .readWrite
  | .llen => .readWrite
  | .nlen => .readWrite
  | .kenc => .writeOnly
  | .kpriv => .writeOnly
  | .ktrans => .writeOnly
  | .nonce => .readWrite
  | .pecb => .readWrite
  | .ackbuf => .readOnly
  | .lbuf => .readWrite
  | .nbuf => .readWrite
  | .abuf => .readWrite
  | .ubuf => .readWrite

/-- The bits of byte `j` of a register that are not reserved (R27 to R51): the others are dropped on a write and read 0. -/
def Reg.mask (r : Reg) (j : Nat) : Byte :=
  match r with
  | .rflags => 0x07
  | .cfg => 0x01
  | .ccmcfg => 0x07
  | .nid => 0x7F
  | .copc => 0x7F
  | .sego => 0x1F
  | .txseg => 0x9F
  | .rxseg => 0x9F
  | .rxsego => 0x1F
  | .lsav => 0x01
  | .rseqzero => if j = 0 then 0x1F else 0xFF
  | .rxackhdr => if j = 0 then 0x9F else 0xFF
  | _ => 0xFF

/-- A buffer, held in `State.mem` under its window offsets (R57 to R60). -/
def Reg.isBuffer (r : Reg) : Bool := r = .lbuf || r = .nbuf || r = .abuf || r = .ubuf

/-- The register and byte index at a window offset; none for a reserved address (R23, R75). -/
def locate (addr : Nat) : Option (Reg × Nat) :=
  (Reg.all.find? fun r => r.base ≤ addr && addr < r.base + r.size).map fun r => (r, addr - r.base)

/-- The bytes of a register, most significant first (R77). `CMD` holds no value (R24); a buffer's bytes are in memory. -/
def State.regBytes (s : State) (r : Reg) : List Byte :=
  match r with
  | .cmd => [0x00]
  | .status => beBytes 1 s.status
  | .events => beBytes 1 s.events
  | .rflags => beBytes 1 s.ctx.rflags
  | .cfg => beBytes 1 s.conf.cfg
  | .ccmcfg => beBytes 1 s.conf.ccmcfg
  | .pdutype => beBytes 1 s.par.pdutype
  | .nid => beBytes 1 s.par.nid
  | .ctlttl => beBytes 1 s.par.ctlttl
  | .nseq => beBytes 3 s.par.nseq
  | .src => beBytes 2 s.par.src
  | .dst => beBytes 2 s.par.dst
  | .ivindex => beBytes 4 s.par.ivindex
  | .tseq => beBytes 3 s.par.tseq
  | .tctrl => beBytes 1 s.par.tctrl
  | .copc => beBytes 1 s.par.copc
  | .sego => beBytes 1 s.par.sego
  | .txseg => beBytes 1 s.par.txseg
  | .rxseg => beBytes 1 s.parsed.rxseg
  | .rxsego => beBytes 1 s.parsed.rxsego
  | .acktmr => beBytes 2 s.parsed.acktmr
  | .lastseqauth => beBytes 3 s.ctx.lastseqauth
  | .lsav => beBytes 1 s.ctx.lsav
  | .rseqzero => beBytes 2 s.ctx.rseqzero
  | .blockack => beBytes 4 s.ctx.blockack
  | .segvalid => beBytes 4 s.ctx.segvalid
  | .rxblockack => beBytes 4 s.matcher.rxblockack
  | .missing => beBytes 4 s.matcher.missing
  | .rxackhdr => beBytes 2 s.matcher.rxackhdr
  | .alen => beBytes 2 s.len.alen
  | .ulen => beBytes 2 s.len.ulen
  | .llen => beBytes 1 s.len.llen
  | .nlen => beBytes 1 s.len.nlen
  | .kenc => beBytes 16 s.keys.kenc
  | .kpriv => beBytes 16 s.keys.kpriv
  | .ktrans => beBytes 16 s.keys.ktrans
  | .nonce => beBytes 13 s.nonce
  | .pecb => beBytes 6 s.pecb
  | .ackbuf => beBytes 6 s.ackbuf
  | .lbuf => s.mem.readRange lbufBase 16
  | .nbuf => s.mem.readRange nbufBase 34
  | .abuf => s.mem.readRange abufBase 380
  | .ubuf => s.mem.readRange ubufBase 384

/-- A register's value replaced by the one its bytes spell (R77). Only registers the host may write are listed; the others keep their
value (R73). -/
def State.setRegBytes (s : State) (r : Reg) (bs : List Byte) : State :=
  match r with
  | .cfg => { s with conf := { s.conf with cfg := fromBE 8 bs } }
  | .ccmcfg => { s with conf := { s.conf with ccmcfg := fromBE 8 bs } }
  | .pdutype => { s with par := { s.par with pdutype := fromBE 8 bs } }
  | .nid => { s with par := { s.par with nid := fromBE 8 bs } }
  | .ctlttl => { s with par := { s.par with ctlttl := fromBE 8 bs } }
  | .nseq => { s with par := { s.par with nseq := fromBE 24 bs } }
  | .src => { s with par := { s.par with src := fromBE 16 bs } }
  | .dst => { s with par := { s.par with dst := fromBE 16 bs } }
  | .ivindex => { s with par := { s.par with ivindex := fromBE 32 bs } }
  | .tseq => { s with par := { s.par with tseq := fromBE 24 bs } }
  | .tctrl => { s with par := { s.par with tctrl := fromBE 8 bs } }
  | .copc => { s with par := { s.par with copc := fromBE 8 bs } }
  | .sego => { s with par := { s.par with sego := fromBE 8 bs } }
  | .txseg => { s with par := { s.par with txseg := fromBE 8 bs } }
  | .lastseqauth => { s with ctx := { s.ctx with lastseqauth := fromBE 24 bs } }
  | .lsav => { s with ctx := { s.ctx with lsav := fromBE 8 bs } }
  | .alen => { s with len := { s.len with alen := fromBE 16 bs } }
  | .ulen => { s with len := { s.len with ulen := fromBE 16 bs } }
  | .llen => { s with len := { s.len with llen := fromBE 8 bs } }
  | .nlen => { s with len := { s.len with nlen := fromBE 8 bs } }
  | .kenc => { s with keys := { s.keys with kenc := fromBE 128 bs } }
  | .kpriv => { s with keys := { s.keys with kpriv := fromBE 128 bs } }
  | .ktrans => { s with keys := { s.keys with ktrans := fromBE 128 bs } }
  | .nonce => { s with nonce := fromBE 104 bs }
  | .pecb => { s with pecb := fromBE 48 bs }
  | _ => s

/-- `MemRead(addr, 1)` (R72): a write-only register and a reserved address read 0x00, reserved bits read 0. -/
def State.windowRead (s : State) (addr : Nat) : Byte :=
  match locate addr with
  | none => 0x00
  | some (r, j) =>
    if r.access = .writeOnly then 0x00
    else if r.isBuffer then s.mem.read addr
    else (s.regBytes r).getD j 0x00 &&& r.mask j

/-- `MemWrite(addr, 1, v)` at an offset other than CMD's (R73): reserved addresses and read-only registers ignore it, reserved bits are
dropped, the register's other bytes are kept. At CMD it stores nothing (R24). -/
def State.windowWrite (s : State) (addr : Nat) (v : Byte) : State :=
  match locate addr with
  | none => s
  | some (r, j) =>
    if r.access = .readOnly then s
    else if r.isBuffer then { s with mem := s.mem.write addr v }
    else s.setRegBytes r ((s.regBytes r).set j (v &&& r.mask j))

/-- `MemRead` of `n` bytes from an offset up, one access after another. -/
def State.windowBytes (s : State) (addr n : Nat) : List Byte := (List.range n).map fun j => s.windowRead (addr + j)

/-- `MemWrite` of bytes at consecutive offsets from `addr` up, one access after another (R71, R77). -/
def State.windowWrites (s : State) (addr : Nat) (bs : List Byte) : State :=
  match bs with
  | [] => s
  | b :: rest => (s.windowWrite addr b).windowWrites (addr + 1) rest

/-- The host's `rd` of a register: all its bytes, most significant first (30_encoding.md R96). -/
def State.rd (s : State) (r : Reg) : List Byte := s.windowBytes r.base r.size

end Sys2Proof.Machine
end

