-- ==== Sys2Proof/Machine/Reset.lean ====
section
/-! DEFINITION. The reset input (70_reset_and_hazards.md R290 to R292). -/

namespace Sys2Proof.Machine

/-- `n` bytes of unspecified content from an offset up. -/
def contentBytes (content : Nat → Byte) (addr n : Nat) : List Byte := (List.range n).map fun j => content (addr + j)

/-- The four buffers filled with unspecified content. -/
def contentMemory (content : Nat → Byte) : Memory :=
  (((Memory.writeRange [] lbufBase (contentBytes content lbufBase 16)).writeRange nbufBase (contentBytes content nbufBase 34)).writeRange
    abufBase (contentBytes content abufBase 380)).writeRange ubufBase (contentBytes content ubufBase 384)

/-- The state after reset, its unspecified registers and buffers an argument of the initial state (R290, R292): `content` gives the byte
at a window offset, and from 0x800 and 0x980 up those of the hidden SEGBUF and SEGLEN. -/
def State.resetWith (content : Nat → Byte) (port : HostPort) : State :=
  { State.reset with
    ctx := { State.reset.ctx with
      segbuf := Memory.writeRange [] 0 (contentBytes content 0x800 384)
      seglen := Vector.ofFn fun i => (content (0x980 + i.val)).setWidth 4 }
    keys := ⟨fromBE 128 (contentBytes content 0x040 16), fromBE 128 (contentBytes content 0x050 16),
      fromBE 128 (contentBytes content 0x060 16)⟩
    nonce := fromBE 104 (contentBytes content 0x070 13)
    pecb := fromBE 48 (contentBytes content 0x080 6)
    ackbuf := fromBE 48 (contentBytes content 0x088 6)
    mem := contentMemory content
    port := port }

/-- The reset input served: the unspecified contents are free values (log 4); the host keeps its queue and what it has read. -/
def State.resetInput (s : State) : State :=
  State.resetWith (Config.unspecified s.port.resets) { s.port with resets := s.port.resets + 1 }

end Sys2Proof.Machine
end

