-- ==== Sys2Proof/Machine/Port.lean ====
section
/-! DEFINITION. How the engine serves the host's inputs, one at a time (20_memory.md R80): fetching the command byte from a write of CMD,
reads, writes, reset. -/

namespace Sys2Proof.Machine

/-- The command byte an input issues: the value written to CMD, offset 0x000 (R24, R76); none for any other input. -/
def HostInput.commandByte? (i : HostInput) : Option Byte :=
  match i with
  | .write addr v => if addr = Reg.cmd.base then some v else none
  | _ => none

/-- A byte written to CMD: the command it stands for, or the illegal command (R24, R93, R94). -/
def State.runCommand (s : State) (op : Byte) : Result :=
  match decode op with
  | .ok i => exec i s
  | .error _ => .next s.illegalCommand

/-- A host read: the byte is returned to the host and no state of the engine changes (R72). -/
def State.serveRead (s : State) (addr : Nat) : State :=
  { s with port := { s.port with returned := s.port.returned ++ [s.windowRead addr] } }

/-- One input served (R80). An access outside the window never reaches the engine (R74, log 5). -/
def State.serve (s : State) (i : HostInput) : Result :=
  match i with
  | .read addr => if inWindow addr then .next (s.serveRead addr) else .fault (.outsideWindow addr)
  | .write addr v =>
    match i.commandByte? with
    | some op => s.runCommand op
    | none => if inWindow addr then .next (s.windowWrite addr v) else .fault (.outsideWindow addr)
  | .reset => .next s.resetInput

/-- The next input taken from the host's queue and served; with none the engine does nothing (R20, R276). -/
def State.serveNext (s : State) : Result :=
  match s.port.pending with
  | [] => .next s
  | i :: rest => { s with port := { s.port with pending := rest } }.serve i

/-- A command issued by the host before everything it has queued. -/
def State.issue (s : State) (op : Byte) : State :=
  { s with port := { s.port with pending := .write Reg.cmd.base op :: s.port.pending } }

end Sys2Proof.Machine
end

