-- ==== Sys2Proof/Machine/Step.lean ====
section
/-! DEFINITION. The step: one host input served (20_memory.md R80). -/

namespace Sys2Proof.Machine

/-- One step (log 1). -/
def step (s : State) : Host.Outcome State Fault Refusal := s.serveNext

/-- The state in which the very next step runs the instruction whose bits are `w`: the host writes that byte to CMD first (R24, log 1). -/
def State.withFetchWord (s : State) (nbits w : Nat) : State := s.issue (BitVec.ofNat 8 (w % 2 ^ nbits))

end Sys2Proof.Machine
end

