-- ==== Sys2Proof/Machine/Script.lean ====
section
/-! DEFINITION. The host-script notation as lists of host inputs (30_encoding.md R96, R97). -/

namespace Sys2Proof.Machine

/-- Bytes written to consecutive offsets, in ascending order. -/
def writeBytes (addr : Nat) (bs : List Byte) : List HostInput :=
  match bs with
  | [] => []
  | b :: rest => .write addr b :: writeBytes (addr + 1) rest

/-- `wr REG, v` (R96): each byte of the register, most significant first. -/
def scriptWr (r : Reg) (v : Nat) : List HostInput := writeBytes r.base (beBytes r.size (BitVec.ofNat (8 * r.size) v))

/-- `rd REG` (R96). -/
def scriptRd (r : Reg) : List HostInput := (List.range r.size).map fun j => .read (r.base + j)

/-- `cmd MNEMONIC` (R96). -/
def scriptCmd (i : Instr) : List HostInput := [.write Reg.cmd.base (encode i)]

/-- The length register of a buffer (R52, R97). -/
def Reg.lengthReg : Reg → Option Reg
  | .abuf => some .alen
  | .ubuf => some .ulen
  | .lbuf => some .llen
  | .nbuf => some .nlen
  | _ => none

/-- `load BUF, b0 ... b(n-1)` (R97): the bytes, then the length register. -/
def scriptLoad (buf : Reg) (bs : List Byte) : List HostInput :=
  writeBytes buf.base bs ++ (match buf.lengthReg with | some l => scriptWr l bs.length | none => [])

/-- `key K, b0 ... b15` and `put R, b0 ... b(n-1)` (R97): the byte writes, no length register. -/
def scriptPut (r : Reg) (bs : List Byte) : List HostInput := writeBytes r.base bs

/-- `dump BUF` (R97): the length register, then that many bytes of the buffer; the length is the one the state holds when the script is made. -/
def scriptDump (s : State) (buf : Reg) : List HostInput :=
  (match buf.lengthReg with | some l => scriptRd l ++ (List.range (fromBE 64 (s.rd l)).toNat).map fun j => .read (buf.base + j) | none => [])

/-- `mov UBUF, ACKBUF` (R97): six reads, then `load UBUF` with the bytes read, those the state holds when the script is made. -/
def scriptMovAck (s : State) : List HostInput := scriptRd .ackbuf ++ scriptLoad .ubuf (s.rd .ackbuf)

/-- The host issues a script after all it has queued. -/
def State.enqueue (s : State) (script : List HostInput) : State :=
  { s with port := { s.port with pending := s.port.pending ++ script } }

end Sys2Proof.Machine
end

