-- ==== Sys2Proof/Machine/Timers.lean ====
section
/-! DEFINITION. The environment's timer service (60_exceptions.md R272; 44_reassembly.md R197; 10_state.md R26). It is no part of the
engine or of its step (00_scope.md R6, log 8): a firing reaches the engine as a command the host issues. -/

namespace Sys2Proof.Machine

/-- The two timers of R197. -/
inductive Timer where
  /-- The incomplete timer. -/
  | inc
  /-- The acknowledgement timer. -/
  | ack
  deriving DecidableEq, Repr

/-- The command by which the engine learns that a timer fired (R197, R206, R207). -/
def Timer.expiry (tm : Timer) : Instr :=
  match tm with
  | .inc => .tmrIncExp
  | .ack => .tmrAckExp

/-- The flag of RFLAGS in which the engine records that a timer is pending (R27). -/
def Timer.running (tm : Timer) : RFlag :=
  match tm with
  | .inc => .incRun
  | .ack => .ackRun

/-- The two optional deadlines, in milliseconds (R272). -/
structure TimerService where
  inc : Option Nat
  ack : Option Nat
  deriving DecidableEq, Repr

/-- The deadline of one timer; none while it is not pending. -/
def TimerService.deadline (ts : TimerService) (tm : Timer) : Option Nat :=
  match tm with
  | .inc => ts.inc
  | .ack => ts.ack

/-- One timer's deadline cleared. -/
def TimerService.clear (ts : TimerService) (tm : Timer) : TimerService :=
  match tm with
  | .inc => { ts with inc := none }
  | .ack => { ts with ack := none }

/-- One timer served: the start request first, the cancel second (R26). -/
def serveTimer (start cancel : Bool) (deadline : Nat) (pending : Option Nat) : Option Nat :=
  if cancel then none else if start then some deadline else pending

/-- The host serves the timer requests a command left in EVENTS at time `now` (R26, R197, R272). -/
def TimerService.serve (ts : TimerService) (now : Nat) (s : State) : TimerService where
  inc := serveTimer (Event.incStart.isIn s.events) (Event.incCancel.isIn s.events) (now + Config.incTimeoutMs) ts.inc
  ack := serveTimer (Event.ackStart.isIn s.events) (Event.ackCancel.isIn s.events) (now + s.parsed.acktmr.toNat) ts.ack

/-- A timer is due at time `now`: it is pending and its deadline has come. -/
def TimerService.due (ts : TimerService) (now : Nat) (tm : Timer) : Bool := (ts.deadline tm).any fun d => d ≤ now

/-- A timer fires at time `now`, if it is due: its deadline is cleared and the matching expiry command issued (R272), before all the host
has queued (log 8). -/
def TimerService.fire (ts : TimerService) (now : Nat) (tm : Timer) (s : State) : Option (TimerService × State) :=
  if ts.due now tm then some (ts.clear tm, s.issue (encode tm.expiry)) else none

/-- What issuing a command means for the service: an expiry command is the firing of its timer, which clears the deadline (R272); any other
command leaves the deadlines to `serve`. -/
def TimerService.firedBy (ts : TimerService) (i : Instr) : TimerService :=
  match i with
  | .tmrIncExp => ts.clear .inc
  | .tmrAckExp => ts.clear .ack
  | _ => ts

/-- The service and the engine agree on which timers are pending (R27, R271). -/
def TimerService.agrees (ts : TimerService) (s : State) : Prop := ∀ tm : Timer, (ts.deadline tm).isSome = s.ctx.flag tm.running

end Sys2Proof.Machine
end

