-- ==== Sys2Proof/Safety.lean ====
section
/-! DEFINITION. What the claims speak of: the classes of window addresses, what a command may write and answer, frames, the invariants of the
context and of the representation, and what a safe step and a disciplined host are. Each table is transcribed from the rule it names, not
computed from the machine. -/

namespace Sys2Proof

open Machine

/-- The registers and buffers each command's rule lists under "Writes", STATUS and EVENTS among them (R137, R138, R151 to R154, R158, R159,
R176, R191, R206, R207, R209, R211, R232, R234, R235, R238 to R241). -/
def Instr.writes : Instr → List Reg
  | .nonceNet | .nonceApp | .nonceDev | .nonceProxy => [.nonce, .events, .status]
  | .ccmEnc => [.ubuf, .ulen, .events, .status]
  | .ccmDec => [.abuf, .alen, .events, .status]
  | .utEnc => [.nonce, .ubuf, .ulen, .events, .status]
  | .utDec => [.nonce, .abuf, .alen, .events, .status]
  | .pecbGen => [.pecb, .events, .status]
  | .hdrObf => [.nbuf, .events, .status]
  | .hdrDeobf => [.ctlttl, .nseq, .src, .events, .status]
  | .netEnc | .proxyEnc => [.nonce, .pecb, .nbuf, .nlen, .events, .status]
  | .netDec | .proxyDec => [.pecb, .nonce, .pdutype, .ctlttl, .nseq, .src, .dst, .lbuf, .llen, .events, .status]
  | .ltFrame => [.lbuf, .llen, .txseg, .events, .status]
  | .ltParse => [.tctrl, .copc, .rxseg, .rxsego, .lastseqauth, .lsav, .rseqzero, .blockack, .segvalid, .rflags, .acktmr, .ackbuf, .ubuf,
      .ulen, .tseq, .events, .status]
  | .tmrIncExp => [.rflags, .segvalid, .events, .status]
  | .tmrAckExp => [.ackbuf, .rflags, .events, .status]
  | .rxReset => [.rflags, .segvalid, .blockack, .rseqzero, .events, .status]
  | .backMatch => [.rxackhdr, .rxblockack, .missing, .events, .status]

/-- The STATUS codes each command can write (60_exceptions.md R261, the column "Written by"). -/
def Instr.answers : Instr → List StatusCode
  | .nonceNet | .nonceApp | .nonceDev | .nonceProxy | .rxReset => [.ok]
  | .ccmEnc => [.ok, .errLen, .errField]
  | .ccmDec => [.ok, .errLen, .errAuth, .errField]
  | .utEnc | .pecbGen | .hdrObf | .hdrDeobf | .netEnc | .proxyEnc | .backMatch => [.ok, .errLen]
  | .utDec => [.ok, .errLen, .errAuth]
  | .netDec | .proxyDec => [.ok, .errLen, .errAuth, .errNid]
  | .ltFrame => [.ok, .errLen, .errField]
  | .ltParse => [.ok, .pending, .ignored, .errLen, .errMalformed, .errSeq]
  | .tmrIncExp | .tmrAckExp => [.ok, .ignored]

/-- The illegal opcodes, range by range (30_encoding.md R94). -/
def illegalOpcode (n : Nat) : Bool :=
  n ≤ 0x0F || (0x14 ≤ n && n ≤ 0x1F) || (0x22 ≤ n && n ≤ 0x27) || (0x2A ≤ n && n ≤ 0x2F) || (0x33 ≤ n && n ≤ 0x37) ||
    (0x3C ≤ n && n ≤ 0x3F) || (0x41 ≤ n && n ≤ 0x47) || (0x4C ≤ n && n ≤ 0x4F) || (0x51 ≤ n && n ≤ 0xFF)

end Sys2Proof

namespace Sys2Proof.Machine

/-! Classes of window addresses. -/

/-- The reserved addresses of 20_memory.md R75. -/
def reservedAddress (a : Nat) : Bool :=
  a = 0x01D || (0x026 ≤ a && a ≤ 0x027) || (0x07D ≤ a && a ≤ 0x07F) || (0x086 ≤ a && a ≤ 0x087) || (0x08E ≤ a && a ≤ 0x08F) ||
    (0x0C2 ≤ a && a ≤ 0x0FF) || (0x27C ≤ a && a ≤ 0x2FF) || (0x480 ≤ a && a ≤ 0x7FF)

/-- The addresses of the write-only registers CMD, KENC, KPRIV, KTRANS (R72; 10_state.md R23). -/
def writeOnlyAddress (a : Nat) : Bool := a = 0x000 || (0x040 ≤ a && a ≤ 0x06F)

/-- The addresses of the read-only registers of R73 (10_state.md R23). -/
def readOnlyAddress (a : Nat) : Bool :=
  (0x001 ≤ a && a ≤ 0x003) || (0x01B ≤ a && a ≤ 0x01C) || (0x01E ≤ a && a ≤ 0x01F) || (0x024 ≤ a && a ≤ 0x025) ||
    (0x028 ≤ a && a ≤ 0x039) || (0x088 ≤ a && a ≤ 0x08D)

/-- The bits a write to a read-write address keeps: those its register's rule does not call reserved (10_state.md R28, R29, R31, R39, R40,
R41, R45). -/
def writableBits (a : Nat) : Byte :=
  if a = 0x004 then 0x01 else if a = 0x005 then 0x07 else if a = 0x007 then 0x7F else if a = 0x018 then 0x7F
  else if a = 0x019 then 0x1F else if a = 0x01A then 0x9F else if a = 0x023 then 0x01 else 0xFF

/-- The readable addresses whose reset contents the spec leaves unspecified: NONCE, PECB, ACKBUF and the four buffers (R290). -/
def unspecifiedAddress (a : Nat) : Bool :=
  (0x070 ≤ a && a ≤ 0x07C) || (0x080 ≤ a && a ≤ 0x085) || (0x088 ≤ a && a ≤ 0x08D) || (0x090 ≤ a && a ≤ 0x09F) ||
    (0x0A0 ≤ a && a ≤ 0x0C1) || (0x100 ≤ a && a ≤ 0x27B) || (0x300 ≤ a && a ≤ 0x47F)

/-! Frames. -/

/-- `t` differs from `s` at most in STATUS, EVENTS, the registers listed, and the bytes of memory from `lo` to `lo + n - 1`; the hidden
store and the host's port are the same. -/
structure State.Frame (s t : State) (regs : List Reg) (lo n : Nat) : Prop where
  regs : ∀ r : Reg, r ∉ regs → r ≠ .status → r ≠ .events → r.isBuffer = false → t.regBytes r = s.regBytes r
  bytes : ∀ a, a < lo ∨ lo + n ≤ a → t.mem.read a = s.mem.read a
  hidden : t.ctx.segbuf = s.ctx.segbuf ∧ t.ctx.seglen = s.ctx.seglen
  port : t.port = s.port

/-- `t` is `s` after the whole queue was served and nothing written but the registers listed and `n` bytes of memory from `lo` up: STATUS and
EVENTS, and the bytes returned and resets served of the host's port, are as before too. -/
def State.ServedQueue (s t : State) (regs : List Reg) (lo n : Nat) : Prop :=
  t.status = s.status ∧ t.events = s.events ∧ t.port = { s.port with pending := [] } ∧ { s with port := t.port }.Frame t regs lo n

/-- The command ended with a code, no event, and nothing else written (R94, R262). -/
def State.FailedWith (s t : State) (code : Byte) : Prop := t.status = code ∧ t.events = 0x00 ∧ s.Frame t [] 0 0

/-- The events left are exactly those listed. -/
def State.eventsAre (t : State) (es : List Event) : Prop := ∀ e : Event, e.isIn t.events = es.contains e

/-! Byte-level readings of the rules used by several claims. -/

/-- The nonce bytes of R151: `[0x00, CTLTTL, NSEQ(3), SRC(2), 0, 0, IVINDEX(4)]`, as the host reads the registers. -/
def State.networkNonceBytes (s : State) : List Byte :=
  [0x00] ++ s.rd .ctlttl ++ s.rd .nseq ++ s.rd .src ++ [0x00, 0x00] ++ s.rd .ivindex

/-- The nonce bytes of R154: `[0x03, 0, NSEQ(3), SRC(2), 0, 0, IVINDEX(4)]`. -/
def State.proxyNonceBytes (s : State) : List Byte :=
  [0x03, 0x00] ++ s.rd .nseq ++ s.rd .src ++ [0x00, 0x00] ++ s.rd .ivindex

/-- The nonce bytes of R152, R153 under a type and an ASZMIC flag: `[type, flag << 7, TSEQ(3), SRC(2), DST(2), IVINDEX(4)]`. -/
def State.transportNonceBytes (s : State) (type : Byte) (aszmic : Bool) : List Byte :=
  [type, if aszmic then 0x80 else 0x00] ++ s.rd .tseq ++ s.rd .src ++ s.rd .dst ++ s.rd .ivindex

/-- The PECB bytes of R231 for a privacy random of seven bytes. -/
def State.pecbBytes (s : State) (random : List Byte) : List Byte :=
  (beBytes 16 (aes s.keys.kpriv (fromBE 128 (List.replicate 5 0x00 ++ s.rd .ivindex ++ random)))).take 6

/-- The header bytes of R233 as the host reads the registers. -/
def State.headerBytes (s : State) : List Byte := s.rd .ctlttl ++ s.rd .nseq ++ s.rd .src

/-- `t` holds the frame that R236 to R239 build from `s` under a nonce: NONCE, PECB, NBUF and NLEN, everything else as before. -/
def State.FrameBuilt (s t : State) (nonceBytes : List Byte) : Prop :=
  let m := if s.par.ctlttl.getLsbD 7 then 8 else 4
  let enc := ccmEncrypt s.keys.kenc (fromBE 104 nonceBytes) m (s.rd .dst ++ s.lbuf)
  t.status = 0x00 ∧ t.events = 0x00 ∧ t.rd .nonce = nonceBytes ∧ t.rd .pecb = s.pecbBytes (enc.take 7) ∧
    t.nbuf = [s.par.pdutype, (if s.par.ivindex.getLsbD 0 then 0x80 else 0x00) ||| (s.par.nid &&& 0x7F)] ++
      xorBytes s.headerBytes (s.pecbBytes (enc.take 7)) ++ enc ∧
    t.len.nlen.toNat = 10 + s.len.llen.toNat + m ∧
    s.Frame t [.nonce, .pecb, .nlen] 0x0A0 (10 + s.len.llen.toNat + m)

/-- What NBUF de-obfuscates to under the PECB its own privacy random gives (R240): the candidate header, six bytes. -/
def State.candidateHeader (s : State) : List Byte :=
  xorBytes (s.windowBytes 0x0A2 6) (s.pecbBytes (s.windowBytes 0x0A8 7))

/-- The NetMIC length of the candidate header (R240). -/
def State.candidateMic (s : State) : Nat := if (s.candidateHeader.getD 0 0x00).getLsbD 7 then 8 else 4

/-- The checks of R240 before the cipher: frame length, NID, payload length. -/
def State.frameAdmissible (s : State) : Prop :=
  (15 ≤ s.len.nlen.toNat ∧ s.len.nlen.toNat ≤ 34) ∧ s.mem.read 0x0A1 &&& 0x7F = s.par.nid &&& 0x7F ∧
    3 + s.candidateMic ≤ s.len.nlen.toNat - 8 ∧ s.len.nlen.toNat - 8 ≤ 18 + s.candidateMic

/-- `t` is what R240 and R241 leave of `s` when the frame opens to `plain` under a nonce. -/
def State.FrameOpened (s t : State) (nonceBytes plain : List Byte) : Prop :=
  let k := s.len.nlen.toNat - 8 - s.candidateMic - 2
  t.status = 0x00 ∧ t.events = 0x00 ∧ t.rd .pecb = s.pecbBytes (s.windowBytes 0x0A8 7) ∧ t.rd .nonce = nonceBytes ∧
    t.rd .pdutype = [s.mem.read 0x0A0] ∧ t.headerBytes = s.candidateHeader ∧ t.rd .dst = plain.take 2 ∧ t.lbuf = plain.drop 2 ∧
    t.len.llen.toNat = k ∧ s.Frame t [.pecb, .nonce, .pdutype, .ctlttl, .nseq, .src, .dst, .llen] 0x090 k

/-- The nonce bytes of a candidate header under the network layout (R240). -/
def State.candidateNetworkNonce (s : State) : List Byte := [0x00] ++ s.candidateHeader ++ [0x00, 0x00] ++ s.rd .ivindex

/-- The nonce bytes of a candidate header under the proxy layout (R241). -/
def State.candidateProxyNonce (s : State) : List Byte :=
  [0x03, 0x00] ++ s.candidateHeader.drop 1 ++ [0x00, 0x00] ++ s.rd .ivindex

/-- What a decryption command does under a nonce, after the checks of R240 passed. -/
def State.OpensUnder (s : State) (i : Instr) (nonceBytes : List Byte) : Prop :=
  match ccmDecrypt s.keys.kenc (fromBE 104 nonceBytes) s.candidateMic (s.mem.readRange 0x0A8 (s.len.nlen.toNat - 8)) with
  | some plain => ∃ t, exec i s = .next t ∧ s.FrameOpened t nonceBytes plain
  | none => ∃ t, exec i s = .next t ∧ t.status = 0x82 ∧ t.events = 0x00 ∧ t.rd .pecb = s.pecbBytes (s.windowBytes 0x0A8 7) ∧
      t.rd .nonce = nonceBytes ∧ s.Frame t [.pecb, .nonce] 0 0

/-- LBUF holds a segment that passes the format checks of 44_reassembly.md R191; `g` its fields, `t` its reconciled sequence number. -/
structure State.Receives (s : State) (g : Segment) (t : Seq) : Prop where
  length : 5 ≤ s.len.llen.toNat ∧ s.len.llen.toNat ≤ 4 + segmentSize s.ctl
  segmented : (s.mem.read 0x090).getLsbD 7 = true
  fields : g = segmentFields s.lbuf
  ordered : g.segO.toNat ≤ g.segN.toNat
  reconciled : reconcile s.par.nseq g.seqZero = some t

/-- The header outputs of R191: COPC or TCTRL, RXSEG, RXSEGO. -/
def State.HeaderNoted (s t : State) (g : Segment) : Prop :=
  (if s.ctl then t.par.copc = g.h0.setWidth 8 ∧ t.par.tctrl = s.par.tctrl &&& 0x7F
    else t.par.copc = s.par.copc ∧ t.par.tctrl = (if g.szmic then 0x80 else 0x00) ||| g.h0.setWidth 8) ∧
    t.parsed.rxseg = 0x80 ||| g.segN.setWidth 8 ∧ t.parsed.rxsego = g.segO.setWidth 8

/-- The registers an accepted segment may write besides STATUS and EVENTS when no PDU is delivered. -/
def segmentWrites : List Reg :=
  [.tctrl, .copc, .rxseg, .rxsego, .lastseqauth, .lsav, .rseqzero, .blockack, .segvalid, .rflags, .acktmr]

/-- Everything outside the listed registers and the bytes of memory from `lo` on is as before; the hidden store may differ. -/
structure State.OuterFrame (s t : State) (regs : List Reg) (lo n : Nat) : Prop where
  regs : ∀ r : Reg, r ∉ regs → r ≠ .status → r ≠ .events → r.isBuffer = false → t.regBytes r = s.regBytes r
  bytes : ∀ a, a < lo ∨ lo + n ≤ a → t.mem.read a = s.mem.read a
  port : t.port = s.port

/-- Segment `g` stands in its slot, and the length and the twelve bytes of every other slot are as before (R201). -/
def State.SlotStored (s t : State) (g : Segment) : Prop :=
  t.ctx.slot g.segO.toNat = g.payload ∧ ∀ i < 32, i ≠ g.segO.toNat →
    t.ctx.seglen.getD i 0 = s.ctx.seglen.getD i 0 ∧ ∀ j < 12, t.ctx.segbuf.read (12 * i + j) = s.ctx.segbuf.read (12 * i + j)

/-- The bit of one segment in BLOCKACK and SEGVALID (R47, R48). -/
def segmentBit (o : BitVec 5) : BitVec 32 := BitVec.ofNat 32 (2 ^ o.toNat)

/-- The block-ack payload bytes of R208. -/
def ackBytes (obo : Bool) (seqZero : Nat) (mask : BitVec 32) : List Byte :=
  [BitVec.ofNat 8 ((if obo then 128 else 0) + seqZero % 8192 / 64), BitVec.ofNat 8 (seqZero % 64 * 4)] ++ beBytes 4 mask

/-- The duration of R205. -/
def State.ackDuration (s : State) : Nat := 150 + 50 * (s.par.ctlttl.toNat % 128)

/-- LBUF after `LT_FRAME` with SEGO = `i`; empty where the command does not end with ST_OK. -/
def State.framedAt (s : State) (i : Nat) : List Byte :=
  match exec .ltFrame (s.setPar { s.par with sego := BitVec.ofNat 8 i }) with
  | .next t => if t.status = 0x00 then t.lbuf else []
  | _ => []

/-! Invariants. -/

/-- The invariant of 10_state.md R63 on the reassembly context. -/
structure RxContext.Consistent (c : RxContext) : Prop where
  storedIsAcked : c.segvalid &&& ~~~c.blockack = 0
  collecting : c.flag .incRun = true → c.lastValid = true ∧ c.segvalid = c.blockack ∧ c.segvalid ≠ 0
  idle : c.flag .incRun = false → c.segvalid = 0
  acking : c.flag .ackSent = true ∨ c.flag .ackRun = true → c.lastValid = true

/-- The representation: STATUS is one of the codes of R261, reserved bits are 0 (R73), both memories are canonical and list bytes that exist
alone, and a stored segment has 1 to 12 bytes (R61). -/
structure State.Represented (s : State) : Prop where
  status : s.status ∈ StatusCode.all.map StatusCode.toByte
  reserved : ∀ r : Reg, r.isBuffer = false → ∀ j < r.size, (s.regBytes r).getD j 0x00 &&& ~~~r.mask j = 0x00
  memory : s.mem.wf ∧ s.ctx.segbuf.wf
  cells : (∀ c ∈ s.mem, ∃ r : Reg, r.isBuffer = true ∧ r.base ≤ c.1 ∧ c.1 < r.base + r.size) ∧ ∀ c ∈ s.ctx.segbuf, c.1 < 384
  slots : ∀ i < 32, s.ctx.segvalid.getLsbD i = true → 1 ≤ (s.ctx.seglen.getD i 0).toNat ∧ (s.ctx.seglen.getD i 0).toNat ≤ 12

/-- The host's duty of 70_reset_and_hazards.md R303: LASTSEQAUTH and LSAV are written only while RFLAGS = 0. -/
def HostInput.disciplined (i : HostInput) (s : State) : Prop :=
  ∀ a v, i = .write a v → 0x020 ≤ a → a ≤ 0x023 → s.ctx.rflags = 0x00

/-- The host's next input keeps the duty of R303. -/
def State.hostDisciplined (s : State) : Prop := ∀ i rest, s.port.pending = i :: rest → i.disciplined s

/-- A safe step: it answers a next state. -/
def State.stepsSafely (s : State) : Prop := ∃ t, step s = .next t

end Sys2Proof.Machine
end

