-- ==== Sys2Proof/Certificates/Slice0/Obligations.lean ====
section
/-! DEFINITION. The statements for the provers. Each docstring names the rule of spec/ it formalises, or the choice of the model it states. -/

open Sys2Proof Sys2Proof.Machine

/-! Encoding and the step. -/

/-- R90, R93: decoding and encoding agree in both directions, on all 21 commands and all 256 bytes. -/
def Obligations.DecodeAndEncodeAgree : Prop :=
  (∀ i : Instr, decode (encode i) = .ok i) ∧ ∀ (b : Byte) (i : Instr), decode b = .ok i → encode i = b

/-- R92, R93, R94: a byte decodes exactly when its group lists its function, and exactly when it is in none of the ranges of R94. -/
def Obligations.DecodedBytesAreThoseOfTheGroups : Prop :=
  ∀ b : Byte, ((∃ i, decode b = .ok i) ↔ commandByte b = true) ∧ ((∃ i, decode b = .ok i) ↔ illegalOpcode b.toNat = false)

/-- R93: opcodes of one command per group, written out from the map. -/
def Obligations.SampleOpcodesDecode : Prop :=
  decode 0x13 = .ok .nonceProxy ∧ decode 0x21 = .ok .ccmDec ∧ decode 0x28 = .ok .utEnc ∧ decode 0x32 = .ok .hdrDeobf ∧
    decode 0x3A = .ok .proxyEnc ∧ decode 0x40 = .ok .ltFrame ∧ decode 0x4B = .ok .rxReset ∧ decode 0x50 = .ok .backMatch

/-- R24, R80 and log 1 (the queue is the model's): a step at a write of a command's opcode to CMD is that command, the access taken from the host's queue. -/
def Obligations.StepRunsTheDecodedCommand : Prop :=
  ∀ (s : State) (b : Byte) (i : Instr) (rest : List HostInput), s.port.pending = .write 0x000 b :: rest → decode b = .ok i →
    step s = exec i { s with port := { s.port with pending := rest } }

/-- The content of R94 over the model's queue of host inputs (the model's choice, log 1): writing an illegal opcode to CMD clears EVENTS, writes ERR_CMD to STATUS and changes nothing else. -/
def Obligations.IllegalOpcodeChangesStatusAndEventsOnly : Prop :=
  ∀ (s : State) (b : Byte) (rest : List HostInput), s.port.pending = .write 0x000 b :: rest → illegalOpcode b.toNat = true →
    step s = .next { s with status := 0x80, events := 0x00, port := { s.port with pending := rest } }

/-- R20, R72, R73, R74, R80 and log 1, 5, 7 (the queue, the list of returned bytes and the fault are the model's choices): what a step does
with every input that is no command. -/
def Obligations.StepServesAccessesInOrder : Prop :=
  (∀ s : State, s.port.pending = [] → step s = .next s) ∧
  (∀ (s : State) (a : Nat) (rest : List HostInput), s.port.pending = .read a :: rest → a < 0x800 →
    step s = .next { s with port := { s.port with pending := rest, returned := s.port.returned ++ [s.windowRead a] } }) ∧
  (∀ (s : State) (a : Nat) (v : Byte) (rest : List HostInput), s.port.pending = .write a v :: rest → a ≠ 0 → a < 0x800 →
    step s = .next ({ s with port := { s.port with pending := rest } }.windowWrite a v)) ∧
  (∀ (s : State) (a : Nat) (v : Byte) (rest : List HostInput),
    s.port.pending = .read a :: rest ∨ s.port.pending = .write a v :: rest → 0x800 ≤ a → step s = .fault (.outsideWindow a)) ∧
  ∀ (s : State) (rest : List HostInput), s.port.pending = .reset :: rest →
    step s = .next (State.resetWith (Config.unspecified s.port.resets)
      { pending := rest, returned := s.port.returned, resets := s.port.resets + 1 })

/-- R74, R260: every step answers a next state unless the host's next access lies outside the window. -/
def Obligations.StepIsSafeInsideTheWindow : Prop :=
  ∀ s : State, (∀ (a : Nat) (v : Byte) (rest : List HostInput),
    s.port.pending = .read a :: rest ∨ s.port.pending = .write a v :: rest → a < 0x800) → s.stepsSafely

/-! The window. -/

/-- R75: a reserved address reads 0x00 and ignores writes, in every state. -/
def Obligations.ReservedAddressesReadZeroAndIgnoreWrites : Prop :=
  ∀ (s : State) (a : Nat) (v : Byte), reservedAddress a = true → s.windowRead a = 0x00 ∧ s.windowWrite a v = s

/-- R72, R73: a write-only register reads 0x00, and a write to a read-only register changes nothing. -/
def Obligations.WriteOnlyReadsZeroAndReadOnlyIgnoresWrites : Prop :=
  ∀ (s : State) (a : Nat) (v : Byte),
    (writeOnlyAddress a = true → s.windowRead a = 0x00) ∧ (readOnlyAddress a = true → s.windowWrite a v = s)

/-- R73: an address inside a register or buffer with read and write access reads what was written to it, reserved bits dropped; in a key
register byte `j` at base + `j` takes the byte (R53). -/
def Obligations.WrittenByteIsHeld : Prop :=
  (∀ (s : State) (a : Nat) (v : Byte), a < 0x800 → reservedAddress a = false → readOnlyAddress a = false → writeOnlyAddress a = false →
    (s.windowWrite a v).windowRead a = v &&& writableBits a) ∧
  ∀ (s : State) (j : Nat) (v : Byte), j < 16 →
    beBytes 16 (s.windowWrite (0x040 + j) v).keys.kenc = (beBytes 16 s.keys.kenc).set j v ∧
    beBytes 16 (s.windowWrite (0x050 + j) v).keys.kpriv = (beBytes 16 s.keys.kpriv).set j v ∧
    beBytes 16 (s.windowWrite (0x060 + j) v).keys.ktrans = (beBytes 16 s.keys.ktrans).set j v

/-- R73, R76: a write to an address other than CMD's changes what no other address reads, nor the hidden store, nor the host's port; a key
changes by a write at its own addresses alone (R53). -/
def Obligations.WriteChangesNoOtherAddress : Prop :=
  ∀ (s : State) (a : Nat) (v : Byte),
    (∀ b, b ≠ a → (s.windowWrite a v).windowRead b = s.windowRead b) ∧ (s.windowWrite a v).port = s.port ∧
      (s.windowWrite a v).ctx.segbuf = s.ctx.segbuf ∧ (s.windowWrite a v).ctx.seglen = s.ctx.seglen ∧
      (a < 0x040 ∨ 0x050 ≤ a → (s.windowWrite a v).keys.kenc = s.keys.kenc) ∧
      (a < 0x050 ∨ 0x060 ≤ a → (s.windowWrite a v).keys.kpriv = s.keys.kpriv) ∧
      (a < 0x060 ∨ 0x070 ≤ a → (s.windowWrite a v).keys.ktrans = s.keys.ktrans)

/-- R77: each multi-byte register that the host may write (NSEQ, SRC, DST, IVINDEX, TSEQ, LASTSEQAUTH, ALEN, ULEN) takes its value most
significant byte first, and reads back in that order. -/
def Obligations.MultiByteRegistersAreBigEndian : Prop :=
  ∀ (s : State) (b0 b1 b2 b3 : Byte),
    let two := b0.toNat * 2 ^ 8 + b1.toNat
    let three := b0.toNat * 2 ^ 16 + b1.toNat * 2 ^ 8 + b2.toNat
    let four := b0.toNat * 2 ^ 24 + b1.toNat * 2 ^ 16 + b2.toNat * 2 ^ 8 + b3.toNat
    (let t := s.windowWrites 0x009 [b0, b1, b2]; t.par.nseq.toNat = three ∧ t.windowBytes 0x009 3 = [b0, b1, b2]) ∧
    (let t := s.windowWrites 0x00C [b0, b1]; t.par.src.toNat = two ∧ t.windowBytes 0x00C 2 = [b0, b1]) ∧
    (let t := s.windowWrites 0x00E [b0, b1]; t.par.dst.toNat = two ∧ t.windowBytes 0x00E 2 = [b0, b1]) ∧
    (let t := s.windowWrites 0x010 [b0, b1, b2, b3]; t.par.ivindex.toNat = four ∧ t.windowBytes 0x010 4 = [b0, b1, b2, b3]) ∧
    (let t := s.windowWrites 0x014 [b0, b1, b2]; t.par.tseq.toNat = three ∧ t.windowBytes 0x014 3 = [b0, b1, b2]) ∧
    (let t := s.windowWrites 0x020 [b0, b1, b2]; t.ctx.lastseqauth.toNat = three ∧ t.windowBytes 0x020 3 = [b0, b1, b2]) ∧
    (let t := s.windowWrites 0x03A [b0, b1]; t.len.alen.toNat = two ∧ t.windowBytes 0x03A 2 = [b0, b1]) ∧
    (let t := s.windowWrites 0x03C [b0, b1]; t.len.ulen.toNat = two ∧ t.windowBytes 0x03C 2 = [b0, b1])

/-- R97 and log 1 (the queue is the model's): the pseudo-instruction `load` of each of the four buffers leaves the bytes in the buffer and
their number in its length register, and nothing else changed. -/
def Obligations.LoadScriptFillsTheBuffer : Prop :=
  ∀ (s : State) (bs : List Byte),
    (bs.length ≤ 380 → s.port.pending = scriptLoad .abuf bs → ∃ t, Host.Core.run core (bs.length + 2) s = .next t ∧
      t.abuf = bs ∧ t.len.alen.toNat = bs.length ∧ s.ServedQueue t [.alen] 0x100 bs.length) ∧
    (bs.length ≤ 384 → s.port.pending = scriptLoad .ubuf bs → ∃ t, Host.Core.run core (bs.length + 2) s = .next t ∧
      t.ubuf = bs ∧ t.len.ulen.toNat = bs.length ∧ s.ServedQueue t [.ulen] 0x300 bs.length) ∧
    (bs.length ≤ 16 → s.port.pending = scriptLoad .lbuf bs → ∃ t, Host.Core.run core (bs.length + 1) s = .next t ∧
      t.lbuf = bs ∧ t.len.llen.toNat = bs.length ∧ s.ServedQueue t [.llen] 0x090 bs.length) ∧
    (bs.length ≤ 34 → s.port.pending = scriptLoad .nbuf bs → ∃ t, Host.Core.run core (bs.length + 1) s = .next t ∧
      t.nbuf = bs ∧ t.len.nlen.toNat = bs.length ∧ s.ServedQueue t [.nlen] 0x0A0 bs.length)

/-! Reset. -/

/-- R290, R292: after reset every address reads 0x00 but those of the registers and buffers left unspecified, which read what the initial
state's argument gives them; a key register holds what it gives too. -/
def Obligations.ResetLeavesTheStatedValues : Prop :=
  ∀ (content : Nat → Byte) (port : HostPort),
    let s := State.resetWith content port
    (∀ a, a < 0x800 → s.windowRead a = if unspecifiedAddress a then content a else 0x00) ∧
      ∀ j < 16, s.keys.kenc.extractLsb' (8 * (15 - j)) 8 = content (0x040 + j) ∧
        s.keys.kpriv.extractLsb' (8 * (15 - j)) 8 = content (0x050 + j) ∧ s.keys.ktrans.extractLsb' (8 * (15 - j)) 8 = content (0x060 + j)

/-- The model's choice (log 2, 3): the machine's initial state is the reset of R290 with zero for everything unspecified, nothing issued. -/
def Obligations.InitialStateIsResetWithZeros : Prop :=
  core.reset = State.resetWith (fun _ => 0x00) { pending := [], returned := [], resets := 0 }

/-- R291: with all lengths 0 after reset every command that takes a buffer fails with ERR_LEN; the nonce commands and RX_RESET succeed, the
timer expiries are ignored. -/
def Obligations.CommandsRightAfterReset : Prop :=
  ∀ (content : Nat → Byte) (port : HostPort) (i : Instr), ∃ t, exec i (State.resetWith content port) = .next t ∧ t.status =
    (if i ∈ [Instr.nonceNet, .nonceApp, .nonceDev, .nonceProxy, .rxReset] then 0x00
      else if i ∈ [Instr.tmrIncExp, .tmrAckExp] then 0x02 else 0x81)

/-! Nonce mux. -/

/-- R151, R154: NONCE_NET and NONCE_PROXY build their 13 bytes from the registers and write NONCE alone. -/
def Obligations.NetworkAndProxyNonceLayouts : Prop :=
  ∀ s : State,
    (∃ t, exec .nonceNet s = .next t ∧ t.status = 0x00 ∧ t.events = 0x00 ∧ t.rd .nonce = s.networkNonceBytes ∧ s.Frame t [.nonce] 0 0) ∧
    ∃ t, exec .nonceProxy s = .next t ∧ t.status = 0x00 ∧ t.events = 0x00 ∧ t.rd .nonce = s.proxyNonceBytes ∧ s.Frame t [.nonce] 0 0

/-- R152, R153: NONCE_APP and NONCE_DEV build their 13 bytes from the registers, the SZMIC bit as it stands, and write NONCE alone. -/
def Obligations.ApplicationAndDeviceNonceLayouts : Prop :=
  ∀ s : State,
    (∃ t, exec .nonceApp s = .next t ∧ t.status = 0x00 ∧ t.events = 0x00 ∧
      t.rd .nonce = s.transportNonceBytes 0x01 (s.par.tctrl.getLsbD 7) ∧ s.Frame t [.nonce] 0 0) ∧
    ∃ t, exec .nonceDev s = .next t ∧ t.status = 0x00 ∧ t.events = 0x00 ∧
      t.rd .nonce = s.transportNonceBytes 0x02 (s.par.tctrl.getLsbD 7) ∧ s.Frame t [.nonce] 0 0

/-! AES and CCM. -/

/-- R111, R113, R119: the products by 0x02 and 0x03, the SBOX as the affine map of the inverse (0 mapped to 0), and the check vectors. -/
def Obligations.AesTablesAndVectors : Prop :=
  (∀ a : Byte, gfMul a 0x02 = xtime a ∧ gfMul a 0x03 = xtime a ^^^ a) ∧ gfMul 0x57 0x83 = 0xC1 ∧ gfMul 0x57 0x13 = 0xFE ∧
  (∀ a : Byte, ∃ v : Byte, (if a = 0 then v = 0 else gfMul a v = 0x01) ∧
    sbox a = v ^^^ v.rotateRight 4 ^^^ v.rotateRight 5 ^^^ v.rotateRight 6 ^^^ v.rotateRight 7 ^^^ 0x63) ∧
  aes 0x000102030405060708090a0b0c0d0e0f 0x00112233445566778899aabbccddeeff = 0x69c4e0d86a7b0430d8cdb78070b4c55a ∧
  aes 0x2b7e151628aed2a6abf7158809cf4f3c 0x3243f6a8885a308d313198a2e0370734 = 0x3925841d02dc09fbdc118597196a0b32 ∧
  aes 0 0 = 0x66e94bd4ef8a2c3b884cfa59ca342b2e

/-- The spec's own inference R139: round trip, length, and a ciphertext part that does not depend on the MIC length. -/
def Obligations.CcmRoundTripAndLengths : Prop :=
  ∀ (k : Key) (nonce : Nonce) (p : List Byte), 1 ≤ p.length →
    (∀ m, m = 4 ∨ m = 8 → p.length + m ≤ 384 →
      ccmDecrypt k nonce m (ccmEncrypt k nonce m p) = some p ∧ (ccmEncrypt k nonce m p).length = p.length + m) ∧
    (ccmEncrypt k nonce 4 p).take p.length = (ccmEncrypt k nonce 8 p).take p.length

/-- R137: CCM_ENC, its checks in order, its result and its frame. -/
def Obligations.CcmEncEncryptsAbufIntoUbuf : Prop :=
  ∀ s : State,
    let n := s.len.alen.toNat
    let ksel := s.conf.ccmcfg.toNat % 4
    let m := if s.conf.ccmcfg.getLsbD 2 then 8 else 4
    let key := if ksel = 0 then s.keys.kenc else s.keys.ktrans
    (2 ≤ ksel → ∃ t, exec .ccmEnc s = .next t ∧ s.FailedWith t 0x84) ∧
    (ksel < 2 → n < 1 ∨ 380 < n ∨ 384 < n + m → ∃ t, exec .ccmEnc s = .next t ∧ s.FailedWith t 0x81) ∧
    (ksel < 2 → 1 ≤ n → n ≤ 380 → n + m ≤ 384 → ∃ t, exec .ccmEnc s = .next t ∧ t.status = 0x00 ∧ t.events = 0x00 ∧
      t.ubuf = ccmEncrypt key s.nonce m s.abuf ∧ t.len.ulen.toNat = n + m ∧ s.Frame t [.ulen] 0x300 (n + m))

/-- R138: CCM_DEC, its checks in order, its result and its frame; on ERR_AUTH nothing but STATUS and EVENTS is written. -/
def Obligations.CcmDecOpensUbufIntoAbuf : Prop :=
  ∀ s : State,
    let n := s.len.ulen.toNat
    let ksel := s.conf.ccmcfg.toNat % 4
    let m := if s.conf.ccmcfg.getLsbD 2 then 8 else 4
    let key := if ksel = 0 then s.keys.kenc else s.keys.ktrans
    (2 ≤ ksel → ∃ t, exec .ccmDec s = .next t ∧ s.FailedWith t 0x84) ∧
    (ksel < 2 → n < m + 1 ∨ 384 < n → ∃ t, exec .ccmDec s = .next t ∧ s.FailedWith t 0x81) ∧
    (ksel < 2 → m + 1 ≤ n → n ≤ 384 → ccmDecrypt key s.nonce m s.ubuf = none →
      ∃ t, exec .ccmDec s = .next t ∧ s.FailedWith t 0x82) ∧
    ∀ p, ksel < 2 → m + 1 ≤ n → n ≤ 384 → ccmDecrypt key s.nonce m s.ubuf = some p →
      ∃ t, exec .ccmDec s = .next t ∧ t.status = 0x00 ∧ t.events = 0x00 ∧ t.abuf = p ∧ t.len.alen.toNat = n - m ∧
        s.Frame t [.alen] 0x100 (n - m)

/-- Inferred from R137, R138 and the spec's own inference R139: after a CCM_ENC that succeeds, CCM_DEC succeeds and gives back ABUF and ALEN, whatever ABUF and ALEN became between. -/
def Obligations.CcmDecUndoesCcmEnc : Prop :=
  ∀ (s t : State) (m : Memory) (n : BitVec 16), exec .ccmEnc s = .next t → t.status = 0x00 →
    (∀ a, 0x300 ≤ a → m.read a = t.mem.read a) →
    ∃ u, exec .ccmDec { t with mem := m, len := { t.len with alen := n } } = .next u ∧ u.status = 0x00 ∧ u.abuf = s.abuf ∧
      u.len.alen = s.len.alen

/-! Upper transport. -/

/-- R157, R158: UT_ENC, the MIC length resolved with the segmentation, its checks, nonce, result and frame. -/
def Obligations.UtEncEncryptsAbufIntoUbuf : Prop :=
  ∀ s : State,
    let n := s.len.alen.toNat
    let long := s.par.tctrl.getLsbD 7 = true ∧ 12 < n + 8
    let m := if long then 8 else 4
    let type := if s.par.tctrl.getLsbD 6 then 0x01 else 0x02
    let nonce := s.transportNonceBytes type (decide long)
    (n < 1 ∨ 380 < n ∨ 384 < n + m → ∃ t, exec .utEnc s = .next t ∧ s.FailedWith t 0x81) ∧
    (1 ≤ n → n ≤ 380 → n + m ≤ 384 → ∃ t, exec .utEnc s = .next t ∧ t.status = 0x00 ∧ t.events = 0x00 ∧ t.rd .nonce = nonce ∧
      t.ubuf = ccmEncrypt s.keys.ktrans (fromBE 104 nonce) m s.abuf ∧ t.len.ulen.toNat = n + m ∧
      s.Frame t [.nonce, .ulen] 0x300 (n + m))

/-- R156, R159: UT_DEC, its checks, nonce, result and frame; on ERR_AUTH it has written NONCE alone. -/
def Obligations.UtDecOpensUbufIntoAbuf : Prop :=
  ∀ s : State,
    let n := s.len.ulen.toNat
    let m := if s.par.tctrl.getLsbD 7 then 8 else 4
    let type := if s.par.tctrl.getLsbD 6 then 0x01 else 0x02
    let nonce := s.transportNonceBytes type (s.par.tctrl.getLsbD 7)
    let opened := ccmDecrypt s.keys.ktrans (fromBE 104 nonce) m s.ubuf
    (n < m + 1 ∨ 384 < n → ∃ t, exec .utDec s = .next t ∧ s.FailedWith t 0x81) ∧
    (m + 1 ≤ n → n ≤ 384 → opened = none → ∃ t, exec .utDec s = .next t ∧ t.status = 0x82 ∧ t.events = 0x00 ∧ t.rd .nonce = nonce ∧
      s.Frame t [.nonce] 0 0) ∧
    ∀ p, m + 1 ≤ n → n ≤ 384 → opened = some p → ∃ t, exec .utDec s = .next t ∧ t.status = 0x00 ∧ t.events = 0x00 ∧
      t.rd .nonce = nonce ∧ t.abuf = p ∧ t.len.alen.toNat = n - m ∧ s.Frame t [.nonce, .alen] 0x100 (n - m)

/-- The spec's own inference R161: if UT_ENC succeeds and SZMIC is then set to the effective flag of R157, UT_DEC succeeds and restores ABUF and ALEN. -/
def Obligations.UtDecUndoesUtEnc : Prop :=
  ∀ s t : State, exec .utEnc s = .next t → t.status = 0x00 →
    let long := s.par.tctrl.getLsbD 7 && decide (12 < s.len.alen.toNat + 8)
    ∃ u, exec .utDec { t with par := { t.par with tctrl := setBit t.par.tctrl 7 long } } = .next u ∧ u.status = 0x00 ∧ u.abuf = s.abuf ∧
      u.len.alen = s.len.alen

/-! Privacy obfuscator. -/

/-- R231, R232: PECB_GEN. -/
def Obligations.PecbGenBuildsPecb : Prop :=
  ∀ s : State,
    (s.len.nlen.toNat < 15 → ∃ t, exec .pecbGen s = .next t ∧ s.FailedWith t 0x81) ∧
    (15 ≤ s.len.nlen.toNat → ∃ t, exec .pecbGen s = .next t ∧ t.status = 0x00 ∧ t.events = 0x00 ∧
      t.rd .pecb = s.pecbBytes (s.windowBytes 0x0A8 7) ∧ s.Frame t [.pecb] 0 0)

/-- R233, R234, R235: HDR_OBF and HDR_DEOBF. -/
def Obligations.HeaderObfuscationXorsThePecb : Prop :=
  ∀ s : State,
    (s.len.nlen.toNat < 8 →
      (∃ t, exec .hdrObf s = .next t ∧ s.FailedWith t 0x81) ∧ ∃ t, exec .hdrDeobf s = .next t ∧ s.FailedWith t 0x81) ∧
    (8 ≤ s.len.nlen.toNat →
      (∃ t, exec .hdrObf s = .next t ∧ t.status = 0x00 ∧ t.events = 0x00 ∧
        t.windowBytes 0x0A2 6 = xorBytes s.headerBytes (s.rd .pecb) ∧ s.Frame t [] 0x0A2 6) ∧
      ∃ t, exec .hdrDeobf s = .next t ∧ t.status = 0x00 ∧ t.events = 0x00 ∧
        t.headerBytes = xorBytes (s.windowBytes 0x0A2 6) (s.rd .pecb) ∧ s.Frame t [.ctlttl, .nseq, .src] 0 0)

/-- The spec's own inference R242: obfuscation then de-obfuscation restores the three registers whatever they became between; the other way round it restores
`NBUF[2..7]` whatever those bytes became between. -/
def Obligations.ObfuscationIsAnInvolution : Prop :=
  ∀ s : State, 8 ≤ s.len.nlen.toNat →
    (∃ t, exec .hdrObf s = .next t ∧ ∀ (c : Byte) (q : Seq) (r : MeshAddr),
      ∃ u, exec .hdrDeobf { t with par := { t.par with ctlttl := c, nseq := q, src := r } } = .next u ∧ u.status = 0x00 ∧ u.par = s.par) ∧
    ∃ t, exec .hdrDeobf s = .next t ∧ ∀ bs : List Byte, bs.length = 6 →
      ∃ u, exec .hdrObf { t with mem := t.mem.writeRange 0x0A2 bs } = .next u ∧ u.status = 0x00 ∧
        u.windowBytes 0x0A2 6 = s.windowBytes 0x0A2 6

/-! Network layer. -/

/-- R236 to R239: NET_ENC and PROXY_ENC, the length check and the frame each builds. -/
def Obligations.FrameEncryptionBuildsTheFrame : Prop :=
  ∀ s : State,
    (s.len.llen.toNat < 1 ∨ 16 < s.len.llen.toNat →
      (∃ t, exec .netEnc s = .next t ∧ s.FailedWith t 0x81) ∧ ∃ t, exec .proxyEnc s = .next t ∧ s.FailedWith t 0x81) ∧
    (1 ≤ s.len.llen.toNat → s.len.llen.toNat ≤ 16 →
      (∃ t, exec .netEnc s = .next t ∧ s.FrameBuilt t s.networkNonceBytes) ∧
      ∃ t, exec .proxyEnc s = .next t ∧ s.FrameBuilt t s.proxyNonceBytes)

/-- R240, R241: NET_DEC and PROXY_DEC, the checks in order with what each failure has written, and a frame that passes them opened under the
nonce of its candidate header, or refused with ERR_AUTH. -/
def Obligations.FrameDecryptionChecksAndOpens : Prop :=
  ∀ (s : State) (i : Instr) (nonceBytes : List Byte),
    (i = .netDec ∧ nonceBytes = s.candidateNetworkNonce) ∨ (i = .proxyDec ∧ nonceBytes = s.candidateProxyNonce) →
    let n := s.len.nlen.toNat
    let nidDiffers := s.mem.read 0x0A1 &&& 0x7F ≠ s.par.nid &&& 0x7F
    (n < 15 ∨ 34 < n → ∃ t, exec i s = .next t ∧ s.FailedWith t 0x81) ∧
    (15 ≤ n → n ≤ 34 → nidDiffers → ∃ t, exec i s = .next t ∧ s.FailedWith t 0x83) ∧
    (15 ≤ n → n ≤ 34 → ¬nidDiffers → n - 8 < 3 + s.candidateMic ∨ 18 + s.candidateMic < n - 8 →
      ∃ t, exec i s = .next t ∧ t.status = 0x81 ∧ t.events = 0x00 ∧ t.rd .pecb = s.pecbBytes (s.windowBytes 0x0A8 7) ∧
        s.Frame t [.pecb] 0 0) ∧
    (s.frameAdmissible → s.OpensUnder i nonceBytes)

/-- The spec's own inference R244: the frame one engine builds, carried to an engine with the same keys, NID and IV index, opens there to the sender's header,
destination and lower-transport PDU. -/
def Obligations.FrameRoundTrip : Prop :=
  ∀ (enc dec : Instr) (s t r : State), (enc, dec) ∈ [(Instr.netEnc, Instr.netDec), (.proxyEnc, .proxyDec)] →
    exec enc s = .next t → t.status = 0x00 →
    r.keys.kenc = s.keys.kenc → r.keys.kpriv = s.keys.kpriv → r.par.nid &&& 0x7F = s.par.nid &&& 0x7F → r.par.ivindex = s.par.ivindex →
    r.nbuf = t.nbuf → r.len.nlen = t.len.nlen →
    ∃ u, exec dec r = .next u ∧ u.status = 0x00 ∧ u.par.pdutype = s.par.pdutype ∧ u.par.ctlttl = s.par.ctlttl ∧ u.par.nseq = s.par.nseq ∧
      u.par.src = s.par.src ∧ u.par.dst = s.par.dst ∧ u.lbuf = s.lbuf ∧ u.len.llen = s.len.llen

/-! Segmentation framer. -/

/-- R170 to R176: LT_FRAME, its checks in order, the unsegmented PDU, the segment with its header read as one 32-bit big-endian word, TXSEG,
LLEN and the frame. -/
def Obligations.LtFrameBuildsTheLowerPdu : Prop :=
  ∀ s : State,
    let ctl := s.par.ctlttl.getLsbD 7
    let size := if ctl then 8 else 12
    let n := s.len.ulen.toNat
    let i := s.par.sego.toNat % 32
    let segN := (n + size - 1) / size - 1
    let k := min size (n - i * size)
    let h0 : BitVec 7 := if ctl then s.par.copc.setWidth 7 else s.par.tctrl.setWidth 7
    let header : BitVec 32 := 1#1 ++ h0 ++ BitVec.ofBool (!ctl && s.par.tctrl.getLsbD 7) ++ (s.par.tseq.setWidth 13 : BitVec 13) ++
      BitVec.ofNat 5 i ++ BitVec.ofNat 5 segN
    (n < 1 ∨ 32 * size < n → ∃ t, exec .ltFrame s = .next t ∧ s.FailedWith t 0x81) ∧
    (1 ≤ n → n ≤ size → i ≠ 0 → ∃ t, exec .ltFrame s = .next t ∧ s.FailedWith t 0x84) ∧
    (1 ≤ n → n ≤ size → i = 0 → ∃ t, exec .ltFrame s = .next t ∧ t.status = 0x00 ∧ t.events = 0x00 ∧
      t.lbuf = h0.setWidth 8 :: s.ubuf ∧ t.len.llen.toNat = n + 1 ∧ t.par.txseg = 0x00 ∧ s.Frame t [.llen, .txseg] 0x090 (n + 1)) ∧
    (size < n → n ≤ 32 * size → segN < i → ∃ t, exec .ltFrame s = .next t ∧ s.FailedWith t 0x84) ∧
    (size < n → n ≤ 32 * size → i ≤ segN → ∃ t, exec .ltFrame s = .next t ∧ t.status = 0x00 ∧ t.events = 0x00 ∧
      t.lbuf = beBytes 4 header ++ s.windowBytes (0x300 + i * size) k ∧ t.len.llen.toNat = 4 + k ∧
      t.par.txseg = 0x80 ||| BitVec.ofNat 8 segN ∧ s.Frame t [.llen, .txseg] 0x090 (4 + k))

/-- The spec's own inference R179: the segments of one message have the same first two header bytes, and their payloads concatenated give back UBUF. -/
def Obligations.SegmentsConcatenateToTheMessage : Prop :=
  ∀ s : State,
    let size := if s.par.ctlttl.getLsbD 7 then 8 else 12
    let n := s.len.ulen.toNat
    size < n → n ≤ 32 * size →
      ((List.range ((n + size - 1) / size)).flatMap fun i => (s.framedAt i).drop 4) = s.ubuf ∧
      ∀ i < (n + size - 1) / size, (s.framedAt i).take 2 = (s.framedAt 0).take 2 ∧ 5 ≤ (s.framedAt i).length

/-- Inferred from R172 and R200: the fields read back from a segment header are those it was built from. -/
def Obligations.SegmentHeaderReadsBack : Prop :=
  ∀ (h0 : BitVec 7) (szmic : Bool) (z : BitVec 13) (segO segN : BitVec 5) (payload : List Byte),
    segmentFields (segmentHeader h0 szmic z segO segN ++ payload) =
      { h0 := h0, szmic := szmic, seqZero := z, segO := segO, segN := segN, payload := payload }

/-! Reassembly. -/

/-- R194: reconciliation gives the largest value not above NSEQ whose low 13 bits are SeqZero, and fails exactly where there is none. -/
def Obligations.ReconciledSequenceNumber : Prop :=
  (∀ (nseq : Seq) (z : BitVec 13) (t : Seq), reconcile nseq z = some t ↔
    t.toNat ≤ nseq.toNat ∧ nseq.toNat - t.toNat < 8192 ∧ t.toNat % 8192 = z.toNat) ∧
  ∀ (nseq : Seq) (z : BitVec 13), reconcile nseq z = none ↔ nseq.toNat < 0x2000 ∧ nseq.toNat < z.toNat

/-- R193: the unicast addresses are 0x0001 to 0x7FFF. -/
def Obligations.UnicastRange : Prop := ∀ a : MeshAddr, unicast a = true ↔ 0x0001 ≤ a.toNat ∧ a.toNat ≤ 0x7FFF

/-- R191, R194, R200: the format checks of LT_PARSE in their order; each failure writes STATUS and EVENTS alone. -/
def Obligations.LtParseFormatChecks : Prop :=
  ∀ s : State,
    let n := s.len.llen.toNat
    let size := if s.par.ctlttl.getLsbD 7 then 8 else 12
    let b := fun j => (s.mem.read (0x090 + j)).toNat
    let seqZero := b 1 % 128 * 64 + b 2 / 4
    let segO := b 2 % 4 * 8 + b 3 / 32
    let segN := b 3 % 32
    (n < 2 ∨ 16 < n → ∃ t, exec .ltParse s = .next t ∧ s.FailedWith t 0x81) ∧
    (2 ≤ n → n ≤ 16 → 128 ≤ b 0 → n < 5 ∨ 4 + size < n → ∃ t, exec .ltParse s = .next t ∧ s.FailedWith t 0x81) ∧
    (128 ≤ b 0 → 5 ≤ n → n ≤ 4 + size → segN < segO → ∃ t, exec .ltParse s = .next t ∧ s.FailedWith t 0x85) ∧
    (128 ≤ b 0 → 5 ≤ n → n ≤ 4 + size → segO ≤ segN → s.par.nseq.toNat < 0x2000 → s.par.nseq.toNat < seqZero →
      ∃ t, exec .ltParse s = .next t ∧ s.FailedWith t 0x86)

/-- R192: an unsegmented PDU is delivered, its header stripped, SZMIC cleared, the reassembly context untouched. -/
def Obligations.UnsegmentedPduIsDelivered : Prop :=
  ∀ s : State, 2 ≤ s.len.llen.toNat → s.len.llen.toNat ≤ 16 → (s.mem.read 0x090).getLsbD 7 = false →
    ∃ t, exec .ltParse s = .next t ∧ t.status = 0x00 ∧ t.eventsAre [.complete] ∧
      (if s.par.ctlttl.getLsbD 7 then t.par.copc = s.mem.read 0x090 ∧ t.par.tctrl = s.par.tctrl &&& 0x7F
        else t.par.copc = s.par.copc ∧ t.par.tctrl = s.mem.read 0x090) ∧
      t.ubuf = s.lbuf.drop 1 ∧ t.len.ulen.toNat = s.len.llen.toNat - 1 ∧ t.par.tseq = s.par.nseq ∧ t.parsed.rxseg = 0x00 ∧
      t.parsed.rxsego = 0x00 ∧ t.ctx = s.ctx ∧
      s.Frame t [.copc, .tctrl, .ulen, .tseq, .rxseg, .rxsego] 0x300 (s.len.llen.toNat - 1)

/-- R191, R196, R201, R202, R205: the first segment seen of a new SeqAuth, of a message of more than one segment. -/
def Obligations.NewSeqAuthStartsReassembly : Prop :=
  ∀ (s : State) (g : Segment) (t : Seq), s.Receives g t → s.ctx.lsav.getLsbD 0 = false ∨ s.ctx.lastseqauth.toNat < t.toNat → g.segN ≠ 0 →
    ∃ u, exec .ltParse s = .next u ∧ u.status = 0x01 ∧
      u.eventsAre (.incStart :: if unicast s.par.dst then [.ackStart] else if s.ctx.flag .ackRun then [.ackCancel] else []) ∧
      s.HeaderNoted u g ∧ u.ctx.lastseqauth = t ∧ u.ctx.lastValid = true ∧ u.ctx.rseqzero = g.seqZero.setWidth 16 ∧
      u.ctx.blockack = segmentBit g.segO ∧ u.ctx.segvalid = segmentBit g.segO ∧ u.ctx.flag .incRun = true ∧
      u.ctx.flag .ackRun = unicast s.par.dst ∧ u.ctx.flag .ackSent = false ∧
      u.parsed.acktmr.toNat = (if unicast s.par.dst then s.ackDuration else s.parsed.acktmr.toNat) ∧
      s.SlotStored u g ∧ s.OuterFrame u segmentWrites 0 0

/-- R191, R196, R201 to R203, R208: a single-segment message of a new SeqAuth is delivered at once, with its block-ack if DST is unicast. -/
def Obligations.SingleSegmentMessageIsDelivered : Prop :=
  ∀ (s : State) (g : Segment) (t : Seq), s.Receives g t → s.ctx.lsav.getLsbD 0 = false ∨ s.ctx.lastseqauth.toNat < t.toNat → g.segN = 0 →
    ∃ u, exec .ltParse s = .next u ∧ u.status = 0x00 ∧
      u.eventsAre ([.incStart, .incCancel, .complete] ++
        if unicast s.par.dst then [.ackStart, .sendAck, .ackCancel] else if s.ctx.flag .ackRun then [.ackCancel] else []) ∧
      s.HeaderNoted u g ∧ u.ubuf = g.payload ∧ u.len.ulen.toNat = s.len.llen.toNat - 4 ∧ u.par.tseq = t ∧
      u.ctx.lastseqauth = t ∧ u.ctx.lastValid = true ∧ u.ctx.rseqzero = g.seqZero.setWidth 16 ∧ u.ctx.blockack = 1 ∧
      u.ctx.segvalid = 0 ∧ u.ctx.flag .incRun = false ∧ u.ctx.flag .ackRun = false ∧ u.ctx.flag .ackSent = unicast s.par.dst ∧
      u.rd .ackbuf = (if unicast s.par.dst then ackBytes (s.conf.cfg.getLsbD 0) g.seqZero.toNat 1 else s.rd .ackbuf) ∧
      u.parsed.acktmr.toNat = (if unicast s.par.dst then s.ackDuration else s.parsed.acktmr.toNat) ∧
      s.OuterFrame u (segmentWrites ++ [.ulen, .tseq, .ackbuf]) 0x300 (s.len.llen.toNat - 4)

/-- R191, R198, R201, R202: a further segment of the message in progress that does not complete it. -/
def Obligations.SameSeqAuthStoresTheSegment : Prop :=
  ∀ (s : State) (g : Segment) (t : Seq), s.Receives g t → s.ctx.lsav.getLsbD 0 = true → s.ctx.lastseqauth = t →
    s.ctx.flag .incRun = true → s.ctx.segvalid ||| segmentBit g.segO ≠ BitVec.ofNat 32 (2 ^ (g.segN.toNat + 1) - 1) →
    let arms := !s.ctx.flag .ackRun && unicast s.par.dst
    ∃ u, exec .ltParse s = .next u ∧ u.status = 0x01 ∧ u.eventsAre (.incStart :: if arms then [.ackStart] else []) ∧ s.HeaderNoted u g ∧
      u.ctx.blockack = s.ctx.blockack ||| segmentBit g.segO ∧ u.ctx.segvalid = s.ctx.segvalid ||| segmentBit g.segO ∧
      u.ctx.flag .incRun = true ∧ u.ctx.flag .ackRun = (s.ctx.flag .ackRun || arms) ∧ u.ctx.flag .ackSent = s.ctx.flag .ackSent ∧
      u.parsed.acktmr.toNat = (if arms then s.ackDuration else s.parsed.acktmr.toNat) ∧ s.SlotStored u g ∧
      s.OuterFrame u [.tctrl, .copc, .rxseg, .rxsego, .blockack, .segvalid, .rflags, .acktmr] 0 0

/-- R191, R198, R201 to R204, R208: the segment that completes the message in progress delivers it, and sends the block-ack unless one has
gone out. -/
def Obligations.LastSegmentDeliversTheMessage : Prop :=
  ∀ (s : State) (g : Segment) (t : Seq), s.Represented → s.Receives g t → s.ctx.lsav.getLsbD 0 = true → s.ctx.lastseqauth = t →
    s.ctx.flag .incRun = true → s.ctx.segvalid ||| segmentBit g.segO = BitVec.ofNat 32 (2 ^ (g.segN.toNat + 1) - 1) →
    let arms := !s.ctx.flag .ackRun && unicast s.par.dst
    let acks := unicast s.par.dst && !s.ctx.flag .ackSent
    let pdu := (List.range (g.segN.toNat + 1)).flatMap fun i => if i = g.segO.toNat then g.payload else s.ctx.slot i
    ∃ u, exec .ltParse s = .next u ∧ u.status = 0x00 ∧
      u.eventsAre ([.incStart, .incCancel, .complete] ++ (if arms then [.ackStart] else []) ++ if acks then [.sendAck, .ackCancel] else []) ∧
      s.HeaderNoted u g ∧ u.ubuf = pdu ∧ u.len.ulen.toNat = pdu.length ∧ u.par.tseq = t ∧
      u.ctx.blockack = s.ctx.blockack ||| segmentBit g.segO ∧ u.ctx.segvalid = 0 ∧ u.ctx.flag .incRun = false ∧
      u.ctx.flag .ackRun = (!acks && (s.ctx.flag .ackRun || arms)) ∧ u.ctx.flag .ackSent = (s.ctx.flag .ackSent || acks) ∧
      u.rd .ackbuf = (if acks then ackBytes (s.conf.cfg.getLsbD 0) s.ctx.rseqzero.toNat (s.ctx.blockack ||| segmentBit g.segO)
        else s.rd .ackbuf) ∧
      u.parsed.acktmr.toNat = (if arms then s.ackDuration else s.parsed.acktmr.toNat) ∧
      s.OuterFrame u [.tctrl, .copc, .rxseg, .rxsego, .blockack, .segvalid, .rflags, .acktmr, .ulen, .tseq, .ackbuf] 0x300 pdu.length

/-- R199: a segment of a lower SeqAuth, or of the recorded one with no message in progress, is ignored: the header outputs alone are written. -/
def Obligations.StaleSegmentIsIgnored : Prop :=
  ∀ (s : State) (g : Segment) (t : Seq), s.Receives g t → s.ctx.lsav.getLsbD 0 = true →
    t.toNat < s.ctx.lastseqauth.toNat ∨ (t = s.ctx.lastseqauth ∧ s.ctx.flag .incRun = false) →
    ∃ u, exec .ltParse s = .next u ∧ u.status = 0x02 ∧ u.events = 0x00 ∧ s.HeaderNoted u g ∧ u.ctx = s.ctx ∧
      s.Frame u [.tctrl, .copc, .rxseg, .rxsego] 0 0

/-- The spec's own inference R213 (g) on the segment store (R174, R201 to R203): the slices of a message stored in any order, with any repetitions, every index among them, complete the
message, and it is assembled to what was sliced. -/
def Obligations.AnyOrderReassemblesTheMessage : Prop :=
  ∀ (c : RxContext) (upper : List Byte) (ctl : Bool) (order : List (BitVec 5)),
    let size := if ctl then 8 else 12
    let segN := (upper.length + size - 1) / size - 1
    1 ≤ upper.length → upper.length ≤ 32 * size → c.segvalid = 0 → (∀ o ∈ order, o.toNat ≤ segN) →
    (∀ i ≤ segN, ∃ o ∈ order, o.toNat = i) →
    let c' := order.foldl (fun c o => c.store o ((upper.drop (o.toNat * size)).take size)) c
    c'.isComplete (BitVec.ofNat 5 segN) = true ∧ c'.assembled (BitVec.ofNat 5 segN) = upper

/-- R206: TMR_INC_EXP. -/
def Obligations.IncompleteTimerExpiry : Prop :=
  ∀ s : State,
    (s.ctx.flag .incRun = false → ∃ t, exec .tmrIncExp s = .next t ∧ t.status = 0x02 ∧ t.events = 0x00 ∧ s.Frame t [] 0 0) ∧
    (s.ctx.flag .incRun = true → ∃ t, exec .tmrIncExp s = .next t ∧ t.status = 0x00 ∧
      t.eventsAre (.txnFailed :: if s.ctx.flag .ackRun then [.ackCancel] else []) ∧ t.ctx.segvalid = 0 ∧ t.ctx.flag .incRun = false ∧
      t.ctx.flag .ackRun = false ∧ t.ctx.flag .ackSent = s.ctx.flag .ackSent ∧ s.Frame t [.rflags, .segvalid] 0 0)

/-- R207, R208: TMR_ACK_EXP. -/
def Obligations.AckTimerExpiry : Prop :=
  ∀ s : State,
    (s.ctx.flag .ackRun = false → ∃ t, exec .tmrAckExp s = .next t ∧ t.status = 0x02 ∧ t.events = 0x00 ∧ s.Frame t [] 0 0) ∧
    (s.ctx.flag .ackRun = true → ∃ t, exec .tmrAckExp s = .next t ∧ t.status = 0x00 ∧ t.eventsAre [.sendAck] ∧
      t.rd .ackbuf = ackBytes (s.conf.cfg.getLsbD 0) s.ctx.rseqzero.toNat s.ctx.blockack ∧ t.ctx.flag .ackRun = false ∧
      t.ctx.flag .ackSent = true ∧ t.ctx.flag .incRun = s.ctx.flag .incRun ∧ s.Frame t [.rflags, .ackbuf] 0 0)

/-- R209: RX_RESET. -/
def Obligations.RxResetClearsTheContext : Prop :=
  ∀ s : State, ∃ t, exec .rxReset s = .next t ∧ t.status = 0x00 ∧
    t.eventsAre ((if s.ctx.flag .incRun then [.incCancel] else []) ++ if s.ctx.flag .ackRun then [.ackCancel] else []) ∧
    t.ctx.flag .incRun = false ∧ t.ctx.flag .ackRun = false ∧ t.ctx.flag .ackSent = false ∧ t.ctx.segvalid = 0 ∧ t.ctx.blockack = 0 ∧
    t.ctx.rseqzero = 0 ∧ s.Frame t [.rflags, .segvalid, .blockack, .rseqzero] 0 0

/-- R211: BACK_MATCH. -/
def Obligations.BackMatchComputesTheMissingSegments : Prop :=
  ∀ s : State,
    let b := fun j => (s.mem.read (0x300 + j)).toNat
    let sz := b 0 % 128 * 64 + b 1 / 4
    let segN := s.par.txseg.toNat % 32
    (s.len.ulen.toNat ≠ 6 → ∃ t, exec .backMatch s = .next t ∧ s.FailedWith t 0x81) ∧
    (s.len.ulen.toNat = 6 → ∃ t, exec .backMatch s = .next t ∧ t.status = 0x00 ∧
      t.eventsAre (if sz = s.par.tseq.toNat % 8192 then [.szMatch] else []) ∧
      t.matcher.rxackhdr.toNat = b 0 / 128 * 2 ^ 15 + sz ∧ t.rd .rxblockack = s.windowBytes 0x302 4 ∧
      (∀ i < 32, t.matcher.missing.getLsbD i = (decide (i ≤ segN) && !t.matcher.rxblockack.getLsbD i)) ∧
      s.Frame t [.rxackhdr, .rxblockack, .missing] 0 0)

/-! The whole machine. -/

/-- The "Writes" lists of the command rules: no command changes a register or a buffer that its rule does not list, and LT_PARSE alone changes
the hidden store; no command changes a key (R53). -/
def Obligations.CommandsWriteOnlyWhatTheirRulesList : Prop :=
  ∀ (i : Instr) (s t : State), exec i s = .next t →
    (∀ r : Reg, r ∉ i.writes → t.regBytes r = s.regBytes r) ∧ t.keys = s.keys ∧ t.port = s.port ∧
      (i ≠ .ltParse → t.ctx.segbuf = s.ctx.segbuf ∧ t.ctx.seglen = s.ctx.seglen)

/-- R260, R261: every command answers a next state, with one of the STATUS codes R261 lists for it. -/
def Obligations.EveryCommandEndsWithAListedStatus : Prop :=
  ∀ (i : Instr) (s : State), ∃ t c, exec i s = .next t ∧ c ∈ i.answers ∧ t.status = c.toByte

/-- The spec's own inference R262: what a typed failure leaves behind. -/
def Obligations.TypedFailureLeavesOnlyScratch : Prop :=
  ∀ (i : Instr) (s t : State), exec i s = .next t → t.status.getLsbD 7 = true →
    t.events = 0x00 ∧ t.mem = s.mem ∧ t.ctx = s.ctx ∧
      (s.Frame t [] 0 0 ∨ (i = .utDec ∧ t.status = 0x82 ∧ s.Frame t [.nonce] 0 0) ∨
        ((i = .netDec ∨ i = .proxyDec) ∧
          ((t.status = 0x81 ∧ s.Frame t [.pecb] 0 0) ∨ (t.status = 0x82 ∧ s.Frame t [.pecb, .nonce] 0 0))))

/-- R98: no command reads STATUS or EVENTS, and each writes both. -/
def Obligations.CommandsDoNotReadStatusOrEvents : Prop :=
  ∀ (i : Instr) (s t : State) (st ev : Byte), exec i s = .next t → exec i { s with status := st, events := ev } = .next t

/-- The spec's own inference R213 (a): where a SeqAuth is recorded, no command lowers LASTSEQAUTH, and the record stays. -/
def Obligations.LastSeqAuthNeverDecreases : Prop :=
  ∀ (i : Instr) (s t : State), exec i s = .next t → s.ctx.lastValid = true →
    s.ctx.lastseqauth.toNat ≤ t.ctx.lastseqauth.toNat ∧ t.ctx.lastValid = true

/-- The spec's own inference R213 (f): with a destination that is not unicast LT_PARSE arms no acknowledgement timer and sends no block-ack. -/
def Obligations.NoAckTowardsAGroup : Prop :=
  ∀ s t : State, exec .ltParse s = .next t → unicast s.par.dst = false →
    Event.sendAck.isIn t.events = false ∧ Event.ackStart.isIn t.events = false ∧ t.ackbuf = s.ackbuf ∧ t.parsed.acktmr = s.parsed.acktmr ∧
      (t.ctx.flag .ackRun = true → s.ctx.flag .ackRun = true)

/-- Inferred from R26, R27, R197, R271, R272 (the service is the environment's, log 8): a timer service that serves every request in EVENTS, a
start before a cancel, has pending exactly the timers RFLAGS says, after every command, an expiry command being the firing of its timer. A
timer fires where it is due: its deadline is cleared, its expiry command is what the next step runs, with ST_OK, and after the requests that
command leaves are served the service and RFLAGS agree again. A request sets the deadline R272 gives it. -/
def Obligations.TimerRequestsTrackRflags : Prop :=
  (∀ (i : Instr) (s t : State) (ts : TimerService) (now : Nat), ts.agrees s → exec i s = .next t → ((ts.firedBy i).serve now t).agrees t) ∧
  (∀ (tm : Timer) (s : State) (ts : TimerService) (now d : Nat), ts.agrees s → ts.deadline tm = some d →
    if d ≤ now then
      ∃ s' t, ts.fire now tm s = some (ts.clear tm, s') ∧ step s' = .next t ∧ exec tm.expiry s = .next t ∧ t.status = 0x00 ∧
        (ts.clear tm).deadline tm = none ∧ ((ts.clear tm).serve now t).agrees t
    else ts.fire now tm s = none) ∧
  ∀ (s : State) (ts : TimerService) (now : Nat),
    (ts.serve now s).deadline .inc = (if s.events.getLsbD 1 then none else if s.events.getLsbD 0 then some (now + 10000) else ts.inc) ∧
    (ts.serve now s).deadline .ack =
      (if s.events.getLsbD 3 then none else if s.events.getLsbD 2 then some (now + s.parsed.acktmr.toNat) else ts.ack)

/-- The spec's own inference R63: the context's invariant is kept by every step of a host that keeps the duty of R303. -/
def Obligations.StepKeepsTheContextConsistent : Prop :=
  ∀ s t : State, s.ctx.Consistent → s.hostDisciplined → step s = .next t → t.ctx.Consistent

/-- Inferred from R61, R73, R261, with the memories' canonical form (the model's, log 3): the representation invariant is kept by every step. -/
def Obligations.StepKeepsTheRepresentation : Prop :=
  ∀ s t : State, s.Represented → step s = .next t → t.Represented

/-- The spec's own inference R63 (after reset), and the model's representation: both invariants hold at reset, whatever the unspecified contents are, and at the machine's initial state. -/
def Obligations.ResetMeetsTheInvariants : Prop :=
  (∀ (content : Nat → Byte) (port : HostPort),
    (State.resetWith content port).ctx.Consistent ∧ (State.resetWith content port).Represented) ∧
  State.reset.ctx.Consistent ∧ State.reset.Represented

/-- R72 with the register map of R23: what a host read returns at each address of a readable register, most significant byte first and
reserved bits 0, and at each address of a buffer. -/
def Obligations.EachAddressReadsItsRegister : Prop :=
  ∀ s : State,
    (s.windowRead 0x001 = s.status ∧ s.windowRead 0x002 = s.events ∧ s.windowRead 0x003 = s.ctx.rflags &&& 0x07) ∧
    (s.windowRead 0x004 = s.conf.cfg &&& 0x01 ∧ s.windowRead 0x005 = s.conf.ccmcfg &&& 0x07) ∧
    (s.windowRead 0x006 = s.par.pdutype ∧ s.windowRead 0x007 = s.par.nid &&& 0x7F ∧ s.windowRead 0x008 = s.par.ctlttl ∧
      s.windowBytes 0x009 3 = beBytes 3 s.par.nseq ∧ s.windowBytes 0x00C 2 = beBytes 2 s.par.src ∧
      s.windowBytes 0x00E 2 = beBytes 2 s.par.dst ∧ s.windowBytes 0x010 4 = beBytes 4 s.par.ivindex ∧
      s.windowBytes 0x014 3 = beBytes 3 s.par.tseq ∧ s.windowRead 0x017 = s.par.tctrl ∧ s.windowRead 0x018 = s.par.copc &&& 0x7F ∧
      s.windowRead 0x019 = s.par.sego &&& 0x1F ∧ s.windowRead 0x01A = s.par.txseg &&& 0x9F) ∧
    (s.windowRead 0x01B = s.parsed.rxseg &&& 0x9F ∧ s.windowRead 0x01C = s.parsed.rxsego &&& 0x1F ∧
      s.windowBytes 0x01E 2 = beBytes 2 s.parsed.acktmr) ∧
    (s.windowBytes 0x020 3 = beBytes 3 s.ctx.lastseqauth ∧ s.windowRead 0x023 = s.ctx.lsav &&& 0x01 ∧
      s.windowBytes 0x024 2 = beBytes 2 (s.ctx.rseqzero &&& 0x1FFF) ∧ s.windowBytes 0x028 4 = beBytes 4 s.ctx.blockack ∧
      s.windowBytes 0x02C 4 = beBytes 4 s.ctx.segvalid) ∧
    (s.windowBytes 0x030 4 = beBytes 4 s.matcher.rxblockack ∧ s.windowBytes 0x034 4 = beBytes 4 s.matcher.missing ∧
      s.windowBytes 0x038 2 = beBytes 2 (s.matcher.rxackhdr &&& 0x9FFF)) ∧
    (s.windowBytes 0x03A 2 = beBytes 2 s.len.alen ∧ s.windowBytes 0x03C 2 = beBytes 2 s.len.ulen ∧ s.windowRead 0x03E = s.len.llen ∧
      s.windowRead 0x03F = s.len.nlen) ∧
    (s.windowBytes 0x070 13 = beBytes 13 s.nonce ∧ s.windowBytes 0x080 6 = beBytes 6 s.pecb ∧ s.windowBytes 0x088 6 = beBytes 6 s.ackbuf) ∧
    ∀ a, (0x090 ≤ a ∧ a ≤ 0x09F) ∨ (0x0A0 ≤ a ∧ a ≤ 0x0C1) ∨ (0x100 ≤ a ∧ a ≤ 0x27B) ∨ (0x300 ≤ a ∧ a ≤ 0x47F) →
      s.windowRead a = s.mem.read a
end

