-- ==== Sys2Proof/Laws/Bytes.lean ====
section
/-! SUPPORT. What the byte-string operations can do: lengths, big-endian round trips, concatenation, xor, single bits. -/

namespace Sys2Proof.Machine

@[simp] theorem beBytes_length {w : Nat} (n : Nat) (x : BitVec w) : (beBytes n x).length = n := by simp [beBytes]

theorem beBytes_getElem {w : Nat} (n : Nat) (x : BitVec w) (j : Nat) (h : j < (beBytes n x).length) :
    (beBytes n x)[j] = x.extractLsb' (8 * (n - 1 - j)) 8 := by simp [beBytes]

@[simp] theorem beBytes_zero {w : Nat} (x : BitVec w) : beBytes 0 x = [] := rfl

theorem beBytes_one (x : Byte) : beBytes 1 x = [x] := by
  simp [beBytes]

/-- The bytes of a concatenation are those of its high part and then those of its low part. -/
theorem beBytes_append {v w : Nat} (x : BitVec v) (y : BitVec w) (a b : Nat) (hw : w = 8 * b) :
    beBytes (a + b) (x ++ y) = beBytes a x ++ beBytes b y := by
  subst hw
  apply List.ext_getElem
  · simp
  · intro j h1 h2
    rw [beBytes_getElem, List.getElem_append]
    simp only [beBytes_length] at h1 ⊢
    split <;> rename_i hj
    · rw [beBytes_getElem]
      ext i hi
      simp only [BitVec.getElem_extractLsb', BitVec.getLsbD_append]
      have : ¬ (8 * (a + b - 1 - j) + i < 8 * b) := by omega
      simp only [this, if_false]
      congr 1
      omega
    · rw [beBytes_getElem]
      ext i hi
      simp only [BitVec.getElem_extractLsb', BitVec.getLsbD_append]
      have : 8 * (a + b - 1 - j) + i < 8 * b := by omega
      simp only [this, if_true]
      congr 1
      omega

/-- The first byte of a big-endian string and the rest of it. -/
theorem beBytes_succ {w : Nat} (n : Nat) (x : BitVec w) :
    beBytes (n + 1) x = x.extractLsb' (8 * n) 8 :: beBytes n x := by
  apply List.ext_getElem
  · simp
  · intro j h1 h2
    simp only [beBytes_getElem]
    cases j with
    | zero => simp
    | succ j =>
      simp only [List.getElem_cons_succ, beBytes_getElem]
      congr 2
      omega

theorem fromBE_append (w : Nat) (xs : List Byte) (b : Byte) :
    fromBE w (xs ++ [b]) = (fromBE w xs <<< 8) ||| b.setWidth w := by
  simp [fromBE, List.foldl_append]

/-- Bit `8i + k` of the number a string spells is bit `k` of the byte `i` places from its end. -/
theorem fromBE_getLsbD (w : Nat) (bs : List Byte) (i k : Nat) (hk : k < 8) (hw : 8 * i + k < w) :
    (fromBE w bs).getLsbD (8 * i + k) = (bs.reverse.getD i 0).getLsbD k := by
  induction bs using List.reverseRecOn generalizing i with
  | nil => simp [fromBE]
  | append_singleton xs b ih =>
    rw [fromBE_append]
    simp only [BitVec.getLsbD_or, BitVec.getLsbD_shiftLeft, BitVec.getLsbD_setWidth, List.reverse_append, List.reverse_cons,
      List.reverse_nil, List.nil_append, List.singleton_append]
    cases i with
    | zero =>
      have h0 : k < w := by omega
      simp [h0, hk]
    | succ i =>
      have h1 : ¬ (8 * (i + 1) + k < 8) := by omega
      have h2 : b.getLsbD (8 * (i + 1) + k) = false := BitVec.getLsbD_of_ge _ _ (by omega)
      have h3 : 8 * (i + 1) + k - 8 = 8 * i + k := by omega
      simp only [h1, h2, h3, decide_false, Bool.not_false, Bool.and_true, hw, decide_true, Bool.true_and, Bool.and_false, Bool.or_false,
        List.getD_cons_succ]
      exact ih i (by omega)

/-- `from_be(be_n(x)) = x`. -/
theorem fromBE_beBytes {w : Nat} (n : Nat) (x : BitVec w) (hw : w = 8 * n) : fromBE w (beBytes n x) = x := by
  ext i hi
  have hk : i % 8 < 8 := Nat.mod_lt _ (by omega)
  have hi' : 8 * (i / 8) + i % 8 = i := by omega
  rw [← BitVec.getLsbD_eq_getElem, ← BitVec.getLsbD_eq_getElem, ← hi', fromBE_getLsbD w _ _ _ hk (by omega)]
  have hlt : i / 8 < n := by omega
  have hr : (beBytes n x).reverse.getD (i / 8) 0 = x.extractLsb' (8 * (i / 8)) 8 := by
    rw [List.getD_eq_getElem _ _ (by simpa using hlt), List.getElem_reverse, beBytes_getElem]
    simp only [beBytes_length]
    congr 2
    omega
  rw [hr]
  simp [hk]

/-- `be_n(from_be(X)) = X` for a string of `n` bytes. -/
theorem beBytes_fromBE (w n : Nat) (bs : List Byte) (hl : bs.length = n) (hw : 8 * n ≤ w) : beBytes n (fromBE w bs) = bs := by
  apply List.ext_getElem
  · simp [hl]
  · intro j h1 h2
    rw [beBytes_getElem]
    simp only [beBytes_length] at h1
    ext k hk
    rw [BitVec.getElem_extractLsb', fromBE_getLsbD w bs _ _ hk (by omega), List.getD_eq_getElem _ _ (by simp; omega),
      List.getElem_reverse, ← BitVec.getLsbD_eq_getElem]
    congr 2
    omega

/-- The number that two strings spell together. -/
theorem fromBE_cons_append {v w u : Nat} (xs ys : List Byte) (hv : v = 8 * xs.length) (hw : w = 8 * ys.length) (hu : u = v + w) :
    fromBE u (xs ++ ys) = (fromBE v xs ++ fromBE w ys).cast hu.symm := by
  subst hu
  have h := beBytes_append (fromBE v xs) (fromBE w ys) xs.length ys.length hw
  rw [beBytes_fromBE v xs.length xs rfl (by omega), beBytes_fromBE w ys.length ys rfl (by omega)] at h
  rw [← h, fromBE_beBytes _ _ (by omega)]
  rfl

@[simp] theorem xorBytes_length (xs ys : List Byte) : (xorBytes xs ys).length = min xs.length ys.length := by simp [xorBytes]

@[simp] theorem xorBytes_nil_left (ys : List Byte) : xorBytes [] ys = [] := by simp [xorBytes]

/-- Xor is its own inverse where the second string is long enough (R134, R136). -/
theorem xorBytes_cancel (xs ys : List Byte) (h : xs.length ≤ ys.length) : xorBytes (xorBytes xs ys) ys = xs := by
  induction xs generalizing ys with
  | nil => simp
  | cons x xs ih =>
    cases ys with
    | nil => simp at h
    | cons y ys =>
      simp only [xorBytes, List.zipWith_cons_cons, List.cons.injEq]
      exact ⟨by rw [BitVec.xor_assoc, BitVec.xor_self, BitVec.xor_zero], ih ys (by simpa using h)⟩

theorem xorBytes_take (xs ys : List Byte) (n : Nat) : (xorBytes xs ys).take n = xorBytes (xs.take n) (ys.take n) := by
  simp [xorBytes, List.take_zipWith]

/-- Xor with a string truncated to a length at least the first string's is xor with the whole of it. -/
theorem xorBytes_take_right (xs ys : List Byte) (n : Nat) (h : xs.length ≤ n) : xorBytes xs (ys.take n) = xorBytes xs ys := by
  have := xorBytes_take xs ys n
  rw [List.take_of_length_le (by simp; omega), List.take_of_length_le h] at this
  exact this.symm

/-- A single bit of a byte after `setBit`. -/
theorem setBit_getLsbD (x : Byte) (i : Nat) (b : Bool) (j : Nat) (hi : i < 8) :
    (setBit x i b).getLsbD j = if j = i then b else x.getLsbD j := by
  have key : ∀ j < 8, (setBit x i b).getLsbD j = if j = i then b else x.getLsbD j := by
    intro j hj
    cases b <;> simp only [setBit, if_true, Bool.false_eq_true, if_false] <;>
      simp only [BitVec.getLsbD_or, BitVec.getLsbD_and, BitVec.getLsbD_not, BitVec.getLsbD_shiftLeft, BitVec.getLsbD_one] <;>
      by_cases h : j = i <;> by_cases h2 : j < i <;> simp_all <;> omega
  by_cases hj : j < 8
  · exact key j hj
  · rw [BitVec.getLsbD_of_ge _ _ (by omega), BitVec.getLsbD_of_ge _ _ (by omega), if_neg (by omega)]

@[simp] theorem setBit_same (x : Byte) (i : Nat) (b : Bool) (hi : i < 8) : (setBit x i b).getLsbD i = b := by
  simp [setBit_getLsbD x i b i hi]

end Sys2Proof.Machine
end

