-- ==== Sys2Proof/Laws/Ccm.lean ====
section
/-! SUPPORT. What the CCM functions can do: lengths, and when a decryption answers a plaintext. -/

namespace Sys2Proof.Machine

theorem flatMap_length_const {α β : Type} (l : List α) (f : α → List β) (k : Nat) (h : ∀ a ∈ l, (f a).length = k) :
    (l.flatMap f).length = k * l.length := by
  induction l with
  | nil => simp
  | cons a l ih =>
    rw [List.flatMap_cons, List.length_append, h a (by simp), ih fun b hb => h b (by simp [hb]), List.length_cons, Nat.mul_add]
    omega

@[simp] theorem keyStream_length (k : Key) (nonce : Nonce) (n : Nat) : (keyStream k nonce n).length = 16 * ceilDiv n 16 := by
  rw [keyStream, flatMap_length_const _ _ 16 (by simp), List.length_range]

theorem le_ceilDiv_mul (n : Nat) : n ≤ 16 * ceilDiv n 16 := by
  unfold ceilDiv
  omega

/-- The key stream is long enough for the message. -/
theorem le_keyStream_length (k : Key) (nonce : Nonce) (p : List Byte) : p.length ≤ (keyStream k nonce p.length).length := by
  rw [keyStream_length]
  exact le_ceilDiv_mul _

@[simp] theorem ctrCrypt_length (k : Key) (nonce : Nonce) (p : List Byte) : (ctrCrypt k nonce p).length = p.length := by
  have := le_keyStream_length k nonce p
  simp only [ctrCrypt, xorBytes_length]
  omega

/-- The stream cipher is its own inverse (R136). -/
@[simp] theorem ctrCrypt_ctrCrypt (k : Key) (nonce : Nonce) (p : List Byte) : ctrCrypt k nonce (ctrCrypt k nonce p) = p := by
  have hl := ctrCrypt_length k nonce p
  rw [ctrCrypt, hl, ctrCrypt, xorBytes_cancel _ _ (le_keyStream_length k nonce p)]

theorem ccmMic_length (k : Key) (nonce : Nonce) (m : Nat) (p : List Byte) (hm : m ≤ 16) : (ccmMic k nonce m p).length = m := by
  simp [ccmMic]
  omega

/-- `len(ccm_enc(K, N, M, P)) = len(P) + M` (R135, R139). -/
theorem ccmEncrypt_length (k : Key) (nonce : Nonce) (m : Nat) (p : List Byte) (hm : m ≤ 16) :
    (ccmEncrypt k nonce m p).length = p.length + m := by
  simp [ccmEncrypt, ccmMic_length k nonce m p hm]

/-- The only string a decryption accepts with plaintext `p` is the encryption of `p` (R135, R136). -/
theorem ccmDecrypt_eq_some (k : Key) (nonce : Nonce) (m : Nat) (z p : List Byte) (hm : m ≤ 16) (hz : m ≤ z.length) :
    ccmDecrypt k nonce m z = some p ↔ z = ccmEncrypt k nonce m p := by
  constructor
  · intro h
    unfold ccmDecrypt at h
    simp only at h
    split at h
    · rename_i hmic
      injection h with h
      subst h
      rw [ccmEncrypt, ctrCrypt_ctrCrypt, hmic, List.take_append_drop]
    · cases h
  · rintro rfl
    have hl := ccmEncrypt_length k nonce m p hm
    have hn : (ccmEncrypt k nonce m p).length - m = (ctrCrypt k nonce p).length := by
      rw [ctrCrypt_length]
      omega
    unfold ccmDecrypt
    simp only [hn]
    rw [ccmEncrypt, List.take_left' rfl, List.drop_left' rfl, ctrCrypt_ctrCrypt, if_pos rfl]

/-- A decryption that answers gives a plaintext shorter by the MIC. -/
theorem ccmDecrypt_length (k : Key) (nonce : Nonce) (m : Nat) (z p : List Byte) (h : ccmDecrypt k nonce m z = some p) :
    p.length = z.length - m := by
  unfold ccmDecrypt at h
  simp only at h
  split at h
  · injection h with h
    subst h
    simp
  · cases h

/-- Round trip (R139). -/
theorem ccmDecrypt_ccmEncrypt (k : Key) (nonce : Nonce) (m : Nat) (p : List Byte) (hm : m ≤ 16) :
    ccmDecrypt k nonce m (ccmEncrypt k nonce m p) = some p :=
  (ccmDecrypt_eq_some k nonce m _ p hm (by rw [ccmEncrypt_length _ _ _ _ hm]; omega)).mpr rfl

end Sys2Proof.Machine
end

