-- ==== Sys2Proof/Laws/State.lean ====
section
/-! SUPPORT. One lemma per field of State per named update, true by rfl: no later proof unfolds a record update. -/

namespace Sys2Proof.Machine

@[simp] theorem State.begin_status (s : State) : s.begin.status = s.status := rfl
@[simp] theorem State.begin_events (s : State) : s.begin.events = 0x00 := rfl
@[simp] theorem State.begin_conf (s : State) : s.begin.conf = s.conf := rfl
@[simp] theorem State.begin_par (s : State) : s.begin.par = s.par := rfl
@[simp] theorem State.begin_parsed (s : State) : s.begin.parsed = s.parsed := rfl
@[simp] theorem State.begin_ctx (s : State) : s.begin.ctx = s.ctx := rfl
@[simp] theorem State.begin_matcher (s : State) : s.begin.matcher = s.matcher := rfl
@[simp] theorem State.begin_len (s : State) : s.begin.len = s.len := rfl
@[simp] theorem State.begin_keys (s : State) : s.begin.keys = s.keys := rfl
@[simp] theorem State.begin_nonce (s : State) : s.begin.nonce = s.nonce := rfl
@[simp] theorem State.begin_pecb (s : State) : s.begin.pecb = s.pecb := rfl
@[simp] theorem State.begin_ackbuf (s : State) : s.begin.ackbuf = s.ackbuf := rfl
@[simp] theorem State.begin_mem (s : State) : s.begin.mem = s.mem := rfl
@[simp] theorem State.begin_port (s : State) : s.begin.port = s.port := rfl

@[simp] theorem State.finish_status (s : State) (c : StatusCode) : (s.finish c).status = c.toByte := rfl
@[simp] theorem State.finish_events (s : State) (c : StatusCode) : (s.finish c).events = s.events := rfl
@[simp] theorem State.finish_conf (s : State) (c : StatusCode) : (s.finish c).conf = s.conf := rfl
@[simp] theorem State.finish_par (s : State) (c : StatusCode) : (s.finish c).par = s.par := rfl
@[simp] theorem State.finish_parsed (s : State) (c : StatusCode) : (s.finish c).parsed = s.parsed := rfl
@[simp] theorem State.finish_ctx (s : State) (c : StatusCode) : (s.finish c).ctx = s.ctx := rfl
@[simp] theorem State.finish_matcher (s : State) (c : StatusCode) : (s.finish c).matcher = s.matcher := rfl
@[simp] theorem State.finish_len (s : State) (c : StatusCode) : (s.finish c).len = s.len := rfl
@[simp] theorem State.finish_keys (s : State) (c : StatusCode) : (s.finish c).keys = s.keys := rfl
@[simp] theorem State.finish_nonce (s : State) (c : StatusCode) : (s.finish c).nonce = s.nonce := rfl
@[simp] theorem State.finish_pecb (s : State) (c : StatusCode) : (s.finish c).pecb = s.pecb := rfl
@[simp] theorem State.finish_ackbuf (s : State) (c : StatusCode) : (s.finish c).ackbuf = s.ackbuf := rfl
@[simp] theorem State.finish_mem (s : State) (c : StatusCode) : (s.finish c).mem = s.mem := rfl
@[simp] theorem State.finish_port (s : State) (c : StatusCode) : (s.finish c).port = s.port := rfl

@[simp] theorem State.fail_status (s : State) (c : StatusCode) : (s.fail c).status = c.toByte := rfl
@[simp] theorem State.fail_events (s : State) (c : StatusCode) : (s.fail c).events = s.events := rfl
@[simp] theorem State.fail_conf (s : State) (c : StatusCode) : (s.fail c).conf = s.conf := rfl
@[simp] theorem State.fail_par (s : State) (c : StatusCode) : (s.fail c).par = s.par := rfl
@[simp] theorem State.fail_parsed (s : State) (c : StatusCode) : (s.fail c).parsed = s.parsed := rfl
@[simp] theorem State.fail_ctx (s : State) (c : StatusCode) : (s.fail c).ctx = s.ctx := rfl
@[simp] theorem State.fail_matcher (s : State) (c : StatusCode) : (s.fail c).matcher = s.matcher := rfl
@[simp] theorem State.fail_len (s : State) (c : StatusCode) : (s.fail c).len = s.len := rfl
@[simp] theorem State.fail_keys (s : State) (c : StatusCode) : (s.fail c).keys = s.keys := rfl
@[simp] theorem State.fail_nonce (s : State) (c : StatusCode) : (s.fail c).nonce = s.nonce := rfl
@[simp] theorem State.fail_pecb (s : State) (c : StatusCode) : (s.fail c).pecb = s.pecb := rfl
@[simp] theorem State.fail_ackbuf (s : State) (c : StatusCode) : (s.fail c).ackbuf = s.ackbuf := rfl
@[simp] theorem State.fail_mem (s : State) (c : StatusCode) : (s.fail c).mem = s.mem := rfl
@[simp] theorem State.fail_port (s : State) (c : StatusCode) : (s.fail c).port = s.port := rfl

@[simp] theorem State.raise_status (s : State) (e : Event) : (s.raise e).status = s.status := rfl
@[simp] theorem State.raise_events (s : State) (e : Event) : (s.raise e).events = setBit s.events e.bit true := rfl
@[simp] theorem State.raise_conf (s : State) (e : Event) : (s.raise e).conf = s.conf := rfl
@[simp] theorem State.raise_par (s : State) (e : Event) : (s.raise e).par = s.par := rfl
@[simp] theorem State.raise_parsed (s : State) (e : Event) : (s.raise e).parsed = s.parsed := rfl
@[simp] theorem State.raise_ctx (s : State) (e : Event) : (s.raise e).ctx = s.ctx := rfl
@[simp] theorem State.raise_matcher (s : State) (e : Event) : (s.raise e).matcher = s.matcher := rfl
@[simp] theorem State.raise_len (s : State) (e : Event) : (s.raise e).len = s.len := rfl
@[simp] theorem State.raise_keys (s : State) (e : Event) : (s.raise e).keys = s.keys := rfl
@[simp] theorem State.raise_nonce (s : State) (e : Event) : (s.raise e).nonce = s.nonce := rfl
@[simp] theorem State.raise_pecb (s : State) (e : Event) : (s.raise e).pecb = s.pecb := rfl
@[simp] theorem State.raise_ackbuf (s : State) (e : Event) : (s.raise e).ackbuf = s.ackbuf := rfl
@[simp] theorem State.raise_mem (s : State) (e : Event) : (s.raise e).mem = s.mem := rfl
@[simp] theorem State.raise_port (s : State) (e : Event) : (s.raise e).port = s.port := rfl

@[simp] theorem State.setNonce_status (s : State) (n : Nonce) : (s.setNonce n).status = s.status := rfl
@[simp] theorem State.setNonce_events (s : State) (n : Nonce) : (s.setNonce n).events = s.events := rfl
@[simp] theorem State.setNonce_conf (s : State) (n : Nonce) : (s.setNonce n).conf = s.conf := rfl
@[simp] theorem State.setNonce_par (s : State) (n : Nonce) : (s.setNonce n).par = s.par := rfl
@[simp] theorem State.setNonce_parsed (s : State) (n : Nonce) : (s.setNonce n).parsed = s.parsed := rfl
@[simp] theorem State.setNonce_ctx (s : State) (n : Nonce) : (s.setNonce n).ctx = s.ctx := rfl
@[simp] theorem State.setNonce_matcher (s : State) (n : Nonce) : (s.setNonce n).matcher = s.matcher := rfl
@[simp] theorem State.setNonce_len (s : State) (n : Nonce) : (s.setNonce n).len = s.len := rfl
@[simp] theorem State.setNonce_keys (s : State) (n : Nonce) : (s.setNonce n).keys = s.keys := rfl
@[simp] theorem State.setNonce_nonce (s : State) (n : Nonce) : (s.setNonce n).nonce = n := rfl
@[simp] theorem State.setNonce_pecb (s : State) (n : Nonce) : (s.setNonce n).pecb = s.pecb := rfl
@[simp] theorem State.setNonce_ackbuf (s : State) (n : Nonce) : (s.setNonce n).ackbuf = s.ackbuf := rfl
@[simp] theorem State.setNonce_mem (s : State) (n : Nonce) : (s.setNonce n).mem = s.mem := rfl
@[simp] theorem State.setNonce_port (s : State) (n : Nonce) : (s.setNonce n).port = s.port := rfl

@[simp] theorem State.setPecb_status (s : State) (p : Six) : (s.setPecb p).status = s.status := rfl
@[simp] theorem State.setPecb_events (s : State) (p : Six) : (s.setPecb p).events = s.events := rfl
@[simp] theorem State.setPecb_conf (s : State) (p : Six) : (s.setPecb p).conf = s.conf := rfl
@[simp] theorem State.setPecb_par (s : State) (p : Six) : (s.setPecb p).par = s.par := rfl
@[simp] theorem State.setPecb_parsed (s : State) (p : Six) : (s.setPecb p).parsed = s.parsed := rfl
@[simp] theorem State.setPecb_ctx (s : State) (p : Six) : (s.setPecb p).ctx = s.ctx := rfl
@[simp] theorem State.setPecb_matcher (s : State) (p : Six) : (s.setPecb p).matcher = s.matcher := rfl
@[simp] theorem State.setPecb_len (s : State) (p : Six) : (s.setPecb p).len = s.len := rfl
@[simp] theorem State.setPecb_keys (s : State) (p : Six) : (s.setPecb p).keys = s.keys := rfl
@[simp] theorem State.setPecb_nonce (s : State) (p : Six) : (s.setPecb p).nonce = s.nonce := rfl
@[simp] theorem State.setPecb_pecb (s : State) (p : Six) : (s.setPecb p).pecb = p := rfl
@[simp] theorem State.setPecb_ackbuf (s : State) (p : Six) : (s.setPecb p).ackbuf = s.ackbuf := rfl
@[simp] theorem State.setPecb_mem (s : State) (p : Six) : (s.setPecb p).mem = s.mem := rfl
@[simp] theorem State.setPecb_port (s : State) (p : Six) : (s.setPecb p).port = s.port := rfl

@[simp] theorem State.setPar_status (s : State) (p : ParamRegs) : (s.setPar p).status = s.status := rfl
@[simp] theorem State.setPar_events (s : State) (p : ParamRegs) : (s.setPar p).events = s.events := rfl
@[simp] theorem State.setPar_conf (s : State) (p : ParamRegs) : (s.setPar p).conf = s.conf := rfl
@[simp] theorem State.setPar_par (s : State) (p : ParamRegs) : (s.setPar p).par = p := rfl
@[simp] theorem State.setPar_parsed (s : State) (p : ParamRegs) : (s.setPar p).parsed = s.parsed := rfl
@[simp] theorem State.setPar_ctx (s : State) (p : ParamRegs) : (s.setPar p).ctx = s.ctx := rfl
@[simp] theorem State.setPar_matcher (s : State) (p : ParamRegs) : (s.setPar p).matcher = s.matcher := rfl
@[simp] theorem State.setPar_len (s : State) (p : ParamRegs) : (s.setPar p).len = s.len := rfl
@[simp] theorem State.setPar_keys (s : State) (p : ParamRegs) : (s.setPar p).keys = s.keys := rfl
@[simp] theorem State.setPar_nonce (s : State) (p : ParamRegs) : (s.setPar p).nonce = s.nonce := rfl
@[simp] theorem State.setPar_pecb (s : State) (p : ParamRegs) : (s.setPar p).pecb = s.pecb := rfl
@[simp] theorem State.setPar_ackbuf (s : State) (p : ParamRegs) : (s.setPar p).ackbuf = s.ackbuf := rfl
@[simp] theorem State.setPar_mem (s : State) (p : ParamRegs) : (s.setPar p).mem = s.mem := rfl
@[simp] theorem State.setPar_port (s : State) (p : ParamRegs) : (s.setPar p).port = s.port := rfl

@[simp] theorem State.setParsed_status (s : State) (p : ParseRegs) : (s.setParsed p).status = s.status := rfl
@[simp] theorem State.setParsed_events (s : State) (p : ParseRegs) : (s.setParsed p).events = s.events := rfl
@[simp] theorem State.setParsed_conf (s : State) (p : ParseRegs) : (s.setParsed p).conf = s.conf := rfl
@[simp] theorem State.setParsed_par (s : State) (p : ParseRegs) : (s.setParsed p).par = s.par := rfl
@[simp] theorem State.setParsed_parsed (s : State) (p : ParseRegs) : (s.setParsed p).parsed = p := rfl
@[simp] theorem State.setParsed_ctx (s : State) (p : ParseRegs) : (s.setParsed p).ctx = s.ctx := rfl
@[simp] theorem State.setParsed_matcher (s : State) (p : ParseRegs) : (s.setParsed p).matcher = s.matcher := rfl
@[simp] theorem State.setParsed_len (s : State) (p : ParseRegs) : (s.setParsed p).len = s.len := rfl
@[simp] theorem State.setParsed_keys (s : State) (p : ParseRegs) : (s.setParsed p).keys = s.keys := rfl
@[simp] theorem State.setParsed_nonce (s : State) (p : ParseRegs) : (s.setParsed p).nonce = s.nonce := rfl
@[simp] theorem State.setParsed_pecb (s : State) (p : ParseRegs) : (s.setParsed p).pecb = s.pecb := rfl
@[simp] theorem State.setParsed_ackbuf (s : State) (p : ParseRegs) : (s.setParsed p).ackbuf = s.ackbuf := rfl
@[simp] theorem State.setParsed_mem (s : State) (p : ParseRegs) : (s.setParsed p).mem = s.mem := rfl
@[simp] theorem State.setParsed_port (s : State) (p : ParseRegs) : (s.setParsed p).port = s.port := rfl

@[simp] theorem State.setCtx_status (s : State) (c : RxContext) : (s.setCtx c).status = s.status := rfl
@[simp] theorem State.setCtx_events (s : State) (c : RxContext) : (s.setCtx c).events = s.events := rfl
@[simp] theorem State.setCtx_conf (s : State) (c : RxContext) : (s.setCtx c).conf = s.conf := rfl
@[simp] theorem State.setCtx_par (s : State) (c : RxContext) : (s.setCtx c).par = s.par := rfl
@[simp] theorem State.setCtx_parsed (s : State) (c : RxContext) : (s.setCtx c).parsed = s.parsed := rfl
@[simp] theorem State.setCtx_ctx (s : State) (c : RxContext) : (s.setCtx c).ctx = c := rfl
@[simp] theorem State.setCtx_matcher (s : State) (c : RxContext) : (s.setCtx c).matcher = s.matcher := rfl
@[simp] theorem State.setCtx_len (s : State) (c : RxContext) : (s.setCtx c).len = s.len := rfl
@[simp] theorem State.setCtx_keys (s : State) (c : RxContext) : (s.setCtx c).keys = s.keys := rfl
@[simp] theorem State.setCtx_nonce (s : State) (c : RxContext) : (s.setCtx c).nonce = s.nonce := rfl
@[simp] theorem State.setCtx_pecb (s : State) (c : RxContext) : (s.setCtx c).pecb = s.pecb := rfl
@[simp] theorem State.setCtx_ackbuf (s : State) (c : RxContext) : (s.setCtx c).ackbuf = s.ackbuf := rfl
@[simp] theorem State.setCtx_mem (s : State) (c : RxContext) : (s.setCtx c).mem = s.mem := rfl
@[simp] theorem State.setCtx_port (s : State) (c : RxContext) : (s.setCtx c).port = s.port := rfl

@[simp] theorem State.putAbuf_status (s : State) (bs : List Byte) : (s.putAbuf bs).status = s.status := rfl
@[simp] theorem State.putAbuf_events (s : State) (bs : List Byte) : (s.putAbuf bs).events = s.events := rfl
@[simp] theorem State.putAbuf_conf (s : State) (bs : List Byte) : (s.putAbuf bs).conf = s.conf := rfl
@[simp] theorem State.putAbuf_par (s : State) (bs : List Byte) : (s.putAbuf bs).par = s.par := rfl
@[simp] theorem State.putAbuf_parsed (s : State) (bs : List Byte) : (s.putAbuf bs).parsed = s.parsed := rfl
@[simp] theorem State.putAbuf_ctx (s : State) (bs : List Byte) : (s.putAbuf bs).ctx = s.ctx := rfl
@[simp] theorem State.putAbuf_matcher (s : State) (bs : List Byte) : (s.putAbuf bs).matcher = s.matcher := rfl
@[simp] theorem State.putAbuf_len (s : State) (bs : List Byte) : (s.putAbuf bs).len = { s.len with alen := BitVec.ofNat 16 bs.length } := rfl
@[simp] theorem State.putAbuf_keys (s : State) (bs : List Byte) : (s.putAbuf bs).keys = s.keys := rfl
@[simp] theorem State.putAbuf_nonce (s : State) (bs : List Byte) : (s.putAbuf bs).nonce = s.nonce := rfl
@[simp] theorem State.putAbuf_pecb (s : State) (bs : List Byte) : (s.putAbuf bs).pecb = s.pecb := rfl
@[simp] theorem State.putAbuf_ackbuf (s : State) (bs : List Byte) : (s.putAbuf bs).ackbuf = s.ackbuf := rfl
@[simp] theorem State.putAbuf_mem (s : State) (bs : List Byte) : (s.putAbuf bs).mem = s.mem.writeRange abufBase bs := rfl
@[simp] theorem State.putAbuf_port (s : State) (bs : List Byte) : (s.putAbuf bs).port = s.port := rfl

@[simp] theorem State.putUbuf_status (s : State) (bs : List Byte) : (s.putUbuf bs).status = s.status := rfl
@[simp] theorem State.putUbuf_events (s : State) (bs : List Byte) : (s.putUbuf bs).events = s.events := rfl
@[simp] theorem State.putUbuf_conf (s : State) (bs : List Byte) : (s.putUbuf bs).conf = s.conf := rfl
@[simp] theorem State.putUbuf_par (s : State) (bs : List Byte) : (s.putUbuf bs).par = s.par := rfl
@[simp] theorem State.putUbuf_parsed (s : State) (bs : List Byte) : (s.putUbuf bs).parsed = s.parsed := rfl
@[simp] theorem State.putUbuf_ctx (s : State) (bs : List Byte) : (s.putUbuf bs).ctx = s.ctx := rfl
@[simp] theorem State.putUbuf_matcher (s : State) (bs : List Byte) : (s.putUbuf bs).matcher = s.matcher := rfl
@[simp] theorem State.putUbuf_len (s : State) (bs : List Byte) : (s.putUbuf bs).len = { s.len with ulen := BitVec.ofNat 16 bs.length } := rfl
@[simp] theorem State.putUbuf_keys (s : State) (bs : List Byte) : (s.putUbuf bs).keys = s.keys := rfl
@[simp] theorem State.putUbuf_nonce (s : State) (bs : List Byte) : (s.putUbuf bs).nonce = s.nonce := rfl
@[simp] theorem State.putUbuf_pecb (s : State) (bs : List Byte) : (s.putUbuf bs).pecb = s.pecb := rfl
@[simp] theorem State.putUbuf_ackbuf (s : State) (bs : List Byte) : (s.putUbuf bs).ackbuf = s.ackbuf := rfl
@[simp] theorem State.putUbuf_mem (s : State) (bs : List Byte) : (s.putUbuf bs).mem = s.mem.writeRange ubufBase bs := rfl
@[simp] theorem State.putUbuf_port (s : State) (bs : List Byte) : (s.putUbuf bs).port = s.port := rfl

@[simp] theorem State.putLbuf_status (s : State) (bs : List Byte) : (s.putLbuf bs).status = s.status := rfl
@[simp] theorem State.putLbuf_events (s : State) (bs : List Byte) : (s.putLbuf bs).events = s.events := rfl
@[simp] theorem State.putLbuf_conf (s : State) (bs : List Byte) : (s.putLbuf bs).conf = s.conf := rfl
@[simp] theorem State.putLbuf_par (s : State) (bs : List Byte) : (s.putLbuf bs).par = s.par := rfl
@[simp] theorem State.putLbuf_parsed (s : State) (bs : List Byte) : (s.putLbuf bs).parsed = s.parsed := rfl
@[simp] theorem State.putLbuf_ctx (s : State) (bs : List Byte) : (s.putLbuf bs).ctx = s.ctx := rfl
@[simp] theorem State.putLbuf_matcher (s : State) (bs : List Byte) : (s.putLbuf bs).matcher = s.matcher := rfl
@[simp] theorem State.putLbuf_len (s : State) (bs : List Byte) : (s.putLbuf bs).len = { s.len with llen := BitVec.ofNat 8 bs.length } := rfl
@[simp] theorem State.putLbuf_keys (s : State) (bs : List Byte) : (s.putLbuf bs).keys = s.keys := rfl
@[simp] theorem State.putLbuf_nonce (s : State) (bs : List Byte) : (s.putLbuf bs).nonce = s.nonce := rfl
@[simp] theorem State.putLbuf_pecb (s : State) (bs : List Byte) : (s.putLbuf bs).pecb = s.pecb := rfl
@[simp] theorem State.putLbuf_ackbuf (s : State) (bs : List Byte) : (s.putLbuf bs).ackbuf = s.ackbuf := rfl
@[simp] theorem State.putLbuf_mem (s : State) (bs : List Byte) : (s.putLbuf bs).mem = s.mem.writeRange lbufBase bs := rfl
@[simp] theorem State.putLbuf_port (s : State) (bs : List Byte) : (s.putLbuf bs).port = s.port := rfl

@[simp] theorem State.putNbuf_status (s : State) (bs : List Byte) : (s.putNbuf bs).status = s.status := rfl
@[simp] theorem State.putNbuf_events (s : State) (bs : List Byte) : (s.putNbuf bs).events = s.events := rfl
@[simp] theorem State.putNbuf_conf (s : State) (bs : List Byte) : (s.putNbuf bs).conf = s.conf := rfl
@[simp] theorem State.putNbuf_par (s : State) (bs : List Byte) : (s.putNbuf bs).par = s.par := rfl
@[simp] theorem State.putNbuf_parsed (s : State) (bs : List Byte) : (s.putNbuf bs).parsed = s.parsed := rfl
@[simp] theorem State.putNbuf_ctx (s : State) (bs : List Byte) : (s.putNbuf bs).ctx = s.ctx := rfl
@[simp] theorem State.putNbuf_matcher (s : State) (bs : List Byte) : (s.putNbuf bs).matcher = s.matcher := rfl
@[simp] theorem State.putNbuf_len (s : State) (bs : List Byte) : (s.putNbuf bs).len = { s.len with nlen := BitVec.ofNat 8 bs.length } := rfl
@[simp] theorem State.putNbuf_keys (s : State) (bs : List Byte) : (s.putNbuf bs).keys = s.keys := rfl
@[simp] theorem State.putNbuf_nonce (s : State) (bs : List Byte) : (s.putNbuf bs).nonce = s.nonce := rfl
@[simp] theorem State.putNbuf_pecb (s : State) (bs : List Byte) : (s.putNbuf bs).pecb = s.pecb := rfl
@[simp] theorem State.putNbuf_ackbuf (s : State) (bs : List Byte) : (s.putNbuf bs).ackbuf = s.ackbuf := rfl
@[simp] theorem State.putNbuf_mem (s : State) (bs : List Byte) : (s.putNbuf bs).mem = s.mem.writeRange nbufBase bs := rfl
@[simp] theorem State.putNbuf_port (s : State) (bs : List Byte) : (s.putNbuf bs).port = s.port := rfl

@[simp] theorem State.putNbufHeader_status (s : State) (h : Six) : (s.putNbufHeader h).status = s.status := rfl
@[simp] theorem State.putNbufHeader_events (s : State) (h : Six) : (s.putNbufHeader h).events = s.events := rfl
@[simp] theorem State.putNbufHeader_conf (s : State) (h : Six) : (s.putNbufHeader h).conf = s.conf := rfl
@[simp] theorem State.putNbufHeader_par (s : State) (h : Six) : (s.putNbufHeader h).par = s.par := rfl
@[simp] theorem State.putNbufHeader_parsed (s : State) (h : Six) : (s.putNbufHeader h).parsed = s.parsed := rfl
@[simp] theorem State.putNbufHeader_ctx (s : State) (h : Six) : (s.putNbufHeader h).ctx = s.ctx := rfl
@[simp] theorem State.putNbufHeader_matcher (s : State) (h : Six) : (s.putNbufHeader h).matcher = s.matcher := rfl
@[simp] theorem State.putNbufHeader_len (s : State) (h : Six) : (s.putNbufHeader h).len = s.len := rfl
@[simp] theorem State.putNbufHeader_keys (s : State) (h : Six) : (s.putNbufHeader h).keys = s.keys := rfl
@[simp] theorem State.putNbufHeader_nonce (s : State) (h : Six) : (s.putNbufHeader h).nonce = s.nonce := rfl
@[simp] theorem State.putNbufHeader_pecb (s : State) (h : Six) : (s.putNbufHeader h).pecb = s.pecb := rfl
@[simp] theorem State.putNbufHeader_ackbuf (s : State) (h : Six) : (s.putNbufHeader h).ackbuf = s.ackbuf := rfl
@[simp] theorem State.putNbufHeader_mem (s : State) (h : Six) : (s.putNbufHeader h).mem = s.mem.writeRange (nbufBase + 2) (beBytes 6 h) := rfl
@[simp] theorem State.putNbufHeader_port (s : State) (h : Six) : (s.putNbufHeader h).port = s.port := rfl

@[simp] theorem State.illegalCommand_status (s : State) : s.illegalCommand.status = 0x80 := rfl
@[simp] theorem State.illegalCommand_events (s : State) : s.illegalCommand.events = 0x00 := rfl
@[simp] theorem State.illegalCommand_conf (s : State) : s.illegalCommand.conf = s.conf := rfl
@[simp] theorem State.illegalCommand_par (s : State) : s.illegalCommand.par = s.par := rfl
@[simp] theorem State.illegalCommand_parsed (s : State) : s.illegalCommand.parsed = s.parsed := rfl
@[simp] theorem State.illegalCommand_ctx (s : State) : s.illegalCommand.ctx = s.ctx := rfl
@[simp] theorem State.illegalCommand_matcher (s : State) : s.illegalCommand.matcher = s.matcher := rfl
@[simp] theorem State.illegalCommand_len (s : State) : s.illegalCommand.len = s.len := rfl
@[simp] theorem State.illegalCommand_keys (s : State) : s.illegalCommand.keys = s.keys := rfl
@[simp] theorem State.illegalCommand_nonce (s : State) : s.illegalCommand.nonce = s.nonce := rfl
@[simp] theorem State.illegalCommand_pecb (s : State) : s.illegalCommand.pecb = s.pecb := rfl
@[simp] theorem State.illegalCommand_ackbuf (s : State) : s.illegalCommand.ackbuf = s.ackbuf := rfl
@[simp] theorem State.illegalCommand_mem (s : State) : s.illegalCommand.mem = s.mem := rfl
@[simp] theorem State.illegalCommand_port (s : State) : s.illegalCommand.port = s.port := rfl

/-! The context's own updates. -/

@[simp] theorem RxContext.setFlag_lastseqauth (c : RxContext) (f : RFlag) (b : Bool) : (c.setFlag f b).lastseqauth = c.lastseqauth := rfl
@[simp] theorem RxContext.setFlag_lsav (c : RxContext) (f : RFlag) (b : Bool) : (c.setFlag f b).lsav = c.lsav := rfl
@[simp] theorem RxContext.setFlag_rseqzero (c : RxContext) (f : RFlag) (b : Bool) : (c.setFlag f b).rseqzero = c.rseqzero := rfl
@[simp] theorem RxContext.setFlag_blockack (c : RxContext) (f : RFlag) (b : Bool) : (c.setFlag f b).blockack = c.blockack := rfl
@[simp] theorem RxContext.setFlag_segvalid (c : RxContext) (f : RFlag) (b : Bool) : (c.setFlag f b).segvalid = c.segvalid := rfl
@[simp] theorem RxContext.setFlag_segbuf (c : RxContext) (f : RFlag) (b : Bool) : (c.setFlag f b).segbuf = c.segbuf := rfl
@[simp] theorem RxContext.setFlag_seglen (c : RxContext) (f : RFlag) (b : Bool) : (c.setFlag f b).seglen = c.seglen := rfl
theorem RxContext.setFlag_rflags (c : RxContext) (f : RFlag) (b : Bool) : (c.setFlag f b).rflags = setBit c.rflags f.bit b := rfl

end Sys2Proof.Machine
end

