-- ==== Sys2Proof/Laws/Flags.lean ====
section
/-! SUPPORT. What raising an event and writing a flag of RFLAGS can do. -/

namespace Sys2Proof.Machine

theorem Event.bit_lt (e : Event) : e.bit < 8 := by cases e <;> decide

theorem Event.bit_inj (e e' : Event) : e.bit = e'.bit ↔ e = e' := by cases e <;> cases e' <;> decide

theorem RFlag.bit_lt (f : RFlag) : f.bit < 8 := by cases f <;> decide

theorem RFlag.bit_inj (f f' : RFlag) : f.bit = f'.bit ↔ f = f' := by cases f <;> cases f' <;> decide

@[simp] theorem Event.isIn_zero (e : Event) : e.isIn 0#8 = false := by cases e <;> decide

/-- Raising an event adds it to those that stand. -/
@[simp] theorem Event.isIn_setBit (e e' : Event) (ev : Byte) : e'.isIn (setBit ev e.bit true) = (decide (e' = e) || e'.isIn ev) := by
  rw [Event.isIn, setBit_getLsbD _ _ _ _ e.bit_lt]
  by_cases h : e' = e
  · simp [h]
  · have : ¬ e'.bit = e.bit := fun hb => h ((Event.bit_inj _ _).1 hb)
    simp [h, this, Event.isIn]

/-- Writing a flag changes that flag alone. -/
@[simp] theorem RxContext.flag_setFlag (c : RxContext) (f f' : RFlag) (b : Bool) :
    (c.setFlag f b).flag f' = if f' = f then b else c.flag f' := by
  rw [RxContext.flag, RxContext.setFlag_rflags, setBit_getLsbD _ _ _ _ f.bit_lt]
  by_cases h : f' = f
  · simp [h]
  · have : ¬ f'.bit = f.bit := fun hb => h ((RFlag.bit_inj _ _).1 hb)
    simp [h, this, RxContext.flag]

/-- A bit of RFLAGS is its flag. -/
@[simp] theorem RxContext.rflags_bit (c : RxContext) (f : RFlag) : c.rflags.getLsbD f.bit = c.flag f := rfl

/-- A flag of a context is read from RFLAGS alone. -/
@[simp] theorem RxContext.flag_mk (r : Byte) (q : Seq) (l : Byte) (z : BitVec 16) (b v : BitVec 32) (m : Memory)
    (n : Vector (BitVec 4) 32) (f : RFlag) : (RxContext.mk r q l z b v m n).flag f = r.getLsbD f.bit := rfl

end Sys2Proof.Machine
end

