-- ==== Sys2Proof/Laws/Memory.lean ====
section
/-! SUPPORT. What the memory operations can do: a read after a write, for every memory, and the canonical form they keep. -/

namespace Sys2Proof.Machine

@[simp] theorem Memory.read_nil (a : Nat) : Memory.read [] a = 0x00 := rfl

theorem Memory.read_cons (c : Host.Cell) (m : Memory) (a : Nat) :
    Memory.read (c :: m) a = if c.1 = a then c.2 else Memory.read m a := rfl

theorem Memory.read_insert (m : Memory) (a : Nat) (b : Byte) (a' : Nat) (h : ∀ c ∈ m, c.1 ≠ a) :
    Memory.read (Memory.insert m a b) a' = if a' = a then b else Memory.read m a' := by
  induction m with
  | nil =>
    simp only [Memory.insert, Memory.read_cons]
    by_cases hx : a = a' <;> simp [hx, eq_comm]
  | cons c rest ih =>
    have hc : c.1 ≠ a := h c (by simp)
    have ih' := ih (fun d hd => h d (by simp [hd]))
    unfold Memory.insert
    split
    · simp only [Memory.read_cons]
      by_cases hx : a' = a
      · simp [hx]
      · simp [hx, Ne.symm hx]
    · rw [Memory.read_cons, ih', Memory.read_cons]
      by_cases hx : a' = a
      · subst hx
        simp [hc]
      · simp [hx]

theorem Memory.read_filter_ne (m : Memory) (a a' : Nat) :
    Memory.read (m.filter fun c => c.1 != a) a' = if a' = a then 0x00 else Memory.read m a' := by
  induction m with
  | nil => simp [Memory.read_nil]
  | cons c rest ih =>
    by_cases hc : c.1 = a
    · have : (c.1 != a) = false := by simp [hc]
      rw [List.filter_cons_of_neg (by simp [hc]), ih, Memory.read_cons]
      by_cases hx : a' = a
      · simp [hx]
      · have hne : c.1 ≠ a' := fun h => hx (h.symm.trans hc)
        simp [hx, hne]
    · rw [List.filter_cons_of_pos (by simp [hc]), Memory.read_cons, ih, Memory.read_cons]
      by_cases hx : a' = a
      · subst hx
        simp [hc]
      · simp [hx]

/-- Everything one write can do to a read, for every memory. -/
theorem Memory.read_write (m : Memory) (a : Nat) (b : Byte) (a' : Nat) :
    Memory.read (Memory.write m a b) a' = if a' = a then b else Memory.read m a' := by
  unfold Memory.write
  simp only
  split
  · rename_i hb
    rw [Memory.read_filter_ne, hb]
    rfl
  · rw [Memory.read_insert _ _ _ _ (by intro c hc; simpa using (List.mem_filter.mp hc).2), Memory.read_filter_ne]
    by_cases hx : a' = a <;> simp [hx]

@[simp] theorem Memory.read_write_same (m : Memory) (a : Nat) (b : Byte) : Memory.read (Memory.write m a b) a = b := by
  simp [Memory.read_write]

theorem Memory.read_write_other (m : Memory) (a : Nat) (b : Byte) (a' : Nat) (h : a' ≠ a) :
    Memory.read (Memory.write m a b) a' = Memory.read m a' := by simp [Memory.read_write, h]

/-- A byte outside the bytes written reads as before. -/
theorem Memory.read_writeRange_outside (m : Memory) (base : Nat) (bs : List Byte) (a : Nat) (h : a < base ∨ base + bs.length ≤ a) :
    Memory.read (Memory.writeRange m base bs) a = Memory.read m a := by
  induction bs generalizing m base with
  | nil => rfl
  | cons b rest ih =>
    simp only [List.length_cons] at h
    rw [Memory.writeRange, ih _ _ (by omega), Memory.read_write_other _ _ _ _ (by omega)]

/-- A byte inside the bytes written reads as what was written there. -/
theorem Memory.read_writeRange_inside (m : Memory) (base : Nat) (bs : List Byte) (j : Nat) (h : j < bs.length) :
    Memory.read (Memory.writeRange m base bs) (base + j) = bs[j] := by
  induction bs generalizing m base j with
  | nil => simp at h
  | cons b rest ih =>
    rw [Memory.writeRange]
    cases j with
    | zero =>
      rw [Nat.add_zero, Memory.read_writeRange_outside _ _ _ _ (by omega)]
      simp
    | succ j =>
      have := ih (Memory.write m base b) (base + 1) j (by simpa using h)
      rw [show base + (j + 1) = base + 1 + j by omega, this]
      simp

@[simp] theorem Memory.readRange_length (m : Memory) (base n : Nat) : (Memory.readRange m base n).length = n := by
  simp [Memory.readRange]

theorem Memory.readRange_getElem (m : Memory) (base n j : Nat) (h : j < (Memory.readRange m base n).length) :
    (Memory.readRange m base n)[j] = Memory.read m (base + j) := by simp [Memory.readRange]

@[simp] theorem Memory.readRange_zero (m : Memory) (base : Nat) : Memory.readRange m base 0 = [] := rfl

theorem Memory.readRange_succ (m : Memory) (base n : Nat) :
    Memory.readRange m base (n + 1) = Memory.read m base :: Memory.readRange m (base + 1) n := by
  apply List.ext_getElem
  · simp
  · intro j h1 h2
    rw [Memory.readRange_getElem]
    cases j with
    | zero => simp
    | succ j =>
      simp only [List.getElem_cons_succ, Memory.readRange_getElem]
      congr 1
      omega

/-- A range splits at any point. -/
theorem Memory.readRange_add (m : Memory) (base a b : Nat) :
    Memory.readRange m base (a + b) = Memory.readRange m base a ++ Memory.readRange m (base + a) b := by
  induction a generalizing base with
  | zero => simp
  | succ a ih =>
    rw [show a + 1 + b = a + b + 1 by omega, Memory.readRange_succ, ih, Memory.readRange_succ, List.cons_append]
    congr 3
    omega

theorem Memory.readRange_take (m : Memory) (base n k : Nat) (h : k ≤ n) :
    (Memory.readRange m base n).take k = Memory.readRange m base k := by
  obtain ⟨d, rfl⟩ := Nat.exists_eq_add_of_le h
  rw [Memory.readRange_add, List.take_left' (by simp)]

theorem Memory.readRange_drop (m : Memory) (base n k : Nat) (h : k ≤ n) :
    (Memory.readRange m base n).drop k = Memory.readRange m (base + k) (n - k) := by
  obtain ⟨d, rfl⟩ := Nat.exists_eq_add_of_le h
  rw [Memory.readRange_add, List.drop_left' (by simp), Nat.add_sub_cancel_left]

/-- The range just written reads as what was written. -/
theorem Memory.readRange_writeRange (m : Memory) (base : Nat) (bs : List Byte) (n : Nat) (h : n = bs.length) :
    Memory.readRange (Memory.writeRange m base bs) base n = bs := by
  subst h
  apply List.ext_getElem
  · simp
  · intro j h1 h2
    rw [Memory.readRange_getElem, Memory.read_writeRange_inside _ _ _ _ h2]

/-- A range that no written byte lies in reads as before. -/
theorem Memory.readRange_writeRange_disjoint (m : Memory) (base : Nat) (bs : List Byte) (lo n : Nat)
    (h : lo + n ≤ base ∨ base + bs.length ≤ lo) :
    Memory.readRange (Memory.writeRange m base bs) lo n = Memory.readRange m lo n := by
  apply List.ext_getElem
  · simp
  · intro j h1 h2
    simp only [Memory.readRange_length] at h1
    rw [Memory.readRange_getElem, Memory.readRange_getElem, Memory.read_writeRange_outside _ _ _ _ (by omega)]

/-! The canonical form. -/

theorem Memory.mem_insert {m : Memory} {a : Nat} {b : Byte} {c : Host.Cell} (h : c ∈ Memory.insert m a b) : c = (a, b) ∨ c ∈ m := by
  induction m with
  | nil => simpa [Memory.insert] using h
  | cons d rest ih =>
    unfold Memory.insert at h
    split at h
    · simpa using h
    · rcases List.mem_cons.mp h with h | h
      · simp [h]
      · rcases ih h with h | h <;> simp [h]

theorem Memory.insert_sorted {m : Memory} {a : Nat} {b : Byte} (hm : List.Pairwise (fun c d : Host.Cell => c.1 < d.1) m)
    (ha : ∀ c ∈ m, c.1 ≠ a) : List.Pairwise (fun c d : Host.Cell => c.1 < d.1) (Memory.insert m a b) := by
  induction m with
  | nil => simp [Memory.insert]
  | cons d rest ih =>
    have hp := List.pairwise_cons.mp hm
    unfold Memory.insert
    split
    · rename_i hlt
      refine List.pairwise_cons.mpr ⟨?_, hm⟩
      intro c hc
      rcases List.mem_cons.mp hc with rfl | hc
      · exact hlt
      · exact Nat.lt_trans hlt (hp.1 c hc)
    · rename_i hge
      refine List.pairwise_cons.mpr ⟨?_, ih hp.2 fun c hc => ha c (by simp [hc])⟩
      intro c hc
      rcases Memory.mem_insert hc with rfl | hc
      · have := ha d (by simp)
        show d.1 < a
        omega
      · exact hp.1 c hc

/-- Every write keeps the canonical form. -/
theorem Memory.write_wf {m : Memory} (a : Nat) (b : Byte) (h : Memory.wf m) : Memory.wf (Memory.write m a b) := by
  have hs : List.Pairwise (fun c d : Host.Cell => c.1 < d.1) (m.filter fun c => c.1 != a) := h.1.filter _
  have hv : ∀ c ∈ m.filter fun c => c.1 != a, c.2 ≠ Memory.unlisted := fun c hc => h.2 c (List.mem_filter.mp hc).1
  unfold Memory.write
  simp only
  split
  · exact ⟨hs, hv⟩
  · rename_i hb
    refine ⟨Memory.insert_sorted hs (by intro c hc; simpa using (List.mem_filter.mp hc).2), ?_⟩
    intro c hc
    rcases Memory.mem_insert hc with rfl | hc
    · exact hb
    · exact hv c hc

/-- Writing a range keeps the canonical form. -/
theorem Memory.writeRange_wf {m : Memory} (base : Nat) (bs : List Byte) (h : Memory.wf m) : Memory.wf (Memory.writeRange m base bs) := by
  induction bs generalizing m base with
  | nil => exact h
  | cons b rest ih => exact ih _ (Memory.write_wf _ _ h)

theorem Memory.nil_wf : Memory.wf [] := ⟨List.Pairwise.nil, fun _ hc => absurd hc (List.not_mem_nil)⟩

/-- Which cells a write can leave: the old ones and the one written. -/
theorem Memory.mem_write {m : Memory} {a : Nat} {b : Byte} {c : Host.Cell} (h : c ∈ Memory.write m a b) : c = (a, b) ∨ c ∈ m := by
  unfold Memory.write at h
  simp only at h
  split at h
  · exact .inr (List.mem_filter.mp h).1
  · rcases Memory.mem_insert h with h | h
    · exact .inl h
    · exact .inr (List.mem_filter.mp h).1

/-- Which addresses writing a range can list: the old ones and those of the range. -/
theorem Memory.mem_writeRange {m : Memory} {base : Nat} {bs : List Byte} {c : Host.Cell} (h : c ∈ Memory.writeRange m base bs) :
    (base ≤ c.1 ∧ c.1 < base + bs.length) ∨ c ∈ m := by
  induction bs generalizing m base with
  | nil => exact .inr h
  | cons b rest ih =>
    simp only [List.length_cons]
    rcases ih h with h | h
    · exact .inl (by omega)
    · rcases Memory.mem_write h with h | h
      · subst h
        exact .inl (by simp)
      · exact .inr h

end Sys2Proof.Machine
end

