-- ==== Sys2Proof/Laws/PerInstr.lean ====
section
/-! SUPPORT. Statements about every command as syntax, one lemma per constructor. -/

/-- The opcode of a command is one that its group lists (30_encoding.md R92), and its group and function are its high and low four bits (R90). -/
def Sys2Proof.Laws.GroupListsEncoding.Statement (i : Sys2Proof.Instr) : Prop :=
  Sys2Proof.commandByte (Sys2Proof.encode i) = true ∧
    (Sys2Proof.encode i).extractLsb' 4 4 = i.groupFn.1 ∧ (Sys2Proof.encode i).extractLsb' 0 4 = i.groupFn.2

theorem Sys2Proof.Laws.GroupListsEncoding.nonceNet : Sys2Proof.Laws.GroupListsEncoding.Statement .nonceNet := ⟨by decide, by decide, by decide⟩

theorem Sys2Proof.Laws.GroupListsEncoding.nonceApp : Sys2Proof.Laws.GroupListsEncoding.Statement .nonceApp := ⟨by decide, by decide, by decide⟩

theorem Sys2Proof.Laws.GroupListsEncoding.nonceDev : Sys2Proof.Laws.GroupListsEncoding.Statement .nonceDev := ⟨by decide, by decide, by decide⟩

theorem Sys2Proof.Laws.GroupListsEncoding.nonceProxy : Sys2Proof.Laws.GroupListsEncoding.Statement .nonceProxy := ⟨by decide, by decide, by decide⟩

theorem Sys2Proof.Laws.GroupListsEncoding.ccmEnc : Sys2Proof.Laws.GroupListsEncoding.Statement .ccmEnc := ⟨by decide, by decide, by decide⟩

theorem Sys2Proof.Laws.GroupListsEncoding.ccmDec : Sys2Proof.Laws.GroupListsEncoding.Statement .ccmDec := ⟨by decide, by decide, by decide⟩

theorem Sys2Proof.Laws.GroupListsEncoding.utEnc : Sys2Proof.Laws.GroupListsEncoding.Statement .utEnc := ⟨by decide, by decide, by decide⟩

theorem Sys2Proof.Laws.GroupListsEncoding.utDec : Sys2Proof.Laws.GroupListsEncoding.Statement .utDec := ⟨by decide, by decide, by decide⟩

theorem Sys2Proof.Laws.GroupListsEncoding.pecbGen : Sys2Proof.Laws.GroupListsEncoding.Statement .pecbGen := ⟨by decide, by decide, by decide⟩

theorem Sys2Proof.Laws.GroupListsEncoding.hdrObf : Sys2Proof.Laws.GroupListsEncoding.Statement .hdrObf := ⟨by decide, by decide, by decide⟩

theorem Sys2Proof.Laws.GroupListsEncoding.hdrDeobf : Sys2Proof.Laws.GroupListsEncoding.Statement .hdrDeobf := ⟨by decide, by decide, by decide⟩

theorem Sys2Proof.Laws.GroupListsEncoding.netEnc : Sys2Proof.Laws.GroupListsEncoding.Statement .netEnc := ⟨by decide, by decide, by decide⟩

theorem Sys2Proof.Laws.GroupListsEncoding.netDec : Sys2Proof.Laws.GroupListsEncoding.Statement .netDec := ⟨by decide, by decide, by decide⟩

theorem Sys2Proof.Laws.GroupListsEncoding.proxyEnc : Sys2Proof.Laws.GroupListsEncoding.Statement .proxyEnc := ⟨by decide, by decide, by decide⟩

theorem Sys2Proof.Laws.GroupListsEncoding.proxyDec : Sys2Proof.Laws.GroupListsEncoding.Statement .proxyDec := ⟨by decide, by decide, by decide⟩

theorem Sys2Proof.Laws.GroupListsEncoding.ltFrame : Sys2Proof.Laws.GroupListsEncoding.Statement .ltFrame := ⟨by decide, by decide, by decide⟩

theorem Sys2Proof.Laws.GroupListsEncoding.ltParse : Sys2Proof.Laws.GroupListsEncoding.Statement .ltParse := ⟨by decide, by decide, by decide⟩

theorem Sys2Proof.Laws.GroupListsEncoding.tmrIncExp : Sys2Proof.Laws.GroupListsEncoding.Statement .tmrIncExp := ⟨by decide, by decide, by decide⟩

theorem Sys2Proof.Laws.GroupListsEncoding.tmrAckExp : Sys2Proof.Laws.GroupListsEncoding.Statement .tmrAckExp := ⟨by decide, by decide, by decide⟩

theorem Sys2Proof.Laws.GroupListsEncoding.rxReset : Sys2Proof.Laws.GroupListsEncoding.Statement .rxReset := ⟨by decide, by decide, by decide⟩

theorem Sys2Proof.Laws.GroupListsEncoding.backMatch : Sys2Proof.Laws.GroupListsEncoding.Statement .backMatch := ⟨by decide, by decide, by decide⟩
end

