-- ==== Sys2Proof/Laws/Reassembly.lean ====
section
/-! SUPPORT. What the steps of LT_PARSE can do: one lemma per field per step, and the slots of the segment store. -/

namespace Sys2Proof.Machine

@[simp] theorem State.startAckTimer_status (s : State) : s.startAckTimer.status = s.status := rfl
@[simp] theorem State.startAckTimer_events (s : State) : s.startAckTimer.events = setBit s.events Event.ackStart.bit true := rfl
@[simp] theorem State.startAckTimer_conf (s : State) : s.startAckTimer.conf = s.conf := rfl
@[simp] theorem State.startAckTimer_par (s : State) : s.startAckTimer.par = s.par := rfl
@[simp] theorem State.startAckTimer_parsed (s : State) : s.startAckTimer.parsed = { s.parsed with acktmr := BitVec.ofNat 16 (Config.ackBaseMs + Config.ackPerTtlMs * s.ttl.toNat) } := rfl
@[simp] theorem State.startAckTimer_ctx (s : State) : s.startAckTimer.ctx = s.ctx.setFlag .ackRun true := rfl
@[simp] theorem State.startAckTimer_matcher (s : State) : s.startAckTimer.matcher = s.matcher := rfl
@[simp] theorem State.startAckTimer_len (s : State) : s.startAckTimer.len = s.len := rfl
@[simp] theorem State.startAckTimer_keys (s : State) : s.startAckTimer.keys = s.keys := rfl
@[simp] theorem State.startAckTimer_nonce (s : State) : s.startAckTimer.nonce = s.nonce := rfl
@[simp] theorem State.startAckTimer_pecb (s : State) : s.startAckTimer.pecb = s.pecb := rfl
@[simp] theorem State.startAckTimer_ackbuf (s : State) : s.startAckTimer.ackbuf = s.ackbuf := rfl
@[simp] theorem State.startAckTimer_mem (s : State) : s.startAckTimer.mem = s.mem := rfl
@[simp] theorem State.startAckTimer_port (s : State) : s.startAckTimer.port = s.port := rfl

@[simp] theorem State.cancelAckTimer_status (s : State) : s.cancelAckTimer.status = s.status := rfl
@[simp] theorem State.cancelAckTimer_events (s : State) : s.cancelAckTimer.events = setBit s.events Event.ackCancel.bit true := rfl
@[simp] theorem State.cancelAckTimer_conf (s : State) : s.cancelAckTimer.conf = s.conf := rfl
@[simp] theorem State.cancelAckTimer_par (s : State) : s.cancelAckTimer.par = s.par := rfl
@[simp] theorem State.cancelAckTimer_parsed (s : State) : s.cancelAckTimer.parsed = s.parsed := rfl
@[simp] theorem State.cancelAckTimer_ctx (s : State) : s.cancelAckTimer.ctx = s.ctx.setFlag .ackRun false := rfl
@[simp] theorem State.cancelAckTimer_matcher (s : State) : s.cancelAckTimer.matcher = s.matcher := rfl
@[simp] theorem State.cancelAckTimer_len (s : State) : s.cancelAckTimer.len = s.len := rfl
@[simp] theorem State.cancelAckTimer_keys (s : State) : s.cancelAckTimer.keys = s.keys := rfl
@[simp] theorem State.cancelAckTimer_nonce (s : State) : s.cancelAckTimer.nonce = s.nonce := rfl
@[simp] theorem State.cancelAckTimer_pecb (s : State) : s.cancelAckTimer.pecb = s.pecb := rfl
@[simp] theorem State.cancelAckTimer_ackbuf (s : State) : s.cancelAckTimer.ackbuf = s.ackbuf := rfl
@[simp] theorem State.cancelAckTimer_mem (s : State) : s.cancelAckTimer.mem = s.mem := rfl
@[simp] theorem State.cancelAckTimer_port (s : State) : s.cancelAckTimer.port = s.port := rfl

@[simp] theorem State.sendAckNow_status (s : State) : s.sendAckNow.status = s.status := rfl
@[simp] theorem State.sendAckNow_events (s : State) : s.sendAckNow.events = setBit (setBit s.events Event.ackCancel.bit true) Event.sendAck.bit true := rfl
@[simp] theorem State.sendAckNow_conf (s : State) : s.sendAckNow.conf = s.conf := rfl
@[simp] theorem State.sendAckNow_par (s : State) : s.sendAckNow.par = s.par := rfl
@[simp] theorem State.sendAckNow_parsed (s : State) : s.sendAckNow.parsed = s.parsed := rfl
@[simp] theorem State.sendAckNow_ctx (s : State) : s.sendAckNow.ctx = (s.ctx.setFlag .ackSent true).setFlag .ackRun false := rfl
@[simp] theorem State.sendAckNow_matcher (s : State) : s.sendAckNow.matcher = s.matcher := rfl
@[simp] theorem State.sendAckNow_len (s : State) : s.sendAckNow.len = s.len := rfl
@[simp] theorem State.sendAckNow_keys (s : State) : s.sendAckNow.keys = s.keys := rfl
@[simp] theorem State.sendAckNow_nonce (s : State) : s.sendAckNow.nonce = s.nonce := rfl
@[simp] theorem State.sendAckNow_pecb (s : State) : s.sendAckNow.pecb = s.pecb := rfl
@[simp] theorem State.sendAckNow_ackbuf (s : State) : s.sendAckNow.ackbuf = s.ackPayloadNow := rfl
@[simp] theorem State.sendAckNow_mem (s : State) : s.sendAckNow.mem = s.mem := rfl
@[simp] theorem State.sendAckNow_port (s : State) : s.sendAckNow.port = s.port := rfl

@[simp] theorem State.noteHeaderByte_status (s : State) (h0 : BitVec 7) (z : Bool) : (s.noteHeaderByte h0 z).status = s.status := by unfold State.noteHeaderByte; split <;> rfl
@[simp] theorem State.noteHeaderByte_events (s : State) (h0 : BitVec 7) (z : Bool) : (s.noteHeaderByte h0 z).events = s.events := by unfold State.noteHeaderByte; split <;> rfl
@[simp] theorem State.noteHeaderByte_conf (s : State) (h0 : BitVec 7) (z : Bool) : (s.noteHeaderByte h0 z).conf = s.conf := by unfold State.noteHeaderByte; split <;> rfl
@[simp] theorem State.noteHeaderByte_parsed (s : State) (h0 : BitVec 7) (z : Bool) : (s.noteHeaderByte h0 z).parsed = s.parsed := by unfold State.noteHeaderByte; split <;> rfl
@[simp] theorem State.noteHeaderByte_ctx (s : State) (h0 : BitVec 7) (z : Bool) : (s.noteHeaderByte h0 z).ctx = s.ctx := by unfold State.noteHeaderByte; split <;> rfl
@[simp] theorem State.noteHeaderByte_matcher (s : State) (h0 : BitVec 7) (z : Bool) : (s.noteHeaderByte h0 z).matcher = s.matcher := by unfold State.noteHeaderByte; split <;> rfl
@[simp] theorem State.noteHeaderByte_len (s : State) (h0 : BitVec 7) (z : Bool) : (s.noteHeaderByte h0 z).len = s.len := by unfold State.noteHeaderByte; split <;> rfl
@[simp] theorem State.noteHeaderByte_keys (s : State) (h0 : BitVec 7) (z : Bool) : (s.noteHeaderByte h0 z).keys = s.keys := by unfold State.noteHeaderByte; split <;> rfl
@[simp] theorem State.noteHeaderByte_nonce (s : State) (h0 : BitVec 7) (z : Bool) : (s.noteHeaderByte h0 z).nonce = s.nonce := by unfold State.noteHeaderByte; split <;> rfl
@[simp] theorem State.noteHeaderByte_pecb (s : State) (h0 : BitVec 7) (z : Bool) : (s.noteHeaderByte h0 z).pecb = s.pecb := by unfold State.noteHeaderByte; split <;> rfl
@[simp] theorem State.noteHeaderByte_ackbuf (s : State) (h0 : BitVec 7) (z : Bool) : (s.noteHeaderByte h0 z).ackbuf = s.ackbuf := by unfold State.noteHeaderByte; split <;> rfl
@[simp] theorem State.noteHeaderByte_mem (s : State) (h0 : BitVec 7) (z : Bool) : (s.noteHeaderByte h0 z).mem = s.mem := by unfold State.noteHeaderByte; split <;> rfl
@[simp] theorem State.noteHeaderByte_port (s : State) (h0 : BitVec 7) (z : Bool) : (s.noteHeaderByte h0 z).port = s.port := by unfold State.noteHeaderByte; split <;> rfl

@[simp] theorem State.noteSegment_status (s : State) (g : Segment) : (s.noteSegment g).status = s.status := by simp [State.noteSegment]
@[simp] theorem State.noteSegment_events (s : State) (g : Segment) : (s.noteSegment g).events = s.events := by simp [State.noteSegment]
@[simp] theorem State.noteSegment_conf (s : State) (g : Segment) : (s.noteSegment g).conf = s.conf := by simp [State.noteSegment]
@[simp] theorem State.noteSegment_par (s : State) (g : Segment) : (s.noteSegment g).par = (s.noteHeaderByte g.h0 g.szmic).par := by simp [State.noteSegment]
@[simp] theorem State.noteSegment_parsed (s : State) (g : Segment) : (s.noteSegment g).parsed = { s.parsed with rxseg := 1#1 ++ 0#2 ++ g.segN, rxsego := 0#3 ++ g.segO } := by simp [State.noteSegment]
@[simp] theorem State.noteSegment_ctx (s : State) (g : Segment) : (s.noteSegment g).ctx = s.ctx := by simp [State.noteSegment]
@[simp] theorem State.noteSegment_matcher (s : State) (g : Segment) : (s.noteSegment g).matcher = s.matcher := by simp [State.noteSegment]
@[simp] theorem State.noteSegment_len (s : State) (g : Segment) : (s.noteSegment g).len = s.len := by simp [State.noteSegment]
@[simp] theorem State.noteSegment_keys (s : State) (g : Segment) : (s.noteSegment g).keys = s.keys := by simp [State.noteSegment]
@[simp] theorem State.noteSegment_nonce (s : State) (g : Segment) : (s.noteSegment g).nonce = s.nonce := by simp [State.noteSegment]
@[simp] theorem State.noteSegment_pecb (s : State) (g : Segment) : (s.noteSegment g).pecb = s.pecb := by simp [State.noteSegment]
@[simp] theorem State.noteSegment_ackbuf (s : State) (g : Segment) : (s.noteSegment g).ackbuf = s.ackbuf := by simp [State.noteSegment]
@[simp] theorem State.noteSegment_mem (s : State) (g : Segment) : (s.noteSegment g).mem = s.mem := by simp [State.noteSegment]
@[simp] theorem State.noteSegment_port (s : State) (g : Segment) : (s.noteSegment g).port = s.port := by simp [State.noteSegment]

@[simp] theorem State.newSeqAuth_status (s : State) (t : Seq) (z : BitVec 13) : (s.newSeqAuth t z).status = s.status := by unfold State.newSeqAuth; dsimp only; split <;> (try split) <;> rfl
@[simp] theorem State.newSeqAuth_conf (s : State) (t : Seq) (z : BitVec 13) : (s.newSeqAuth t z).conf = s.conf := by unfold State.newSeqAuth; dsimp only; split <;> (try split) <;> rfl
@[simp] theorem State.newSeqAuth_par (s : State) (t : Seq) (z : BitVec 13) : (s.newSeqAuth t z).par = s.par := by unfold State.newSeqAuth; dsimp only; split <;> (try split) <;> rfl
@[simp] theorem State.newSeqAuth_matcher (s : State) (t : Seq) (z : BitVec 13) : (s.newSeqAuth t z).matcher = s.matcher := by unfold State.newSeqAuth; dsimp only; split <;> (try split) <;> rfl
@[simp] theorem State.newSeqAuth_len (s : State) (t : Seq) (z : BitVec 13) : (s.newSeqAuth t z).len = s.len := by unfold State.newSeqAuth; dsimp only; split <;> (try split) <;> rfl
@[simp] theorem State.newSeqAuth_keys (s : State) (t : Seq) (z : BitVec 13) : (s.newSeqAuth t z).keys = s.keys := by unfold State.newSeqAuth; dsimp only; split <;> (try split) <;> rfl
@[simp] theorem State.newSeqAuth_nonce (s : State) (t : Seq) (z : BitVec 13) : (s.newSeqAuth t z).nonce = s.nonce := by unfold State.newSeqAuth; dsimp only; split <;> (try split) <;> rfl
@[simp] theorem State.newSeqAuth_pecb (s : State) (t : Seq) (z : BitVec 13) : (s.newSeqAuth t z).pecb = s.pecb := by unfold State.newSeqAuth; dsimp only; split <;> (try split) <;> rfl
@[simp] theorem State.newSeqAuth_ackbuf (s : State) (t : Seq) (z : BitVec 13) : (s.newSeqAuth t z).ackbuf = s.ackbuf := by unfold State.newSeqAuth; dsimp only; split <;> (try split) <;> rfl
@[simp] theorem State.newSeqAuth_mem (s : State) (t : Seq) (z : BitVec 13) : (s.newSeqAuth t z).mem = s.mem := by unfold State.newSeqAuth; dsimp only; split <;> (try split) <;> rfl
@[simp] theorem State.newSeqAuth_port (s : State) (t : Seq) (z : BitVec 13) : (s.newSeqAuth t z).port = s.port := by unfold State.newSeqAuth; dsimp only; split <;> (try split) <;> rfl

@[simp] theorem State.sameSeqAuth_status (s : State) : s.sameSeqAuth.status = s.status := by unfold State.sameSeqAuth; dsimp only; split <;> rfl
@[simp] theorem State.sameSeqAuth_conf (s : State) : s.sameSeqAuth.conf = s.conf := by unfold State.sameSeqAuth; dsimp only; split <;> rfl
@[simp] theorem State.sameSeqAuth_par (s : State) : s.sameSeqAuth.par = s.par := by unfold State.sameSeqAuth; dsimp only; split <;> rfl
@[simp] theorem State.sameSeqAuth_matcher (s : State) : s.sameSeqAuth.matcher = s.matcher := by unfold State.sameSeqAuth; dsimp only; split <;> rfl
@[simp] theorem State.sameSeqAuth_len (s : State) : s.sameSeqAuth.len = s.len := by unfold State.sameSeqAuth; dsimp only; split <;> rfl
@[simp] theorem State.sameSeqAuth_keys (s : State) : s.sameSeqAuth.keys = s.keys := by unfold State.sameSeqAuth; dsimp only; split <;> rfl
@[simp] theorem State.sameSeqAuth_nonce (s : State) : s.sameSeqAuth.nonce = s.nonce := by unfold State.sameSeqAuth; dsimp only; split <;> rfl
@[simp] theorem State.sameSeqAuth_pecb (s : State) : s.sameSeqAuth.pecb = s.pecb := by unfold State.sameSeqAuth; dsimp only; split <;> rfl
@[simp] theorem State.sameSeqAuth_ackbuf (s : State) : s.sameSeqAuth.ackbuf = s.ackbuf := by unfold State.sameSeqAuth; dsimp only; split <;> rfl
@[simp] theorem State.sameSeqAuth_mem (s : State) : s.sameSeqAuth.mem = s.mem := by unfold State.sameSeqAuth; dsimp only; split <;> rfl
@[simp] theorem State.sameSeqAuth_port (s : State) : s.sameSeqAuth.port = s.port := by unfold State.sameSeqAuth; dsimp only; split <;> rfl

@[simp] theorem State.deliver_status (s : State) (t : Seq) (segN : BitVec 5) : (s.deliver t segN).status = 0x00 := by unfold State.deliver; dsimp only; split <;> rfl
@[simp] theorem State.deliver_conf (s : State) (t : Seq) (segN : BitVec 5) : (s.deliver t segN).conf = s.conf := by unfold State.deliver; dsimp only; split <;> rfl
@[simp] theorem State.deliver_par (s : State) (t : Seq) (segN : BitVec 5) : (s.deliver t segN).par = { s.par with tseq := t } := by unfold State.deliver; dsimp only; split <;> rfl
@[simp] theorem State.deliver_parsed (s : State) (t : Seq) (segN : BitVec 5) : (s.deliver t segN).parsed = s.parsed := by unfold State.deliver; dsimp only; split <;> rfl
@[simp] theorem State.deliver_matcher (s : State) (t : Seq) (segN : BitVec 5) : (s.deliver t segN).matcher = s.matcher := by unfold State.deliver; dsimp only; split <;> rfl
@[simp] theorem State.deliver_len (s : State) (t : Seq) (segN : BitVec 5) : (s.deliver t segN).len = (s.putUbuf (s.ctx.assembled segN)).len := by unfold State.deliver; dsimp only; split <;> rfl
@[simp] theorem State.deliver_keys (s : State) (t : Seq) (segN : BitVec 5) : (s.deliver t segN).keys = s.keys := by unfold State.deliver; dsimp only; split <;> rfl
@[simp] theorem State.deliver_nonce (s : State) (t : Seq) (segN : BitVec 5) : (s.deliver t segN).nonce = s.nonce := by unfold State.deliver; dsimp only; split <;> rfl
@[simp] theorem State.deliver_pecb (s : State) (t : Seq) (segN : BitVec 5) : (s.deliver t segN).pecb = s.pecb := by unfold State.deliver; dsimp only; split <;> rfl
@[simp] theorem State.deliver_mem (s : State) (t : Seq) (segN : BitVec 5) : (s.deliver t segN).mem = s.mem.writeRange ubufBase (s.ctx.assembled segN) := by unfold State.deliver; dsimp only; split <;> rfl
@[simp] theorem State.deliver_port (s : State) (t : Seq) (segN : BitVec 5) : (s.deliver t segN).port = s.port := by unfold State.deliver; dsimp only; split <;> rfl

/-! The steps that branch: their context, events and parse outputs, said once. -/

/-- The header byte's registers: COPC and TCTRL.SZMIC for control, TCTRL for access. -/
theorem State.noteHeaderByte_par (s : State) (h0 : BitVec 7) (z : Bool) : (s.noteHeaderByte h0 z).par =
    if s.ctl then { s.par with copc := 0#1 ++ h0, tctrl := setBit s.par.tctrl 7 false }
    else { s.par with tctrl := BitVec.ofBool z ++ h0 } := by
  unfold State.noteHeaderByte; split <;> simp_all

/-- The header byte leaves the destination, and what the acknowledgement timer's duration is computed from. -/
@[simp] theorem State.noteHeaderByte_dst (s : State) (h0 : BitVec 7) (z : Bool) : (s.noteHeaderByte h0 z).par.dst = s.par.dst := by
  rw [State.noteHeaderByte_par]; split <;> rfl

@[simp] theorem State.noteHeaderByte_ctlttl (s : State) (h0 : BitVec 7) (z : Bool) : (s.noteHeaderByte h0 z).par.ctlttl = s.par.ctlttl := by
  rw [State.noteHeaderByte_par]; split <;> rfl

/-- The acknowledgement timer's flag after the new-SeqAuth branch. -/
theorem State.newSeqAuth_ctx (s : State) (t : Seq) (z : BitVec 13) : (s.newSeqAuth t z).ctx =
    if unicast s.par.dst then (s.ctx.start t z).setFlag .ackRun true
    else if s.ctx.flag .ackRun then (s.ctx.start t z).setFlag .ackRun false
    else s.ctx.start t z := by
  have hf : (s.ctx.start t z).flag .ackRun = s.ctx.flag .ackRun := by simp [RxContext.start]
  unfold State.newSeqAuth
  simp only [State.raise_ctx, State.setCtx_ctx, hf]
  split
  · simp
  · split <;> simp

/-- The events the new-SeqAuth branch adds. -/
theorem State.newSeqAuth_isIn (s : State) (t : Seq) (z : BitVec 13) (e : Event) : e.isIn (s.newSeqAuth t z).events =
    ((if unicast s.par.dst then decide (e = .ackStart) else s.ctx.flag .ackRun && decide (e = .ackCancel)) || decide (e = .incStart) ||
      e.isIn s.events) := by
  have hf : (s.ctx.start t z).flag .ackRun = s.ctx.flag .ackRun := by simp [RxContext.start]
  unfold State.newSeqAuth
  simp only [State.raise_ctx, State.setCtx_ctx, hf]
  split
  · simp [Bool.or_assoc]
  · split <;> simp_all [Bool.or_assoc]

/-- ACKTMR after the new-SeqAuth branch. -/
theorem State.newSeqAuth_parsed (s : State) (t : Seq) (z : BitVec 13) : (s.newSeqAuth t z).parsed =
    if unicast s.par.dst then s.startAckTimer.parsed else s.parsed := by
  unfold State.newSeqAuth
  dsimp only
  split
  · rfl
  · split <;> rfl

/-- The acknowledgement timer's flag after the same-SeqAuth branch. -/
theorem State.sameSeqAuth_ctx (s : State) : s.sameSeqAuth.ctx =
    if !s.ctx.flag .ackRun && unicast s.par.dst then s.ctx.setFlag .ackRun true else s.ctx := by
  unfold State.sameSeqAuth
  cases h : (!s.ctx.flag .ackRun && unicast s.par.dst) <;> simp only [State.raise_ctx, h] <;> rfl

/-- The events the same-SeqAuth branch adds. -/
theorem State.sameSeqAuth_isIn (s : State) (e : Event) : e.isIn s.sameSeqAuth.events =
    ((!s.ctx.flag .ackRun && unicast s.par.dst) && decide (e = .ackStart) || decide (e = .incStart) || e.isIn s.events) := by
  unfold State.sameSeqAuth
  cases h : (!s.ctx.flag .ackRun && unicast s.par.dst) <;> simp only [State.raise_ctx, h] <;> simp [Bool.or_assoc]

/-- ACKTMR after the same-SeqAuth branch. -/
theorem State.sameSeqAuth_parsed (s : State) : s.sameSeqAuth.parsed =
    if !s.ctx.flag .ackRun && unicast s.par.dst then s.startAckTimer.parsed else s.parsed := by
  unfold State.sameSeqAuth
  cases h : (!s.ctx.flag .ackRun && unicast s.par.dst) <;> simp only [State.raise_ctx, h] <;> rfl

/-- The context a completion leaves. -/
theorem State.deliver_ctx (s : State) (t : Seq) (segN : BitVec 5) : (s.deliver t segN).ctx =
    { (if unicast s.par.dst && !s.ctx.flag .ackSent then ((s.ctx.setFlag .incRun false).setFlag .ackSent true).setFlag .ackRun false
      else s.ctx.setFlag .incRun false) with segvalid := 0 } := by
  unfold State.deliver
  simp only [State.raise_ctx, State.setCtx_ctx, State.setPar_ctx, State.putUbuf_ctx, RxContext.flag_setFlag]
  cases h : (unicast s.par.dst && !s.ctx.flag .ackSent) <;> simp [h]

/-- The events a completion adds. -/
theorem State.deliver_isIn (s : State) (t : Seq) (segN : BitVec 5) (e : Event) : e.isIn (s.deliver t segN).events =
    ((unicast s.par.dst && !s.ctx.flag .ackSent) && (decide (e = .sendAck) || decide (e = .ackCancel)) || decide (e = .complete) ||
      decide (e = .incCancel) || e.isIn s.events) := by
  unfold State.deliver
  simp only [State.raise_ctx, State.setCtx_ctx, State.setPar_ctx, State.putUbuf_ctx, RxContext.flag_setFlag]
  cases h : (unicast s.par.dst && !s.ctx.flag .ackSent) <;> cases e <;> simp [h]

/-- The block-ack a completion puts into ACKBUF. -/
theorem State.deliver_ackbuf (s : State) (t : Seq) (segN : BitVec 5) : (s.deliver t segN).ackbuf =
    if unicast s.par.dst && !s.ctx.flag .ackSent then s.ackPayloadNow else s.ackbuf := by
  unfold State.deliver
  simp only [State.raise_ctx, State.setCtx_ctx, State.setPar_ctx, State.putUbuf_ctx, RxContext.flag_setFlag]
  cases h : (unicast s.par.dst && !s.ctx.flag .ackSent) <;> simp [h, State.ackPayloadNow, State.obo]

/-! Field by field. -/

@[simp] theorem RxContext.start_lastseqauth (c : RxContext) (t : Seq) (z : BitVec 13) : (c.start t z).lastseqauth = t := rfl
@[simp] theorem RxContext.start_lsav (c : RxContext) (t : Seq) (z : BitVec 13) : (c.start t z).lsav = setBit c.lsav 0 true := rfl
@[simp] theorem RxContext.start_rseqzero (c : RxContext) (t : Seq) (z : BitVec 13) : (c.start t z).rseqzero = z.setWidth 16 := rfl
@[simp] theorem RxContext.start_blockack (c : RxContext) (t : Seq) (z : BitVec 13) : (c.start t z).blockack = 0 := rfl
@[simp] theorem RxContext.start_segvalid (c : RxContext) (t : Seq) (z : BitVec 13) : (c.start t z).segvalid = 0 := rfl
@[simp] theorem RxContext.start_segbuf (c : RxContext) (t : Seq) (z : BitVec 13) : (c.start t z).segbuf = c.segbuf := rfl
@[simp] theorem RxContext.start_seglen (c : RxContext) (t : Seq) (z : BitVec 13) : (c.start t z).seglen = c.seglen := rfl

/-- The flags at the start of a new SeqAuth; ACK_RUN is not settled yet. -/
@[simp] theorem RxContext.start_flag (c : RxContext) (t : Seq) (z : BitVec 13) (f : RFlag) : (c.start t z).flag f =
    match f with | .incRun => true | .ackRun => c.flag .ackRun | .ackSent => false := by
  cases f <;> simp [RxContext.start]

@[simp] theorem State.newSeqAuth_ctx_lastseqauth (s : State) (t : Seq) (z : BitVec 13) : (s.newSeqAuth t z).ctx.lastseqauth = t := by
  rw [State.newSeqAuth_ctx]; split <;> (try split) <;> simp
@[simp] theorem State.newSeqAuth_ctx_lsav (s : State) (t : Seq) (z : BitVec 13) : (s.newSeqAuth t z).ctx.lsav = setBit s.ctx.lsav 0 true := by
  rw [State.newSeqAuth_ctx]; split <;> (try split) <;> simp
@[simp] theorem State.newSeqAuth_ctx_rseqzero (s : State) (t : Seq) (z : BitVec 13) : (s.newSeqAuth t z).ctx.rseqzero = z.setWidth 16 := by
  rw [State.newSeqAuth_ctx]; split <;> (try split) <;> simp
@[simp] theorem State.newSeqAuth_ctx_blockack (s : State) (t : Seq) (z : BitVec 13) : (s.newSeqAuth t z).ctx.blockack = 0 := by
  rw [State.newSeqAuth_ctx]; split <;> (try split) <;> simp
@[simp] theorem State.newSeqAuth_ctx_segvalid (s : State) (t : Seq) (z : BitVec 13) : (s.newSeqAuth t z).ctx.segvalid = 0 := by
  rw [State.newSeqAuth_ctx]; split <;> (try split) <;> simp
@[simp] theorem State.newSeqAuth_ctx_segbuf (s : State) (t : Seq) (z : BitVec 13) : (s.newSeqAuth t z).ctx.segbuf = s.ctx.segbuf := by
  rw [State.newSeqAuth_ctx]; split <;> (try split) <;> simp
@[simp] theorem State.newSeqAuth_ctx_seglen (s : State) (t : Seq) (z : BitVec 13) : (s.newSeqAuth t z).ctx.seglen = s.ctx.seglen := by
  rw [State.newSeqAuth_ctx]; split <;> (try split) <;> simp

@[simp] theorem State.sameSeqAuth_ctx_lastseqauth (s : State) : s.sameSeqAuth.ctx.lastseqauth = s.ctx.lastseqauth := by
  rw [State.sameSeqAuth_ctx]; split <;> rfl
@[simp] theorem State.sameSeqAuth_ctx_lsav (s : State) : s.sameSeqAuth.ctx.lsav = s.ctx.lsav := by
  rw [State.sameSeqAuth_ctx]; split <;> rfl
@[simp] theorem State.sameSeqAuth_ctx_rseqzero (s : State) : s.sameSeqAuth.ctx.rseqzero = s.ctx.rseqzero := by
  rw [State.sameSeqAuth_ctx]; split <;> rfl
@[simp] theorem State.sameSeqAuth_ctx_blockack (s : State) : s.sameSeqAuth.ctx.blockack = s.ctx.blockack := by
  rw [State.sameSeqAuth_ctx]; split <;> rfl
@[simp] theorem State.sameSeqAuth_ctx_segvalid (s : State) : s.sameSeqAuth.ctx.segvalid = s.ctx.segvalid := by
  rw [State.sameSeqAuth_ctx]; split <;> rfl
@[simp] theorem State.sameSeqAuth_ctx_segbuf (s : State) : s.sameSeqAuth.ctx.segbuf = s.ctx.segbuf := by
  rw [State.sameSeqAuth_ctx]; split <;> rfl
@[simp] theorem State.sameSeqAuth_ctx_seglen (s : State) : s.sameSeqAuth.ctx.seglen = s.ctx.seglen := by
  rw [State.sameSeqAuth_ctx]; split <;> rfl

@[simp] theorem State.deliver_ctx_lastseqauth (s : State) (t : Seq) (segN : BitVec 5) : (s.deliver t segN).ctx.lastseqauth = s.ctx.lastseqauth := by
  rw [State.deliver_ctx]; dsimp only; split <;> rfl
@[simp] theorem State.deliver_ctx_lsav (s : State) (t : Seq) (segN : BitVec 5) : (s.deliver t segN).ctx.lsav = s.ctx.lsav := by
  rw [State.deliver_ctx]; dsimp only; split <;> rfl
@[simp] theorem State.deliver_ctx_rseqzero (s : State) (t : Seq) (segN : BitVec 5) : (s.deliver t segN).ctx.rseqzero = s.ctx.rseqzero := by
  rw [State.deliver_ctx]; dsimp only; split <;> rfl
@[simp] theorem State.deliver_ctx_blockack (s : State) (t : Seq) (segN : BitVec 5) : (s.deliver t segN).ctx.blockack = s.ctx.blockack := by
  rw [State.deliver_ctx]; dsimp only; split <;> rfl
@[simp] theorem State.deliver_ctx_segvalid (s : State) (t : Seq) (segN : BitVec 5) : (s.deliver t segN).ctx.segvalid = 0 := by
  rw [State.deliver_ctx]
@[simp] theorem State.deliver_ctx_segbuf (s : State) (t : Seq) (segN : BitVec 5) : (s.deliver t segN).ctx.segbuf = s.ctx.segbuf := by
  rw [State.deliver_ctx]; dsimp only; split <;> rfl
@[simp] theorem State.deliver_ctx_seglen (s : State) (t : Seq) (segN : BitVec 5) : (s.deliver t segN).ctx.seglen = s.ctx.seglen := by
  rw [State.deliver_ctx]; dsimp only; split <;> rfl

/-- The flags after the new-SeqAuth branch. -/
@[simp] theorem State.newSeqAuth_flag (s : State) (t : Seq) (z : BitVec 13) (f : RFlag) : (s.newSeqAuth t z).ctx.flag f =
    match f with | .incRun => true | .ackRun => unicast s.par.dst | .ackSent => false := by
  rw [State.newSeqAuth_ctx]
  split
  · cases f <;> simp_all
  · split <;> cases f <;> simp_all

/-- The flags after the same-SeqAuth branch. -/
@[simp] theorem State.sameSeqAuth_flag (s : State) (f : RFlag) : s.sameSeqAuth.ctx.flag f =
    match f with | .ackRun => s.ctx.flag .ackRun || unicast s.par.dst | f => s.ctx.flag f := by
  rw [State.sameSeqAuth_ctx]
  cases h1 : s.ctx.flag .ackRun <;> cases h2 : unicast s.par.dst <;> cases f <;> simp [h1]

/-- The flags after a completion. -/
@[simp] theorem State.deliver_flag (s : State) (t : Seq) (segN : BitVec 5) (f : RFlag) : (s.deliver t segN).ctx.flag f =
    match f with
    | .incRun => false
    | .ackRun => s.ctx.flag .ackRun && !(unicast s.par.dst && !s.ctx.flag .ackSent)
    | .ackSent => s.ctx.flag .ackSent || unicast s.par.dst := by
  rw [State.deliver_ctx]
  cases h1 : s.ctx.flag .ackSent <;> cases h2 : unicast s.par.dst <;> cases f <;> simp [h1]


/-! The segment store. -/

@[simp] theorem RxContext.store_flag (c : RxContext) (o : BitVec 5) (p : List Byte) (f : RFlag) : (c.store o p).flag f = c.flag f := rfl
@[simp] theorem RxContext.store_rflags (c : RxContext) (o : BitVec 5) (p : List Byte) : (c.store o p).rflags = c.rflags := rfl
@[simp] theorem RxContext.store_lastseqauth (c : RxContext) (o : BitVec 5) (p : List Byte) : (c.store o p).lastseqauth = c.lastseqauth := rfl
@[simp] theorem RxContext.store_lsav (c : RxContext) (o : BitVec 5) (p : List Byte) : (c.store o p).lsav = c.lsav := rfl
@[simp] theorem RxContext.store_rseqzero (c : RxContext) (o : BitVec 5) (p : List Byte) : (c.store o p).rseqzero = c.rseqzero := rfl
@[simp] theorem RxContext.store_segvalid (c : RxContext) (o : BitVec 5) (p : List Byte) :
    (c.store o p).segvalid = c.segvalid ||| (1#32 <<< o.toNat) := rfl
@[simp] theorem RxContext.store_blockack (c : RxContext) (o : BitVec 5) (p : List Byte) :
    (c.store o p).blockack = c.blockack ||| (1#32 <<< o.toNat) := rfl

/-- The bit of segment `i` after segment `o` was stored. -/
theorem segBit_getLsbD (o : BitVec 5) (i : Nat) : (1#32 <<< o.toNat).getLsbD i = decide (i = o.toNat) := by
  have := o.isLt
  by_cases h : i = o.toNat
  · subst h; simp; omega
  · simp [h, BitVec.getLsbD_one]
    omega

/-- The bits of segments `0..segN`. -/
theorem segmentMask_getLsbD (segN : BitVec 5) (i : Nat) : (segmentMask segN).getLsbD i = decide (i ≤ segN.toNat) := by
  have := segN.isLt
  rw [segmentMask, BitVec.getLsbD_ofNat, Nat.testBit_two_pow_sub_one]
  by_cases h : i ≤ segN.toNat
  · simp [h]; omega
  · simp [h]

/-- The length recorded for a slot after a store. -/
theorem RxContext.store_seglen (c : RxContext) (o : BitVec 5) (p : List Byte) (i : Nat) :
    (c.store o p).seglen.getD i 0#4 = if i = o.toNat then BitVec.ofNat 4 p.length else c.seglen.getD i 0#4 := by
  have := o.isLt
  simp only [RxContext.store, Vector.getD]
  by_cases hi : i < 32
  · by_cases h : i = o.toNat
    · subst h; simp; omega
    · simp [hi, h, Ne.symm h]
  · have : i ≠ o.toNat := by omega
    simp [hi, this]

/-- A stored segment stands in its slot. -/
theorem RxContext.slot_store_same (c : RxContext) (o : BitVec 5) (p : List Byte) (h : p.length < 16) :
    (c.store o p).slot o.toNat = p := by
  simp only [RxContext.slot, BitVec.ofNat_eq_ofNat, RxContext.store_seglen, if_true]
  have : (BitVec.ofNat 4 p.length).toNat = p.length := by simp; omega
  rw [this]
  exact Memory.readRange_writeRange _ _ _ _ rfl

/-- Storing a segment of at most twelve bytes leaves every byte of another slot. -/
theorem RxContext.segbuf_store_other (c : RxContext) (o : BitVec 5) (p : List Byte) (i j : Nat) (hp : p.length ≤ 12) (hi : i ≠ o.toNat)
    (hj : j < 12) : (c.store o p).segbuf.read (12 * i + j) = c.segbuf.read (12 * i + j) := by
  apply Memory.read_writeRange_outside
  omega

/-- Storing a segment of at most twelve bytes leaves another slot of at most twelve bytes. -/
theorem RxContext.slot_store_other (c : RxContext) (o : BitVec 5) (p : List Byte) (i : Nat) (hp : p.length ≤ 12) (hi : i ≠ o.toNat)
    (hl : (c.seglen.getD i 0#4).toNat ≤ 12) : (c.store o p).slot i = c.slot i := by
  simp only [RxContext.slot, BitVec.ofNat_eq_ofNat, RxContext.store_seglen, if_neg hi]
  apply Memory.readRange_writeRange_disjoint
  omega

/-! LT_PARSE as one case analysis. -/

/-- LT_PARSE ends in one of six ways, each with the condition that leads there. -/
theorem execLtParse_cases (s : State) :
    ((s.len.llen.toNat < 2 ∨ 16 < s.len.llen.toNat) ∧ execLtParse s = .next (s.begin.fail .errLen)) ∨
    (2 ≤ s.len.llen.toNat ∧ s.len.llen.toNat ≤ 16 ∧ (s.mem.read lbufBase).getLsbD 7 = false ∧
      execLtParse s = .next s.begin.parseUnsegmented) ∨
    (2 ≤ s.len.llen.toNat ∧ s.len.llen.toNat ≤ 16 ∧ (s.mem.read lbufBase).getLsbD 7 = true ∧
      (s.len.llen.toNat < 5 ∨ 4 + segmentSize s.ctl < s.len.llen.toNat) ∧ execLtParse s = .next (s.begin.fail .errLen)) ∨
    (5 ≤ s.len.llen.toNat ∧ s.len.llen.toNat ≤ 4 + segmentSize s.ctl ∧ (s.mem.read lbufBase).getLsbD 7 = true ∧
      ((segmentFields s.lbuf).segN < (segmentFields s.lbuf).segO ∧ execLtParse s = .next (s.begin.fail .errMalformed) ∨
        ¬(segmentFields s.lbuf).segN < (segmentFields s.lbuf).segO ∧
          (reconcile s.par.nseq (segmentFields s.lbuf).seqZero = none ∧ execLtParse s = .next (s.begin.fail .errSeq) ∨
            ∃ t, reconcile s.par.nseq (segmentFields s.lbuf).seqZero = some t ∧
              execLtParse s = .next (s.begin.acceptSegment t (segmentFields s.lbuf))))) := by
  have hsize : segmentSize s.ctl ≤ 12 := by unfold segmentSize; split <;> decide
  have hl : s.begin.lbuf = s.lbuf := rfl
  have hc : s.begin.ctl = s.ctl := rfl
  unfold execLtParse State.parseSegment
  simp only [State.begin_len, State.begin_par, Config.lowerMax, hl, hc]
  by_cases h1 : s.len.llen.toNat < 2 ∨ 16 < s.len.llen.toNat
  · exact .inl ⟨h1, by rw [if_pos h1]⟩
  have h0 : s.lbuf.getD 0 0 = s.mem.read lbufBase := by
    have : 0 < s.lbuf.length := by simp [State.lbuf]; omega
    rw [List.getD_eq_getElem _ _ this]
    simp [State.lbuf, Memory.readRange_getElem]
  rw [if_neg h1, h0]
  by_cases h2 : (s.mem.read lbufBase).getLsbD 7 = false
  · exact .inr (.inl ⟨by omega, by omega, h2, by rw [if_pos h2]⟩)
  rw [if_neg h2]
  by_cases h3 : s.len.llen.toNat < 5 ∨ 4 + segmentSize s.ctl < s.len.llen.toNat
  · exact .inr (.inr (.inl ⟨by omega, by omega, by simpa using h2, h3, by rw [if_pos h3]⟩))
  rw [if_neg h3]
  refine .inr (.inr (.inr ⟨by omega, by omega, by simpa using h2, ?_⟩))
  by_cases h4 : (segmentFields s.lbuf).segN < (segmentFields s.lbuf).segO
  · exact .inl ⟨h4, by rw [if_pos h4]⟩
  rw [if_neg h4]
  refine .inr ⟨h4, ?_⟩
  cases h5 : reconcile s.par.nseq (segmentFields s.lbuf).seqZero with
  | none => exact .inl ⟨rfl, rfl⟩
  | some t => exact .inr ⟨t, rfl, rfl⟩

end Sys2Proof.Machine
end

