-- ==== Sys2Proof/Laws/Window.lean ====
section
/-! SUPPORT. The register map decoded: where each register stands, what its bytes are, what a write of its bytes changes. -/

namespace Sys2Proof.Machine

theorem Reg.mem_all (r : Reg) : r ∈ Reg.all := by cases r <;> decide

/-- No two registers overlap. -/
theorem Reg.disjoint (r r' : Reg) : r = r' ∨ r.base + r.size ≤ r'.base ∨ r'.base + r'.size ≤ r.base := by
  have h : ∀ r ∈ Reg.all, ∀ r' ∈ Reg.all, r = r' ∨ r.base + r.size ≤ r'.base ∨ r'.base + r'.size ≤ r.base := by decide +kernel
  exact h r r.mem_all r' r'.mem_all

/-- Every register lies inside the window and spans at least one byte. -/
theorem Reg.bounds (r : Reg) : 0 < r.size ∧ r.base + r.size ≤ 0x800 := by cases r <;> decide

/-- An address locates to byte `j` of register `r` exactly when it is `r`'s base plus `j`, inside `r`. -/
theorem locate_eq_some (a : Nat) (r : Reg) (j : Nat) : locate a = some (r, j) ↔ a = r.base + j ∧ j < r.size := by
  unfold locate
  constructor
  · intro h
    obtain ⟨r', hf, he⟩ := Option.map_eq_some_iff.mp h
    have hp := List.find?_some hf
    simp only [Bool.and_eq_true, decide_eq_true_eq] at hp
    injection he with h1 h2
    subst h1
    omega
  · rintro ⟨rfl, hj⟩
    cases hf : Reg.all.find? fun r' => r'.base ≤ r.base + j && r.base + j < r'.base + r'.size with
    | none =>
      have := List.find?_eq_none.mp hf r r.mem_all
      simp only [Bool.and_eq_true, decide_eq_true_eq] at this
      omega
    | some r' =>
      have hp := List.find?_some hf
      simp only [Bool.and_eq_true, decide_eq_true_eq] at hp
      rcases Reg.disjoint r r' with rfl | h | h
      · simp
      · omega
      · omega

@[simp] theorem locate_base_add (r : Reg) (j : Nat) (h : j < r.size) : locate (r.base + j) = some (r, j) :=
  (locate_eq_some _ _ _).mpr ⟨rfl, h⟩

/-- A reserved address is one that no register spans. -/
theorem locate_eq_none (a : Nat) : locate a = none ↔ ∀ r : Reg, a < r.base ∨ r.base + r.size ≤ a := by
  constructor
  · intro h r
    by_contra hn
    have := (locate_eq_some a r (a - r.base)).mpr (by omega)
    rw [h] at this
    cases this
  · intro h
    cases hl : locate a with
    | none => rfl
    | some p =>
      have := (locate_eq_some a p.1 p.2).mp hl
      have := h p.1
      omega

@[simp] theorem State.regBytes_length (s : State) (r : Reg) : (s.regBytes r).length = r.size := by
  cases r <;> simp [State.regBytes, Reg.size]

/-- A read of byte `j` of a register that is neither write-only nor a buffer. -/
theorem State.windowRead_reg (s : State) (r : Reg) (j : Nat) (hj : j < r.size) (ha : r.access ≠ .writeOnly) (hb : r.isBuffer = false) :
    s.windowRead (r.base + j) = (s.regBytes r).getD j 0x00 &&& r.mask j := by
  simp [State.windowRead, hj, ha, hb]

/-- A read of a buffer byte. -/
theorem State.windowRead_buffer (s : State) (r : Reg) (j : Nat) (hj : j < r.size) (hb : r.isBuffer = true) :
    s.windowRead (r.base + j) = s.mem.read (r.base + j) := by
  have ha : r.access ≠ .writeOnly := by cases r <;> simp_all [Reg.isBuffer, Reg.access]
  simp [State.windowRead, hj, ha, hb]

/-- `rd` of a register with no reserved bits, neither write-only nor a buffer, gives its bytes. -/
theorem State.rd_eq_regBytes (s : State) (r : Reg) (ha : r.access ≠ .writeOnly) (hb : r.isBuffer = false)
    (hm : ∀ j < r.size, r.mask j = 0xFF) : s.rd r = s.regBytes r := by
  apply List.ext_getElem
  · simp [State.rd, State.windowBytes]
  · intro j h1 h2
    have hj : j < r.size := by simpa [State.rd, State.windowBytes] using h1
    have hff : ∀ b : Byte, b &&& 0xFF = b := by
      intro b
      exact BitVec.and_allOnes
    simp only [State.rd, State.windowBytes, List.getElem_map, List.getElem_range]
    rw [State.windowRead_reg s r j hj ha hb, hm j hj, hff, List.getD_eq_getElem _ _ h2]

/-- A register holds the bytes just written to it. -/
theorem State.regBytes_setRegBytes_same (s : State) (r : Reg) (bs : List Byte) (hw : r.access ≠ .readOnly) (hb : r.isBuffer = false)
    (hc : r ≠ .cmd) (hl : bs.length = r.size) : (s.setRegBytes r bs).regBytes r = bs := by
  cases r <;>
    first
    | exact absurd rfl hw
    | exact absurd rfl hc
    | exact absurd hb (by decide)
    | exact beBytes_fromBE _ _ _ hl (by decide)

/-- Writing one register's bytes leaves every other register's. -/
theorem State.regBytes_setRegBytes_other (s : State) (r r' : Reg) (bs : List Byte) (h : r' ≠ r) :
    (s.setRegBytes r bs).regBytes r' = s.regBytes r' := by
  cases r <;> cases r' <;> first | exact absurd rfl h | rfl

/-- Writing a register's bytes leaves the buffers' memory. -/
@[simp] theorem State.setRegBytes_mem (s : State) (r : Reg) (bs : List Byte) : (s.setRegBytes r bs).mem = s.mem := by cases r <;> rfl

/-- Writing a register's bytes leaves the host's port. -/
@[simp] theorem State.setRegBytes_port (s : State) (r : Reg) (bs : List Byte) : (s.setRegBytes r bs).port = s.port := by cases r <;> rfl

@[simp] theorem State.windowWrites_nil (s : State) (addr : Nat) : s.windowWrites addr [] = s := rfl

@[simp] theorem State.windowWrites_cons (s : State) (addr : Nat) (b : Byte) (rest : List Byte) :
    s.windowWrites addr (b :: rest) = (s.windowWrite addr b).windowWrites (addr + 1) rest := rfl

/-- Consecutive writes that stay inside a buffer write its bytes and nothing else. -/
theorem State.windowWrites_buffer (s : State) (r : Reg) (hb : r.isBuffer = true) (j : Nat) (bs : List Byte) (h : j + bs.length ≤ r.size) :
    s.windowWrites (r.base + j) bs = { s with mem := s.mem.writeRange (r.base + j) bs } := by
  have ha : r.access ≠ .readOnly := by cases r <;> simp_all [Reg.isBuffer, Reg.access]
  induction bs generalizing s j with
  | nil => rfl
  | cons b rest ih =>
    simp only [List.length_cons] at h
    have hw : s.windowWrite (r.base + j) b = { s with mem := s.mem.write (r.base + j) b } := by
      simp [State.windowWrite, (locate_eq_some (r.base + j) r j).mpr ⟨rfl, by omega⟩, ha, hb]
    rw [State.windowWrites_cons, hw, Nat.add_assoc, ih _ (j + 1) (by omega)]
    simp only [Memory.writeRange, Nat.add_assoc]

end Sys2Proof.Machine
end

