-- ==== Sys2Proof/Laws/Script.lean ====
section
/-! SUPPORT. What running the byte writes of a script does to the machine. -/

namespace Sys2Proof.Machine

/-- The state with the host's queue replaced. -/
def State.withPending (s : State) (q : List HostInput) : State := { s with port := { s.port with pending := q } }

/-- A write of the window does not look at the host's queue. -/
theorem State.windowWrite_withPending (s : State) (q : List HostInput) (a : Nat) (v : Byte) :
    (s.withPending q).windowWrite a v = (s.windowWrite a v).withPending q := by
  unfold State.windowWrite
  cases locate a with
  | none => rfl
  | some p =>
    obtain ⟨r, j⟩ := p
    dsimp only
    split
    · rfl
    · split
      · rfl
      · cases r <;> rfl

/-- A write of the window leaves the host's port. -/
@[simp] theorem State.windowWrite_port (s : State) (a : Nat) (v : Byte) : (s.windowWrite a v).port = s.port := by
  unfold State.windowWrite
  split
  · rfl
  · split
    · rfl
    · split
      · rfl
      · simp

/-- One step at a write inside the window, away from CMD. -/
theorem step_write (s : State) (a : Nat) (v : Byte) (rest : List HostInput) (hp : s.port.pending = .write a v :: rest) (h0 : a ≠ 0)
    (ha : a < 0x800) : step s = .next ((s.windowWrite a v).withPending rest) := by
  rw [← State.windowWrite_withPending]
  simp [step, State.serveNext, hp, State.serve, HostInput.commandByte?, Reg.base, h0, inWindow, Config.windowSize, ha, State.withPending]

/-- Running the byte writes of a script, away from CMD, is the writes of the window in their order. -/
theorem run_writeBytes (s : State) (a : Nat) (bs : List Byte) (rest : List HostInput) (hp : s.port.pending = writeBytes a bs ++ rest)
    (h0 : a ≠ 0) (ha : a + bs.length ≤ 0x800) :
    Host.Core.run core bs.length s = .next ((s.windowWrites a bs).withPending rest) := by
  induction bs generalizing s a with
  | nil =>
    simp only [writeBytes, List.nil_append] at hp
    subst hp
    rfl
  | cons b bs ih =>
    simp only [List.length_cons] at ha
    have hs : core.step s = .next ((s.windowWrite a b).withPending (writeBytes (a + 1) bs ++ rest)) :=
      step_write s a b _ hp h0 (by omega)
    simp only [List.length_cons, Host.Core.run, hs]
    rw [ih _ (a + 1) rfl (by omega) (by omega)]
    have hw : ∀ (bs : List Byte) (t : State) (a : Nat) (q : List HostInput),
        ((t.withPending q).windowWrites a bs).withPending rest = (t.windowWrites a bs).withPending rest := by
      intro bs
      induction bs with
      | nil => intros; rfl
      | cons c cs ih' =>
        intro t a q
        simp only [State.windowWrites_cons, State.windowWrite_withPending]
        exact ih' _ _ _
    exact congrArg _ (hw bs _ _ _)

end Sys2Proof.Machine
end

