-- ==== Sys2Proof/Laws/Timers.lean ====
section
/-! SUPPORT. What the timer service can do: clear, serve and fire, field by field. -/

namespace Sys2Proof.Machine

@[simp] theorem TimerService.deadline_inc (ts : TimerService) : ts.deadline .inc = ts.inc := rfl

@[simp] theorem TimerService.deadline_ack (ts : TimerService) : ts.deadline .ack = ts.ack := rfl

@[simp] theorem TimerService.clear_inc_inc (ts : TimerService) : (ts.clear .inc).inc = none := rfl

@[simp] theorem TimerService.clear_inc_ack (ts : TimerService) : (ts.clear .inc).ack = ts.ack := rfl

@[simp] theorem TimerService.clear_ack_inc (ts : TimerService) : (ts.clear .ack).inc = ts.inc := rfl

@[simp] theorem TimerService.clear_ack_ack (ts : TimerService) : (ts.clear .ack).ack = none := rfl

/-- Clearing one timer's deadline leaves the other's. -/
theorem TimerService.deadline_clear (ts : TimerService) (tm tm' : Timer) :
    (ts.clear tm).deadline tm' = if tm' = tm then none else ts.deadline tm' := by
  cases tm <;> cases tm' <;> rfl

/-- A timer is due exactly when it is pending with a deadline that has come. -/
theorem TimerService.due_iff (ts : TimerService) (now : Nat) (tm : Timer) :
    ts.due now tm = true ↔ ∃ d, ts.deadline tm = some d ∧ d ≤ now := by
  cases h : ts.deadline tm <;> simp [TimerService.due, h]

/-- All a firing can do: the timer was due, its deadline is cleared, its expiry command is issued. -/
theorem TimerService.fire_eq_some (ts : TimerService) (now : Nat) (tm : Timer) (s : State) (p : TimerService × State) :
    ts.fire now tm s = some p ↔ ts.due now tm = true ∧ p = (ts.clear tm, s.issue (encode tm.expiry)) := by
  unfold TimerService.fire
  split
  · rename_i h
    simp [h, eq_comm]
  · rename_i h
    simp [h]

/-- Whether a timer is pending after its requests were served. -/
theorem serveTimer_isSome (start cancel : Bool) (d : Nat) (pending : Option Nat) :
    (serveTimer start cancel d pending).isSome = (!cancel && (start || pending.isSome)) := by
  cases start <;> cases cancel <;> simp [serveTimer]

end Sys2Proof.Machine
end

