-- ==== Sys2Proof/Tests/Slice0.lean ====
section
/-! SUPPORT. Our own tests: the checks of WellFormed on ill-formed terms, every opcode written out from 30_encoding.md R93, vectors of
95_test_vectors.md as single steps, and for every obligation with hypotheses a concrete state and operands that meet them (witness_<Name>). -/

namespace Sys2Proof.Tests

open Sys2Proof Machine

/-! Helpers. -/

/-- The answer is a next state with a property. -/
def holds (r : Result) (p : State → Bool) : Bool :=
  match r with
  | .next t => p t
  | _ => false

theorem next_of_holds {r : Result} {p : State → Bool} (h : holds r p = true) : ∃ t, r = .next t ∧ p t = true := by
  cases r with
  | next t => exact ⟨t, rfl, h⟩
  | fault f => cases h
  | refused f => cases h

/-- `n` bytes written as one hexadecimal number, first byte first. -/
def hex (n v : Nat) : List Byte := beBytes n (BitVec.ofNat (8 * n) v)

/-- The pattern `p(n, b)` of 95_test_vectors.md section 3.6. -/
def pat (n b : Nat) : List Byte := (List.range n).map fun i => BitVec.ofNat 8 (b + i)

/-- One step after the host wrote an opcode to CMD. -/
def issued (op : Byte) (s : State) : Result := step (s.issue op)

/-- The four length registers set. -/
def lens (a u l n : Nat) (s : State) : State :=
  { s with len := ⟨BitVec.ofNat 16 a, BitVec.ofNat 16 u, BitVec.ofNat 8 l, BitVec.ofNat 8 n⟩ }

/-- The state of 95_test_vectors.md section 3.3: CCMCFG, ABUF, UBUF and their lengths. -/
def ccmState (cfg : Byte) (a u : List Byte) : State :=
  (({ State.reset with
    conf := ⟨0x00, cfg⟩
    keys := ⟨0x000102030405060708090a0b0c0d0e0f, 0, 0x0f0e0d0c0b0a09080706050403020100⟩
    nonce := 0x101112131415161718191a1b1c }).putAbuf a).putUbuf u

/-- The keys, NID and IV index of 95_test_vectors.md. -/
def meshState (iv : BitVec 32) (nid : Byte) : State :=
  { State.reset with
    keys := ⟨0x0953fa93e7caac9638f58820220a398e, 0x8b84eedec100067d670971dd2aa700cf, 0x63964771734fbd76e3b40519d1d94a48⟩
    par := { State.reset.par with ivindex := iv, nid := nid } }

/-- The state of 95_test_vectors.md section 3.5: TCTRL, ABUF, UBUF. -/
def upperState (tctrl : Byte) (a u : List Byte) : State :=
  let s := meshState 0x12345678 0x68
  ((s.setPar { s.par with tseq := 7, src := 3, dst := 1, tctrl := tctrl }).putAbuf a).putUbuf u

/-- The state of 95_test_vectors.md section 3.4. -/
def nonceState : State :=
  let p : ParamRegs := { State.reset.par with ctlttl := 0x0F, nseq := 0x0C0D0E, tseq := 0x010203, src := 0x0405, dst := 0x0607 }
  State.reset.setPar { p with ivindex := 0x08090A0B, tctrl := 0x7F }

/-- A sender's state for the frames of 95_test_vectors.md sections 1 and 3.9. -/
def sendState (ctlttl : Byte) (nseq : Seq) (src dst : MeshAddr) (lower : List Byte) : State :=
  let s := meshState 0x12345678 0x68
  (s.setPar { s.par with ctlttl := ctlttl, nseq := nseq, src := src, dst := dst }).putLbuf lower

/-- F1, the NBUF of V1-1. -/
def frameF1 : List Byte := hex 29 0x0068eca487516765b5e5bfdacbaf6cb7fb6bff871f035444ce83a670df

/-- The NBUF of V38-5. -/
def frameProxy : List Byte := hex 20 0x026841f149fd627ad49705fdc07c4ef4b5113c0a

/-- A receiver's state with a frame in NBUF. -/
def receiveState (frame : List Byte) : State := (meshState 0x12345678 0x68).putNbuf frame

/-- A framer's state for 95_test_vectors.md section 3.6, TXSEG preset to 0x15. -/
def framerState (ctlttl tctrl copc sego : Byte) (tseq : Seq) (upper : List Byte) : State :=
  let p : ParamRegs := { State.reset.par with ctlttl := ctlttl, tctrl := tctrl, copc := copc, sego := sego, tseq := tseq }
  (State.reset.setPar { p with txseg := 0x15 }).putUbuf upper

/-- A receiving context with a lower-transport PDU in LBUF. -/
def parseState (ctlttl : Byte) (nseq : Seq) (dst : MeshAddr) (c : RxContext) (lower : List Byte) : State :=
  ((State.reset.setPar { State.reset.par with ctlttl := ctlttl, nseq := nseq, dst := dst }).setCtx c).putLbuf lower

/-- The context after W1 of 95_test_vectors.md section 3.7, segment 0 stored, with RFLAGS and the segments stored as given. -/
def inProgress (rflags : Byte) (mask : BitVec 32) : RxContext :=
  { State.reset.ctx with rflags := rflags, lastseqauth := 0x000100, lsav := 0x01, rseqzero := 0x0100, blockack := mask, segvalid := mask
                         seglen := Vector.replicate 32 12 }

/-- The segments S0 to S3 of 95_test_vectors.md section 3.7. -/
def segS : Nat → List Byte
  | 0 => hex 4 0xe6040003 ++ pat 12 0x00
  | 1 => hex 4 0xe6040023 ++ pat 12 0x0c
  | 2 => hex 4 0xe6040043 ++ pat 12 0x18
  | _ => hex 7 0xe6040063242526

/-! WellFormed: a term each check refuses, and one it takes. -/

/-- R92: group 0x1 has no function 0x4; there is no group 0x0 nor 0x6. -/
theorem test_commandByte_refuses : commandByte 0x14 = false ∧ commandByte 0x00 = false ∧ commandByte 0x60 = false ∧ commandByte 0x13 = true := by
  decide

/-- R70: offset 0x800 is outside the window. -/
theorem test_inWindow_refuses : inWindow 0x800 = false ∧ inWindow 0x7FF = true := by decide

/-! Decoding: every opcode as R93 writes it, bit by bit, and rejections of R94 by name. -/

theorem test_decode_group1 : decode 0b00010000 = .ok .nonceNet ∧ decode 0b00010001 = .ok .nonceApp ∧ decode 0b00010010 = .ok .nonceDev ∧
    decode 0b00010011 = .ok .nonceProxy := by decide

theorem test_decode_group2 : decode 0b00100000 = .ok .ccmEnc ∧ decode 0b00100001 = .ok .ccmDec ∧ decode 0b00101000 = .ok .utEnc ∧
    decode 0b00101001 = .ok .utDec := by decide

theorem test_decode_group3 : decode 0b00110000 = .ok .pecbGen ∧ decode 0b00110001 = .ok .hdrObf ∧ decode 0b00110010 = .ok .hdrDeobf ∧
    decode 0b00111000 = .ok .netEnc ∧ decode 0b00111001 = .ok .netDec ∧ decode 0b00111010 = .ok .proxyEnc ∧
    decode 0b00111011 = .ok .proxyDec := by decide

theorem test_decode_group4 : decode 0b01000000 = .ok .ltFrame ∧ decode 0b01001000 = .ok .ltParse ∧ decode 0b01001001 = .ok .tmrIncExp ∧
    decode 0b01001010 = .ok .tmrAckExp ∧ decode 0b01001011 = .ok .rxReset := by decide

theorem test_decode_group5 : decode 0b01010000 = .ok .backMatch := by decide

/-- V30-2, V30-3. -/
theorem test_decode_rejects : decode 0x00 = .error (.illegalOpcode 0x00) ∧ decode 0x14 = .error (.illegalOpcode 0x14) ∧
    decode 0x3C = .error (.illegalOpcode 0x3C) ∧ decode 0xFF = .error (.illegalOpcode 0xFF) := by decide

theorem test_decodeTableWord : decodeTableWord 8 0x48 = some .ltParse ∧ decodeTableWord 8 0x51 = none := by decide

/-! Window (95_test_vectors.md section 3.1). -/

/-- V30-9 to V30-12: reserved bits are dropped. -/
theorem test_reserved_bits : (State.reset.windowWrite 0x004 0xFF).windowRead 0x004 = 0x01 ∧
    (State.reset.windowWrite 0x019 0xFF).windowRead 0x019 = 0x1F ∧ (State.reset.windowWrite 0x01A 0xFF).windowRead 0x01A = 0x9F ∧
    (State.reset.windowWrite 0x005 0xFF).windowRead 0x005 = 0x07 := by decide

/-- V30-5 to V30-8: reserved, read-only and key addresses. -/
theorem test_no_effect : (State.reset.windowWrite 0x01D 0xFF).windowRead 0x01D = 0x00 ∧ State.reset.windowWrite 0x7FF 0xAA = State.reset ∧
    State.reset.windowWrite 0x001 0x55 = State.reset ∧ (State.reset.windowWrite 0x040 0x5A).windowRead 0x040 = 0x00 := by decide

/-- V30-13: the three bytes of NSEQ. -/
theorem test_nseq_bytes :
    let s := ((State.reset.windowWrite 0x009 0x12).windowWrite 0x00A 0x34).windowWrite 0x00B 0x56
    s.par.nseq = 0x123456 ∧ s.rd .nseq = [0x12, 0x34, 0x56] := by decide

/-- R23: STATUS, EVENTS, LLEN and NLEN at their own addresses. -/
theorem test_addresses :
    let s := { lens 0 0 0x10 0x22 State.reset with status := 0x82, events := 0x21 }
    s.windowRead 0x001 = 0x82 ∧ s.windowRead 0x002 = 0x21 ∧ s.windowRead 0x03E = 0x10 ∧ s.windowRead 0x03F = 0x22 := by decide

/-! Vectors, one step each. The identifiers are those of 95_test_vectors.md. -/

/-- V32-1. -/
theorem test_nonceNet : holds (issued 0x10 nonceState) (fun t => t.status = 0x00 && t.nonce = 0x000f0c0d0e0405000008090a0b) = true := by decide

/-- V32-2. -/
theorem test_nonceApp : holds (issued 0x11 nonceState) (fun t => t.nonce = 0x01000102030405060708090a0b) = true := by decide

/-- V32-3. -/
theorem test_nonceDev : holds (issued 0x12 nonceState) (fun t => t.nonce = 0x02000102030405060708090a0b) = true := by decide

/-- V32-4. -/
theorem test_nonceProxy : holds (issued 0x13 nonceState) (fun t => t.nonce = 0x03000c0d0e0405000008090a0b) = true := by decide

/-- V31-1. -/
theorem test_ccmEnc : holds (issued 0x20 (ccmState 0x00 [0xaa] [])) (fun t => t.status = 0x00 && t.ubuf = hex 5 0xd621ce0d87) = true := by
  decide +kernel

/-- V31-4: KTRANS and the long MIC. -/
theorem test_ccmEnc_long : holds (issued 0x20 (ccmState 0x05 (hex 3 0xaabbcc) [])) (fun t => t.ubuf = hex 11 0x3292a3cf4f7f5854b3e520) = true := by
  decide +kernel

/-- V31-11. -/
theorem test_ccmDec : holds (issued 0x21 (ccmState 0x00 [] (hex 5 0xd621ce0d87))) (fun t => t.status = 0x00 && t.abuf = [0xaa]) = true := by
  decide +kernel

/-- V31-12: a MIC bit flipped; ABUF kept. -/
theorem test_ccmDec_auth : holds (issued 0x21 (ccmState 0x00 [0xee] (hex 5 0xd621ce0d86)))
    (fun t => t.status = 0x82 && t.abuf = [0xee]) = true := by decide +kernel

/-- V35-4: five bytes with SZMIC take the long MIC. -/
theorem test_utEnc_long : holds (issued 0x28 (upperState 0xE6 (hex 5 0x0401020304) []))
    (fun t => t.nonce = 0x01800000070003000112345678 && t.ubuf = hex 13 0x548f6a11ce22945705571903b1) = true := by decide +kernel

/-- V35-3: four bytes with SZMIC do not. -/
theorem test_utEnc_short : holds (issued 0x28 (upperState 0xE6 (hex 4 0x04010203) []))
    (fun t => t.nonce = 0x01000000070003000112345678 && t.ubuf = hex 8 0x74f736e9b860680f) = true := by decide +kernel

/-- V35-16. -/
theorem test_utDec : holds (issued 0x29 (upperState 0x66 [] (hex 6 0x74f7ef370e77))) (fun t => t.status = 0x00 && t.abuf = hex 2 0x0401) = true := by
  decide +kernel

/-- V35-13: the wrong key class; NONCE is the nonce tried. -/
theorem test_utDec_auth : holds (issued 0x29 (upperState 0x26 [0xee] (hex 6 0x74f7ef370e77)))
    (fun t => t.status = 0x82 && t.abuf = [0xee] && t.nonce = 0x02000000070003000112345678) = true := by decide +kernel

/-- V39-10, the PECB_GEN step. -/
theorem test_pecbGen : holds (issued 0x30 (receiveState (hex 15 0x00680000000000000edf55d9d4dc19)))
    (fun t => t.status = 0x00 && t.pecb = 0xa8d90e16a17a) = true := by decide +kernel

/-- V39-12: obfuscation. -/
theorem test_hdrObf : holds (issued 0x31 (((sendState 0x85 0x010203 0xBEEF 0 []).setPecb 0xa1b2c3d4e5f6).putNbuf (hex 8 0)))
    (fun t => t.nbuf = hex 8 0x000024b3c1d75b19) = true := by decide

/-- V39-12: de-obfuscation. -/
theorem test_hdrDeobf : holds (issued 0x32 ((State.reset.setPecb 0xa1b2c3d4e5f6).putNbuf (hex 8 0x000024b3c1d75b19)))
    (fun t => t.par.ctlttl = 0x85 && t.par.nseq = 0x010203 && t.par.src = 0xBEEF) = true := by decide

/-- V1-1. -/
theorem test_netEnc : holds (issued 0x38 (sendState 0x80 0x000001 0x1201 0xFFFD (hex 11 0x034b50057e400000010000)))
    (fun t => t.nbuf = frameF1 && t.pecb = 0x6ca487507564) = true := by decide +kernel

/-- V38-1, the shortest frame. -/
theorem test_netEnc_shortest : holds (issued 0x38 (sendState 0x00 0x000010 0x0001 0x0002 [0xaa]))
    (fun t => t.nbuf = hex 15 0x0068a8d90e06a17b0edf55d9d4dc19) = true := by decide +kernel

/-- V39-1. -/
theorem test_netDec : holds (issued 0x39 (receiveState frameF1)) (fun t => t.status = 0x00 && t.par.ctlttl = 0x80 && t.par.nseq = 0x000001 &&
    t.par.src = 0x1201 && t.par.dst = 0xFFFD && t.lbuf = hex 11 0x034b50057e400000010000) = true := by decide +kernel

/-- V39-18: a proxy frame under the network nonce. -/
theorem test_netDec_auth : holds (issued 0x39 (receiveState frameProxy))
    (fun t => t.status = 0x82 && t.nonce = 0x00800000010001000012345678) = true := by decide +kernel

/-- V38-5. -/
theorem test_proxyEnc : holds (issued 0x3A (let s := sendState 0x80 0x000001 0x0001 0x0000 (hex 2 0); s.setPar { s.par with pdutype := 0x02 }))
    (fun t => t.nbuf = frameProxy && t.nonce = 0x03000000010001000012345678) = true := by decide +kernel

/-- V39-17. -/
theorem test_proxyDec : holds (issued 0x3B (receiveState frameProxy)) (fun t => t.status = 0x00 && t.par.pdutype = 0x02 && t.par.ctlttl = 0x80 &&
    t.par.dst = 0x0000 && t.lbuf = hex 2 0) = true := by decide +kernel

/-- V43-4: a one-byte last slice. -/
theorem test_ltFrame : holds (issued 0x40 (framerState 0x04 0xE6 0x00 0x01 0x0009AB (pat 13 0xa0)))
    (fun t => t.lbuf = hex 5 0xe6a6ac21ac && t.par.txseg = 0x81) = true := by decide +kernel

/-- V43-15: a control segment. -/
theorem test_ltFrame_control : holds (issued 0x40 (framerState 0x80 0x00 0x0A 0x00 0x000123 (pat 9 0x00)))
    (fun t => t.lbuf = hex 12 0x8a048c010001020304050607 && t.par.txseg = 0x81) = true := by decide +kernel

/-- V44-19: a single-segment message to a unicast address. -/
theorem test_ltParse_single : holds (issued 0x48 (parseState 0x00 0x002001 0x0001 State.reset.ctx (hex 9 0xc08004000001020304)))
    (fun t => t.status = 0x00 && t.events = 0x3F && t.ctx.rflags = 0x04 && t.par.tctrl = 0xC0 && t.parsed.acktmr = 150 &&
      t.ackbuf = 0x000400000001 && t.ubuf = hex 5 0x0001020304) = true := by decide +kernel

/-- W2: a gap leaves the message pending. -/
theorem test_ltParse_gap : holds (issued 0x48 (parseState 0x04 0x000102 0x0001 (inProgress 0x03 0x00000001) (segS 2)))
    (fun t => t.status = 0x01 && t.events = 0x01 && t.ctx.blockack = 0x00000005 && t.ctx.segvalid = 0x00000005) = true := by decide +kernel

/-- Y2: expiry of the incomplete timer with an acknowledgement pending. -/
theorem test_tmrIncExp : holds (issued 0x49 (State.reset.setCtx (inProgress 0x03 0x00000001)))
    (fun t => t.events = 0x48 && t.ctx.rflags = 0x00 && t.ctx.segvalid = 0 && t.ctx.blockack = 0x00000001) = true := by decide

/-- W4. -/
theorem test_tmrAckExp : holds (issued 0x4A (State.reset.setCtx (inProgress 0x03 0x0000000d)))
    (fun t => t.events = 0x10 && t.ctx.rflags = 0x05 && t.ackbuf = 0x04000000000d) = true := by decide

/-- R272 with W4: the acknowledgement timer fires at its deadline and not before; its deadline is cleared and TMR_ACK_EXP runs next. -/
theorem test_timer_fires :
    let ts : TimerService := ⟨some 10000, some 350⟩
    let s := State.reset.setCtx (inProgress 0x03 0x0000000d)
    ts.fire 349 .ack s = none ∧
      (ts.fire 350 .ack s).any (fun p => p.1 = ⟨some 10000, none⟩ && holds (step p.2) (fun t => t.events = 0x10 && t.ctx.rflags = 0x05)) = true := by
  decide

/-- Z5. -/
theorem test_rxReset : holds (issued 0x4B (State.reset.setCtx (inProgress 0x01 0x00000001)))
    (fun t => t.events = 0x02 && t.ctx.rflags = 0x00 && t.ctx.blockack = 0 && t.ctx.rseqzero = 0 && t.ctx.lastseqauth = 0x000100 &&
      t.ctx.lsav = 0x01) = true := by decide

/-- V50-3: bits above SEGN are masked off. -/
theorem test_backMatch : holds (issued 0x50 ((State.reset.setPar { State.reset.par with txseg := 0x83, tseq := 0x000100 }).putUbuf (hex 6 0x8400ffffffff)))
    (fun t => t.events = 0x80 && t.matcher = ⟨0xffffffff, 0x00000000, 0x8100⟩) = true := by decide +kernel

/-- V50-5: another SeqZero. -/
theorem test_backMatch_other : holds (issued 0x50 ((State.reset.setPar { State.reset.par with txseg := 0x83, tseq := 0x000100 }).putUbuf (hex 6 0x04040000000f)))
    (fun t => t.events = 0x00 && t.matcher = ⟨0x0000000f, 0x00000000, 0x0101⟩) = true := by decide +kernel

/-! Witnesses: for every obligation with hypotheses, states and operands that meet them, each clause at a boundary of its range. -/

/-- The state with a queue of host inputs. -/
def queued (is : List HostInput) : State := State.reset.enqueue is

theorem witness_DecodeAndEncodeAgree : decode 0x10 = .ok .nonceNet ∧ decode 0x50 = .ok .backMatch := by decide

theorem witness_StepRunsTheDecodedCommand : (queued [.write 0x000 0x48, .read 0x003]).port.pending = .write 0x000 0x48 :: [.read 0x003] ∧
    decode 0x48 = .ok .ltParse := by decide

theorem witness_IllegalOpcodeChangesStatusAndEventsOnly : (queued [.write 0x000 0xFF]).port.pending = .write 0x000 0xFF :: [] ∧
    ∀ b ∈ [0x00, 0x0F, 0x14, 0x1F, 0x22, 0x27, 0x2A, 0x2F, 0x33, 0x37, 0x3C, 0x3F, 0x41, 0x47, 0x4C, 0x4F, 0x51, 0xFF], illegalOpcode b = true := by
  decide

theorem witness_StepServesAccessesInOrder : State.reset.port.pending = [] ∧ (queued [.read 0x7FF]).port.pending = .read 0x7FF :: [] ∧
    (queued [.write 0x001 0xFF]).port.pending = .write 0x001 0xFF :: [] ∧ (queued [.write 0x7FF 0xFF]).port.pending = .write 0x7FF 0xFF :: [] ∧
    (queued [.read 0x800]).port.pending = .read 0x800 :: [] ∧ (queued [.write 0x800 0x00]).port.pending = .write 0x800 0x00 :: [] ∧
    (queued [.reset]).port.pending = .reset :: [] := by decide

theorem witness_StepIsSafeInsideTheWindow : ∀ (a : Nat) (v : Byte) (rest : List HostInput),
    (queued [.read 0x7FF]).port.pending = .read a :: rest ∨ (queued [.read 0x7FF]).port.pending = .write a v :: rest → a < 0x800 := by
  intro a v rest h
  simp only [queued, State.enqueue, State.reset, List.nil_append, List.cons.injEq, HostInput.read.injEq, reduceCtorEq, false_and, or_false] at h
  omega

theorem witness_ReservedAddressesReadZeroAndIgnoreWrites :
    ∀ a ∈ [0x01D, 0x026, 0x027, 0x07D, 0x07F, 0x086, 0x087, 0x08E, 0x08F, 0x0C2, 0x0FF, 0x27C, 0x2FF, 0x480, 0x7FF], reservedAddress a = true := by
  decide

theorem witness_WriteOnlyReadsZeroAndReadOnlyIgnoresWrites : (∀ a ∈ [0x000, 0x040, 0x06F], writeOnlyAddress a = true) ∧
    ∀ a ∈ [0x001, 0x003, 0x01B, 0x01C, 0x01E, 0x01F, 0x024, 0x025, 0x028, 0x039, 0x088, 0x08D], readOnlyAddress a = true := by decide

theorem witness_WrittenByteIsHeld : (∀ a ∈ [0x004, 0x023, 0x070, 0x0A0, 0x47F],
    a < 0x800 ∧ reservedAddress a = false ∧ readOnlyAddress a = false ∧ writeOnlyAddress a = false) ∧ 0 < 16 ∧ 15 < 16 := by decide

theorem witness_WriteChangesNoOtherAddress : 0x00A ≠ 0x009 ∧ (∀ a ∈ [0x03F, 0x050], a < 0x040 ∨ 0x050 ≤ a) ∧
    (∀ a ∈ [0x04F, 0x060], a < 0x050 ∨ 0x060 ≤ a) ∧ ∀ a ∈ [0x05F, 0x070], a < 0x060 ∨ 0x070 ≤ a := by decide

theorem witness_LoadScriptFillsTheBuffer :
    (∀ buf, ([] : List Byte).length ≤ 16 ∧ (queued (scriptLoad buf [])).port.pending = scriptLoad buf []) ∧
    ((pat 380 0).length ≤ 380 ∧ (queued (scriptLoad .abuf (pat 380 0))).port.pending = scriptLoad .abuf (pat 380 0)) ∧
    ((pat 384 0).length ≤ 384 ∧ (queued (scriptLoad .ubuf (pat 384 0))).port.pending = scriptLoad .ubuf (pat 384 0)) ∧
    ((pat 16 0).length ≤ 16 ∧ (queued (scriptLoad .lbuf (pat 16 0))).port.pending = scriptLoad .lbuf (pat 16 0)) ∧
    (pat 34 0).length ≤ 34 ∧ (queued (scriptLoad .nbuf (pat 34 0))).port.pending = scriptLoad .nbuf (pat 34 0) :=
  ⟨fun _ => ⟨by decide, rfl⟩, ⟨by simp [pat], rfl⟩, ⟨by simp [pat], rfl⟩, ⟨by simp [pat], rfl⟩, by simp [pat], rfl⟩

theorem witness_ResetLeavesTheStatedValues : 0x000 < 0x800 ∧ 0x7FF < 0x800 ∧ 15 < 16 ∧ unspecifiedAddress 0x47F = true ∧
    unspecifiedAddress 0x003 = false := by decide

theorem witness_CcmRoundTripAndLengths : 1 ≤ (pat 376 0).length ∧ (pat 376 0).length + 8 ≤ 384 ∧ 1 ≤ (pat 380 0).length ∧
    (pat 380 0).length + 4 ≤ 384 ∧ 1 ≤ [(0xaa : Byte)].length := by simp [pat]

theorem witness_CcmEncEncryptsAbufIntoUbuf : 2 ≤ (ccmState 0x02 [] []).conf.ccmcfg.toNat % 4 ∧
    ((ccmState 0x05 [] []).conf.ccmcfg.toNat % 4 < 2 ∧ (ccmState 0x05 [] []).len.alen.toNat < 1) ∧
    (∀ n ∈ [380, 381], let s := lens n 0 0 0 (ccmState 0x04 [] []);
      s.conf.ccmcfg.toNat % 4 < 2 ∧ s.conf.ccmcfg.getLsbD 2 = true ∧ (380 < s.len.alen.toNat ∨ 384 < s.len.alen.toNat + 8)) ∧
    ∀ n ∈ [1, 376], let s := lens n 0 0 0 (ccmState 0x04 [] []);
      s.conf.ccmcfg.toNat % 4 < 2 ∧ 1 ≤ s.len.alen.toNat ∧ s.len.alen.toNat ≤ 380 ∧ s.len.alen.toNat + 8 ≤ 384 := by decide

theorem witness_CcmDecOpensUbufIntoAbuf : 2 ≤ (ccmState 0x03 [] []).conf.ccmcfg.toNat % 4 ∧
    (∀ n ∈ [4, 385], let s := lens 0 n 0 0 (ccmState 0x00 [] []);
      s.conf.ccmcfg.toNat % 4 < 2 ∧ (s.len.ulen.toNat < 4 + 1 ∨ 384 < s.len.ulen.toNat)) ∧
    (let s := ccmState 0x00 [] (hex 5 0xd621ce0d86);
      s.conf.ccmcfg.toNat % 4 = 0 ∧ 4 + 1 ≤ s.len.ulen.toNat ∧ s.len.ulen.toNat ≤ 384 ∧ ccmDecrypt s.keys.kenc s.nonce 4 s.ubuf = none) ∧
    let s := ccmState 0x00 [] (hex 5 0xd621ce0d87);
    s.conf.ccmcfg.toNat % 4 = 0 ∧ 4 + 1 ≤ s.len.ulen.toNat ∧ s.len.ulen.toNat ≤ 384 ∧ ccmDecrypt s.keys.kenc s.nonce 4 s.ubuf = some [0xaa] := by
  decide +kernel

theorem witness_CcmDecUndoesCcmEnc : ∃ t, exec .ccmEnc (ccmState 0x00 [0xaa] []) = .next t ∧ decide (t.status = 0x00) = true :=
  next_of_holds (by decide +kernel)

theorem witness_UtEncEncryptsAbufIntoUbuf :
    (∀ n ∈ [0, 377, 381], let s := lens n 0 0 0 (upperState 0xE6 [] []);
      s.par.tctrl.getLsbD 7 = true ∧ (s.len.alen.toNat < 1 ∨ 380 < s.len.alen.toNat ∨ 384 < s.len.alen.toNat + 8)) ∧
    ∀ n ∈ [1, 4, 5, 376], let s := lens n 0 0 0 (upperState 0xE6 [] []);
      1 ≤ s.len.alen.toNat ∧ s.len.alen.toNat ≤ 380 ∧ s.len.alen.toNat + 8 ≤ 384 := by decide

theorem witness_UtDecOpensUbufIntoAbuf : (∀ n ∈ [8, 385], let s := lens 0 n 0 0 (upperState 0xE6 [] []);
      s.par.tctrl.getLsbD 7 = true ∧ (s.len.ulen.toNat < 8 + 1 ∨ 384 < s.len.ulen.toNat)) ∧
    (let s := upperState 0x26 [] (hex 6 0x74f7ef370e77);
      4 + 1 ≤ s.len.ulen.toNat ∧ s.len.ulen.toNat ≤ 384 ∧
        ccmDecrypt s.keys.ktrans (fromBE 104 (s.transportNonceBytes 0x02 false)) 4 s.ubuf = none) ∧
    let s := upperState 0x66 [] (hex 6 0x74f7ef370e77);
    4 + 1 ≤ s.len.ulen.toNat ∧ s.len.ulen.toNat ≤ 384 ∧
      ccmDecrypt s.keys.ktrans (fromBE 104 (s.transportNonceBytes 0x01 false)) 4 s.ubuf = some (hex 2 0x0401) := by decide +kernel

theorem witness_UtDecUndoesUtEnc : ∃ t, exec .utEnc (upperState 0xE6 (hex 5 0x0401020304) []) = .next t ∧ decide (t.status = 0x00) = true :=
  next_of_holds (by decide +kernel)

theorem witness_PecbGenBuildsPecb : (lens 0 0 0 14 State.reset).len.nlen.toNat < 15 ∧ 15 ≤ (lens 0 0 0 15 State.reset).len.nlen.toNat := by decide

theorem witness_HeaderObfuscationXorsThePecb : (lens 0 0 0 7 State.reset).len.nlen.toNat < 8 ∧ 8 ≤ (lens 0 0 0 8 State.reset).len.nlen.toNat := by
  decide

theorem witness_ObfuscationIsAnInvolution : 8 ≤ (lens 0 0 0 8 State.reset).len.nlen.toNat ∧ (pat 6 0).length = 6 := by decide

theorem witness_FrameEncryptionBuildsTheFrame :
    (∀ n ∈ [0, 17], let s := lens 0 0 n 0 State.reset; s.len.llen.toNat < 1 ∨ 16 < s.len.llen.toNat) ∧
    ∀ n ∈ [1, 16], let s := lens 0 0 n 0 State.reset; 1 ≤ s.len.llen.toNat ∧ s.len.llen.toNat ≤ 16 := by decide

/-- V39-9, V39-2, V39-14, the shortest access frame stretched to 34 bytes, and V38-1 and V38-2, the shortest and the longest frame. -/
theorem witness_FrameDecryptionChecksAndOpens :
    (∀ n ∈ [14, 35], let s := lens 0 0 0 n State.reset; s.len.nlen.toNat < 15 ∨ 34 < s.len.nlen.toNat) ∧
    (let s := receiveState (hex 15 0); 15 ≤ s.len.nlen.toNat ∧ s.len.nlen.toNat ≤ 34 ∧ s.mem.read 0x0A1 &&& 0x7F ≠ s.par.nid &&& 0x7F) ∧
    (let s := receiveState (frameF1.take 15);
      15 ≤ s.len.nlen.toNat ∧ s.len.nlen.toNat ≤ 34 ∧ s.mem.read 0x0A1 &&& 0x7F = s.par.nid &&& 0x7F ∧
        s.len.nlen.toNat - 8 < 3 + s.candidateMic) ∧
    (let s := receiveState (hex 15 0x0068a8d90e06a17b0edf55d9d4dc19 ++ hex 19 0);
      15 ≤ s.len.nlen.toNat ∧ s.len.nlen.toNat ≤ 34 ∧ s.mem.read 0x0A1 &&& 0x7F = s.par.nid &&& 0x7F ∧
        18 + s.candidateMic < s.len.nlen.toNat - 8) ∧
    (receiveState (hex 15 0x0068a8d90e06a17b0edf55d9d4dc19)).frameAdmissible ∧
    (receiveState (hex 34 0x00685e06b44e4430727fe9eb29fbda72a682cbc8935aa5d8767f2e7b02173c18a17e)).frameAdmissible := by
  unfold State.frameAdmissible
  decide +kernel

theorem witness_FrameRoundTrip :
    (let s := sendState 0x80 0x000001 0x1201 0xFFFD (hex 11 0x034b50057e400000010000);
      ∃ t, exec .netEnc s = .next t ∧ decide (t.status = 0x00 ∧ t.keys.kenc = s.keys.kenc ∧ t.keys.kpriv = s.keys.kpriv ∧
        t.par.nid &&& 0x7F = s.par.nid &&& 0x7F ∧ t.par.ivindex = s.par.ivindex ∧ t.nbuf = t.nbuf ∧ t.len.nlen = t.len.nlen) = true) ∧
    let s := sendState 0x80 0x000001 0x0001 0x0000 (hex 2 0);
    ∃ t, exec .proxyEnc s = .next t ∧ decide (t.status = 0x00 ∧ t.keys.kenc = s.keys.kenc ∧ t.keys.kpriv = s.keys.kpriv ∧
      t.par.nid &&& 0x7F = s.par.nid &&& 0x7F ∧ t.par.ivindex = s.par.ivindex ∧ t.nbuf = t.nbuf ∧ t.len.nlen = t.len.nlen) = true :=
  ⟨next_of_holds (by decide +kernel), next_of_holds (by decide +kernel)⟩

theorem witness_LtFrameBuildsTheLowerPdu :
    (∀ n ∈ [0, 385], let s := lens 0 n 0 0 State.reset; s.par.ctlttl.getLsbD 7 = false ∧ (s.len.ulen.toNat < 1 ∨ 32 * 12 < s.len.ulen.toNat)) ∧
    (let s := framerState 0x04 0x66 0x00 0x01 0 (pat 12 0); 1 ≤ s.len.ulen.toNat ∧ s.len.ulen.toNat ≤ 12 ∧ s.par.sego.toNat % 32 ≠ 0) ∧
    (∀ n ∈ [1, 12], let s := framerState 0x04 0x66 0x00 0x20 0 (pat n 0); 1 ≤ s.len.ulen.toNat ∧ s.len.ulen.toNat ≤ 12 ∧ s.par.sego.toNat % 32 = 0) ∧
    (let s := framerState 0x04 0x66 0x00 0x02 0 (pat 13 0);
      12 < s.len.ulen.toNat ∧ s.len.ulen.toNat ≤ 32 * 12 ∧ (s.len.ulen.toNat + 12 - 1) / 12 - 1 < s.par.sego.toNat % 32) ∧
    (∀ n ∈ [13, 384], let s := lens 0 n 0 0 (framerState 0x04 0x66 0x00 0x01 0 []);
      12 < s.len.ulen.toNat ∧ s.len.ulen.toNat ≤ 32 * 12 ∧ s.par.sego.toNat % 32 ≤ (s.len.ulen.toNat + 12 - 1) / 12 - 1) := by decide

theorem witness_SegmentsConcatenateToTheMessage :
    (∀ n ∈ [13, 384], let s := lens 0 n 0 0 State.reset; s.par.ctlttl.getLsbD 7 = false ∧ 12 < s.len.ulen.toNat ∧ s.len.ulen.toNat ≤ 32 * 12) ∧
    ∀ n ∈ [9, 256], let s := lens 0 n 0 0 (framerState 0x80 0 0 0 0 []);
      s.par.ctlttl.getLsbD 7 = true ∧ 8 < s.len.ulen.toNat ∧ s.len.ulen.toNat ≤ 32 * 8 := by decide

/-- V44-13, V44-12, V44-14, V44-11, V44-10. -/
theorem witness_LtParseFormatChecks :
    (∀ n ∈ [1, 17], let s := lens 0 0 n 0 State.reset; s.len.llen.toNat < 2 ∨ 16 < s.len.llen.toNat) ∧
    (let s := parseState 0x04 0x100 1 State.reset.ctx (hex 4 0xe6040001);
      2 ≤ s.len.llen.toNat ∧ s.len.llen.toNat ≤ 16 ∧ 128 ≤ (s.mem.read 0x090).toNat ∧ s.len.llen.toNat < 5) ∧
    (let s := parseState 0x84 0x100 1 State.reset.ctx (hex 4 0x8a040001 ++ pat 9 0);
      2 ≤ s.len.llen.toNat ∧ s.len.llen.toNat ≤ 16 ∧ 128 ≤ (s.mem.read 0x090).toNat ∧ s.par.ctlttl.getLsbD 7 = true ∧ 4 + 8 < s.len.llen.toNat) ∧
    (let s := parseState 0x04 0x100 1 State.reset.ctx (hex 5 0xe6040041aa);
      128 ≤ (s.mem.read 0x090).toNat ∧ 5 ≤ s.len.llen.toNat ∧ s.len.llen.toNat ≤ 4 + 12 ∧
        (s.mem.read 0x093).toNat % 32 < (s.mem.read 0x092).toNat % 4 * 8 + (s.mem.read 0x093).toNat / 32) ∧
    let s := parseState 0x04 0x001FFE 1 State.reset.ctx (hex 5 0xe67ffc00aa);
    128 ≤ (s.mem.read 0x090).toNat ∧ 5 ≤ s.len.llen.toNat ∧ s.len.llen.toNat ≤ 4 + 12 ∧
      (s.mem.read 0x092).toNat % 4 * 8 + (s.mem.read 0x093).toNat / 32 ≤ (s.mem.read 0x093).toNat % 32 ∧ s.par.nseq.toNat < 0x2000 ∧
      s.par.nseq.toNat < (s.mem.read 0x091).toNat % 128 * 64 + (s.mem.read 0x092).toNat / 4 := by decide

/-- V44-18 and its shortest form. -/
theorem witness_UnsegmentedPduIsDelivered : ∀ n ∈ [1, 15], let s := parseState 0x00 0 0 State.reset.ctx (0x7f :: pat n 0);
    2 ≤ s.len.llen.toNat ∧ s.len.llen.toNat ≤ 16 ∧ (s.mem.read 0x090).getLsbD 7 = false := by decide

/-- W1, Z2: no SeqAuth recorded, and a lower one. -/
theorem witness_NewSeqAuthStartsReassembly :
    (let s := parseState 0x04 0x000100 1 State.reset.ctx (segS 0);
      s.Receives (segmentFields s.lbuf) 0x000100 ∧ s.ctx.lsav.getLsbD 0 = false ∧ (segmentFields s.lbuf).segN ≠ 0) ∧
    let s := parseState 0x04 0x000200 1 (inProgress 0x03 0x00000001) (hex 6 0xe6080021aabb);
    s.Receives (segmentFields s.lbuf) 0x000200 ∧ s.ctx.lastseqauth.toNat < (0x000200 : Seq).toNat ∧ (segmentFields s.lbuf).segN ≠ 0 :=
  ⟨⟨⟨by decide, by decide, rfl, by decide, by decide⟩, by decide, by decide⟩,
    ⟨by decide, by decide, rfl, by decide, by decide⟩, by decide, by decide⟩

/-- V44-19. -/
theorem witness_SingleSegmentMessageIsDelivered :
    let s := parseState 0x00 0x002001 1 State.reset.ctx (hex 9 0xc08004000001020304);
    s.Receives (segmentFields s.lbuf) 0x002001 ∧ s.ctx.lsav.getLsbD 0 = false ∧ (segmentFields s.lbuf).segN = 0 :=
  ⟨⟨by decide, by decide, rfl, by decide, by decide⟩, by decide, by decide⟩

/-- W2. -/
theorem witness_SameSeqAuthStoresTheSegment :
    let s := parseState 0x04 0x000102 1 (inProgress 0x03 0x00000001) (segS 2);
    s.Receives (segmentFields s.lbuf) 0x000100 ∧ s.ctx.lsav.getLsbD 0 = true ∧ s.ctx.lastseqauth = 0x000100 ∧ s.ctx.flag .incRun = true ∧
      s.ctx.segvalid ||| segmentBit (segmentFields s.lbuf).segO ≠ BitVec.ofNat 32 (2 ^ ((segmentFields s.lbuf).segN.toNat + 1) - 1) :=
  ⟨⟨by decide, by decide, rfl, by decide, by decide⟩, by decide, by decide, by decide, by decide⟩

/-- The state before W5: segment 1 arrives after 0, 2 and 3. -/
def stateW5 : State := parseState 0x04 0x000104 1 (inProgress 0x05 0x0000000d) (segS 1)

theorem stateW5_represented : stateW5.Represented where
  status := by decide
  reserved := by intro r; cases r <;> decide +kernel
  memory := ⟨by decide +kernel, by decide +kernel⟩
  cells := by
    have h : ∀ c ∈ stateW5.mem, 0x090 ≤ c.1 ∧ c.1 < 0x0A0 := by decide +kernel
    exact ⟨fun c hm => ⟨.lbuf, rfl, h c hm⟩, by decide⟩
  slots := by decide +kernel

/-- W5: segment 1 after 0, 2 and 3. -/
theorem witness_LastSegmentDeliversTheMessage :
    let s := stateW5;
    s.Represented ∧ s.Receives (segmentFields s.lbuf) 0x000100 ∧ s.ctx.lsav.getLsbD 0 = true ∧ s.ctx.lastseqauth = 0x000100 ∧
      s.ctx.flag .incRun = true ∧
      s.ctx.segvalid ||| segmentBit (segmentFields s.lbuf).segO = BitVec.ofNat 32 (2 ^ ((segmentFields s.lbuf).segN.toNat + 1) - 1) :=
  ⟨stateW5_represented, ⟨by decide, by decide, rfl, by decide, by decide⟩, by decide,
    by decide, by decide, by decide⟩

/-- Z3 and W8. -/
theorem witness_StaleSegmentIsIgnored :
    (let s := parseState 0x04 0x000201 1 { inProgress 0x03 0x00000002 with lastseqauth := 0x000200 } (segS 1);
      s.Receives (segmentFields s.lbuf) 0x000100 ∧ s.ctx.lsav.getLsbD 0 = true ∧ (0x000100 : Seq).toNat < s.ctx.lastseqauth.toNat) ∧
    let s := parseState 0x04 0x000105 1 (inProgress 0x04 0x0000000f) (segS 0);
    s.Receives (segmentFields s.lbuf) 0x000100 ∧ s.ctx.lsav.getLsbD 0 = true ∧ 0x000100 = s.ctx.lastseqauth ∧ s.ctx.flag .incRun = false :=
  ⟨⟨⟨by decide, by decide, rfl, by decide, by decide⟩, by decide, by decide⟩,
    ⟨by decide, by decide, rfl, by decide, by decide⟩, by decide, by decide, by decide⟩

/-- One byte, and the longest message with its segments in reverse order, the last of them repeated. -/
theorem witness_AnyOrderReassemblesTheMessage :
    (1 ≤ [(0xaa : Byte)].length ∧ State.reset.ctx.segvalid = 0 ∧ (∀ o ∈ [(0 : BitVec 5)], o.toNat ≤ 0) ∧
      ∀ i ≤ 0, ∃ o ∈ [(0 : BitVec 5)], o.toNat = i) ∧
    let order := (31 : BitVec 5) :: (List.range 32).map fun i => BitVec.ofNat 5 (31 - i)
    (pat 384 0).length ≤ 32 * 12 ∧ ((pat 384 0).length + 12 - 1) / 12 - 1 = 31 ∧ (∀ o ∈ order, o.toNat ≤ 31) ∧
      ∀ i ≤ 31, ∃ o ∈ order, o.toNat = i :=
  ⟨by decide, by simp [pat], by simp [pat], by decide, by decide⟩

theorem witness_IncompleteTimerExpiry : State.reset.ctx.flag .incRun = false ∧ (inProgress 0x03 1).flag .incRun = true := by decide

theorem witness_AckTimerExpiry : State.reset.ctx.flag .ackRun = false ∧ (inProgress 0x03 1).flag .ackRun = true := by decide

theorem witness_BackMatchComputesTheMissingSegments : (lens 0 5 0 0 State.reset).len.ulen.toNat ≠ 6 ∧
    (lens 0 7 0 0 State.reset).len.ulen.toNat ≠ 6 ∧ (lens 0 6 0 0 State.reset).len.ulen.toNat = 6 ∧ 31 < 32 := by decide

theorem witness_CommandsWriteOnlyWhatTheirRulesList :
    (∃ t, exec .ltParse (parseState 0x04 0x000100 1 State.reset.ctx (segS 0)) = .next t ∧ decide (t.status = 0x01) = true) ∧
    Reg.nonce ∉ Instr.ltParse.writes ∧ Instr.rxReset ≠ .ltParse := ⟨next_of_holds (by decide +kernel), by decide, by decide⟩

/-- V39-4 with another key: the failure that has written PECB and NONCE. -/
theorem witness_TypedFailureLeavesOnlyScratch :
    ∃ t, exec .netDec (receiveState frameProxy) = .next t ∧ decide (t.status.getLsbD 7 = true) = true := next_of_holds (by decide +kernel)

theorem witness_CommandsDoNotReadStatusOrEvents :
    ∃ t, exec .tmrIncExp (State.reset.setCtx (inProgress 0x03 1)) = .next t ∧ decide (t.events = 0x48) = true := next_of_holds (by decide)

theorem witness_LastSeqAuthNeverDecreases : (inProgress 0x03 1).lastValid = true ∧
    ∃ t, exec .ltParse (parseState 0x04 0x000200 1 (inProgress 0x03 1) (hex 6 0xe6080021aabb)) = .next t ∧
      decide (t.ctx.lastseqauth = 0x000200) = true := ⟨by decide, next_of_holds (by decide +kernel)⟩

/-- X1. -/
theorem witness_NoAckTowardsAGroup : unicast 0xC000 = false ∧
    ∃ t, exec .ltParse (parseState 0x04 0x000100 0xC000 State.reset.ctx (segS 0)) = .next t ∧ decide (t.events = 0x01) = true :=
  ⟨by decide, next_of_holds (by decide +kernel)⟩

theorem witness_TimerRequestsTrackRflags : (TimerService.mk none none).agrees State.reset ∧
    (TimerService.mk (some 10000) (some 350)).agrees (State.reset.setCtx (inProgress 0x03 1)) ∧
    (∀ tm, ∃ d, (TimerService.mk (some 10000) (some 350)).deadline tm = some d ∧ d ≤ 10000) ∧
    (∃ d, (TimerService.mk (some 10000) (some 350)).deadline .ack = some d ∧ ¬d ≤ 349) ∧
    ∃ t, exec .tmrAckExp (State.reset.setCtx (inProgress 0x03 1)) = .next t ∧ decide (t.events = 0x10) = true :=
  ⟨fun tm => by cases tm <;> decide, fun tm => by cases tm <;> decide, fun tm => by cases tm <;> exact ⟨_, rfl, by decide⟩,
    ⟨350, rfl, by decide⟩, next_of_holds (by decide)⟩

/-- R75, R57 to R60: the boundaries of the four buffers. -/
theorem witness_EachAddressReadsItsRegister : ∀ a ∈ [0x090, 0x09F, 0x0A0, 0x0C1, 0x100, 0x27B, 0x300, 0x47F],
    (0x090 ≤ a ∧ a ≤ 0x09F) ∨ (0x0A0 ≤ a ∧ a ≤ 0x0C1) ∨ (0x100 ≤ a ∧ a ≤ 0x27B) ∨ (0x300 ≤ a ∧ a ≤ 0x47F) := by decide

theorem inProgress_consistent : (inProgress 0x03 1).Consistent := ⟨by decide, by decide, by decide, by decide⟩

/-- A command while a message is in progress, and a write of LASTSEQAUTH while RFLAGS is 0. -/
theorem witness_StepKeepsTheContextConsistent :
    (let s := (State.reset.setCtx (inProgress 0x03 1)).issue 0x4B;
      s.ctx.Consistent ∧ s.hostDisciplined ∧ ∃ t, step s = .next t ∧ decide (t.ctx.rflags = 0x00) = true) ∧
    let s := queued [.write 0x020 0x5A];
    s.ctx.Consistent ∧ s.hostDisciplined ∧ ∃ t, step s = .next t ∧ decide (t.ctx.lastseqauth = 0x5A0000) = true := by
  refine ⟨⟨inProgress_consistent, ?_, next_of_holds (by decide)⟩, ⟨by decide, by decide, by decide, by decide⟩, ?_, next_of_holds (by decide)⟩
  · intro i rest h a v hi h1 h2
    subst hi
    simp only [State.issue, State.setCtx, State.reset, Reg.base, List.cons.injEq, HostInput.write.injEq] at h
    omega
  · intro i rest h a v hi h1 h2
    rfl

theorem witness_StepKeepsTheRepresentation :
    let s := stateW5.issue 0x48;
    s.Represented ∧ ∃ t, step s = .next t ∧ decide (t.status = 0x00 ∧ t.len.ulen = 48) = true :=
  ⟨⟨stateW5_represented.status, fun r => by cases r <;> exact stateW5_represented.reserved _, stateW5_represented.memory,
    stateW5_represented.cells, stateW5_represented.slots⟩, next_of_holds (by decide +kernel)⟩

end Sys2Proof.Tests
end

