-- ==== Sys2Proof/Proofs/ReservedAddresses.lean ====
section
/-! The reserved addresses of 20_memory.md R75: they are gaps of the register map, and the window holds nothing in a gap. -/

namespace Sys2Proof.Machine

/-- R75's list as linear arithmetic. -/
theorem reservedAddress_iff (a : Nat) : reservedAddress a = true ↔
    a = 0x01D ∨ (0x026 ≤ a ∧ a ≤ 0x027) ∨ (0x07D ≤ a ∧ a ≤ 0x07F) ∨ (0x086 ≤ a ∧ a ≤ 0x087) ∨ (0x08E ≤ a ∧ a ≤ 0x08F) ∨
      (0x0C2 ≤ a ∧ a ≤ 0x0FF) ∨ (0x27C ≤ a ∧ a ≤ 0x2FF) ∨ (0x480 ≤ a ∧ a ≤ 0x7FF) := by
  simp only [reservedAddress, Bool.or_eq_true, Bool.and_eq_true, decide_eq_true_eq, or_assoc]

/-- No register spans a reserved address. -/
theorem Reg.not_spans_of_reservedAddress (r : Reg) (a : Nat) (h : reservedAddress a = true) : a < r.base ∨ r.base + r.size ≤ a := by
  rw [reservedAddress_iff] at h
  cases r <;> simp only [Reg.base, Reg.size] <;> omega

theorem locate_of_reservedAddress (a : Nat) (h : reservedAddress a = true) : locate a = none :=
  (locate_eq_none a).mpr fun r => r.not_spans_of_reservedAddress a h

/-- A read where no register stands (R72). -/
theorem State.windowRead_of_locate_none (s : State) (a : Nat) (h : locate a = none) : s.windowRead a = 0x00 := by
  simp only [State.windowRead, h]

/-- A write where no register stands (R73). -/
theorem State.windowWrite_of_locate_none (s : State) (a : Nat) (v : Byte) (h : locate a = none) : s.windowWrite a v = s := by
  simp only [State.windowWrite, h]

/-- Settles O8: a reserved address locates to no register, and there a read gives 0x00 and a write stores nothing. -/
theorem reservedAddressesReadZeroAndIgnoreWrites : Obligations.ReservedAddressesReadZeroAndIgnoreWrites := by
  intro s a v h
  have hnone : locate a = none := locate_of_reservedAddress a h
  exact ⟨s.windowRead_of_locate_none a hnone, s.windowWrite_of_locate_none a v hnone⟩

end Sys2Proof.Machine
end

