-- ==== Sys2Proof/Proofs/Frames.lean ====
section
/-! What the operations every command shares (30_encoding.md R98) and the buffer writes of R11 leave unchanged, as frames, and what a buffer
reads after it was filled. -/

namespace Sys2Proof.Machine

theorem State.regBytes_begin (s : State) (r : Reg) (h : r ≠ .events) : s.begin.regBytes r = s.regBytes r := by
  cases r <;> simp_all [State.regBytes]

theorem State.regBytes_finish (s : State) (c : StatusCode) (r : Reg) (h : r ≠ .status) : (s.finish c).regBytes r = s.regBytes r := by
  cases r <;> simp_all [State.regBytes]

theorem State.regBytes_putUbuf (s : State) (bs : List Byte) (r : Reg) (h : r ≠ .ulen) (hb : r.isBuffer = false) :
    (s.putUbuf bs).regBytes r = s.regBytes r := by
  cases r <;> simp_all [State.regBytes, Reg.isBuffer]

theorem State.regBytes_putAbuf (s : State) (bs : List Byte) (r : Reg) (h : r ≠ .alen) (hb : r.isBuffer = false) :
    (s.putAbuf bs).regBytes r = s.regBytes r := by
  cases r <;> simp_all [State.regBytes, Reg.isBuffer]

/-- Clearing EVENTS is inside every frame. -/
theorem State.frame_begin (s : State) : s.Frame s.begin [] 0 0 where
  regs r _ _ he _ := s.regBytes_begin r he
  bytes _ _ := rfl
  hidden := ⟨rfl, rfl⟩
  port := rfl

/-- Writing STATUS is inside every frame. -/
theorem State.Frame.finish {s t : State} {regs : List Reg} {lo n : Nat} (h : s.Frame t regs lo n) (c : StatusCode) :
    s.Frame (t.finish c) regs lo n where
  regs r hr hs he hb := (t.regBytes_finish c r hs).trans (h.regs r hr hs he hb)
  bytes := h.bytes
  hidden := h.hidden
  port := h.port

/-- Filling UBUF adds ULEN and the bytes written to a frame that has no bytes yet. -/
theorem State.Frame.putUbuf {s t : State} {regs : List Reg} (h : s.Frame t regs 0 0) (bs : List Byte) :
    s.Frame (t.putUbuf bs) (.ulen :: regs) ubufBase bs.length where
  regs r hr hs he hb := by
    obtain ⟨hulen, hregs⟩ := List.ne_and_not_mem_of_not_mem_cons hr
    exact (t.regBytes_putUbuf bs r hulen hb).trans (h.regs r hregs hs he hb)
  bytes a ha := (Memory.read_writeRange_outside _ _ _ a ha).trans (h.bytes a (.inr (by omega)))
  hidden := h.hidden
  port := h.port

/-- Filling ABUF adds ALEN and the bytes written to a frame that has no bytes yet. -/
theorem State.Frame.putAbuf {s t : State} {regs : List Reg} (h : s.Frame t regs 0 0) (bs : List Byte) :
    s.Frame (t.putAbuf bs) (.alen :: regs) abufBase bs.length where
  regs r hr hs he hb := by
    obtain ⟨halen, hregs⟩ := List.ne_and_not_mem_of_not_mem_cons hr
    exact (t.regBytes_putAbuf bs r halen hb).trans (h.regs r hregs hs he hb)
  bytes a ha := (Memory.read_writeRange_outside _ _ _ a ha).trans (h.bytes a (.inr (by omega)))
  hidden := h.hidden
  port := h.port

/-- A command that fails before it has written anything else writes STATUS and EVENTS alone (R98, R262). -/
theorem State.failedWith_begin_fail (s : State) (c : StatusCode) : s.FailedWith (s.begin.fail c) c.toByte :=
  ⟨rfl, rfl, s.frame_begin.finish c⟩

/-! The buffers and their length registers read back. -/

@[simp] theorem State.abuf_length (s : State) : s.abuf.length = s.len.alen.toNat := Memory.readRange_length _ _ _
@[simp] theorem State.ubuf_length (s : State) : s.ubuf.length = s.len.ulen.toNat := Memory.readRange_length _ _ _

theorem State.putUbuf_ulen_toNat (s : State) (bs : List Byte) (h : bs.length ≤ 384) : (s.putUbuf bs).len.ulen.toNat = bs.length :=
  (BitVec.toNat_ofNat _ _).trans (Nat.mod_eq_of_lt (by omega))

theorem State.putAbuf_alen_toNat (s : State) (bs : List Byte) (h : bs.length ≤ 380) : (s.putAbuf bs).len.alen.toNat = bs.length :=
  (BitVec.toNat_ofNat _ _).trans (Nat.mod_eq_of_lt (by omega))

theorem State.putUbuf_ubuf (s : State) (bs : List Byte) (h : bs.length ≤ 384) : (s.putUbuf bs).ubuf = bs :=
  Memory.readRange_writeRange _ _ _ _ (s.putUbuf_ulen_toNat bs h)

theorem State.putAbuf_abuf (s : State) (bs : List Byte) (h : bs.length ≤ 380) : (s.putAbuf bs).abuf = bs :=
  Memory.readRange_writeRange _ _ _ _ (s.putAbuf_alen_toNat bs h)

end Sys2Proof.Machine
end

