-- ==== Sys2Proof/Proofs/CcmUnit.lean ====
section
/-! The raw commands of the CCM unit (41_ccm.md R137, R138): an equation per branch of each, and what each leaves in the state. -/

namespace Sys2Proof.Machine

/-! The operands of CCMCFG (10_state.md R29). -/

theorem State.ksel_eq (s : State) : s.ksel = s.conf.ccmcfg.toNat % 4 := by
  simp [State.ksel]

theorem transMicLen_eq (long : Bool) : transMicLen long = if long then 8 else 4 := rfl

theorem transMicLen_bounds (long : Bool) : 4 ≤ transMicLen long ∧ transMicLen long ≤ 8 := by
  cases long <;> decide

/-! CCM_ENC. -/

/-- R137's checks in order and its result, the operands read from the state before the command. -/
theorem exec_ccmEnc (s : State) : exec .ccmEnc s =
    if 2 ≤ s.ksel then .next (s.begin.fail .errField)
    else if s.len.alen.toNat < 1 ∨ 380 < s.len.alen.toNat then .next (s.begin.fail .errLen)
    else if 384 < s.len.alen.toNat + transMicLen s.micl then .next (s.begin.fail .errLen)
    else .next ((s.begin.putUbuf (ccmEncrypt s.rawKey s.nonce (transMicLen s.micl) s.abuf)).finish .ok) := rfl

theorem exec_ccmEnc_of_ksel (s : State) (hk : 2 ≤ s.ksel) : exec .ccmEnc s = .next (s.begin.fail .errField) := by
  rw [exec_ccmEnc, if_pos hk]

theorem exec_ccmEnc_of_length (s : State) (hk : s.ksel < 2)
    (hn : s.len.alen.toNat < 1 ∨ 380 < s.len.alen.toNat ∨ 384 < s.len.alen.toNat + transMicLen s.micl) :
    exec .ccmEnc s = .next (s.begin.fail .errLen) := by
  rw [exec_ccmEnc, if_neg (Nat.not_le.mpr hk)]
  by_cases hrange : s.len.alen.toNat < 1 ∨ 380 < s.len.alen.toNat
  · rw [if_pos hrange]
  · rw [if_neg hrange, if_pos (by omega)]

theorem exec_ccmEnc_of_valid (s : State) (hk : s.ksel < 2) (h1 : 1 ≤ s.len.alen.toNat) (h380 : s.len.alen.toNat ≤ 380)
    (h384 : s.len.alen.toNat + transMicLen s.micl ≤ 384) :
    exec .ccmEnc s = .next ((s.begin.putUbuf (ccmEncrypt s.rawKey s.nonce (transMicLen s.micl) s.abuf)).finish .ok) := by
  rw [exec_ccmEnc, if_neg (by omega), if_neg (by omega), if_neg (by omega)]

/-- Settles O21: a failed check is one of R137's in order, and otherwise UBUF holds the encryption, whose length is ALEN + M. -/
theorem ccmEncEncryptsAbufIntoUbuf : Obligations.CcmEncEncryptsAbufIntoUbuf := by
  intro s n ksel m key
  have hksel : s.ksel = ksel := s.ksel_eq
  have hkey : s.rawKey = key := by rw [State.rawKey, hksel]
  have hm : transMicLen s.micl = m := transMicLen_eq s.micl
  refine ⟨fun hk => ?badKey, fun hk hn => ?badLength, fun hk h1 h380 h384 => ?encrypted⟩
  case badKey => exact ⟨_, exec_ccmEnc_of_ksel s (hksel ▸ hk), s.failedWith_begin_fail .errField⟩
  case badLength => exact ⟨_, exec_ccmEnc_of_length s (hksel ▸ hk) (hm ▸ hn), s.failedWith_begin_fail .errLen⟩
  case encrypted =>
    have hrun := exec_ccmEnc_of_valid s (hksel ▸ hk) h1 h380 (hm ▸ h384)
    rw [hkey, hm] at hrun
    have hm16 : m ≤ 16 := by have := transMicLen_bounds s.micl; omega
    have hlen : (ccmEncrypt key s.nonce m s.abuf).length = n + m := by rw [ccmEncrypt_length _ _ _ _ hm16, State.abuf_length]
    have hcap : (ccmEncrypt key s.nonce m s.abuf).length ≤ 384 := hlen.trans_le h384
    exact ⟨_, hrun, rfl, rfl, State.putUbuf_ubuf _ _ hcap, (State.putUbuf_ulen_toNat _ _ hcap).trans hlen,
      hlen ▸ (s.frame_begin.putUbuf _).finish .ok⟩

/-! CCM_DEC. -/

/-- R138's checks in order and its result, the operands read from the state before the command. -/
theorem exec_ccmDec (s : State) : exec .ccmDec s =
    if 2 ≤ s.ksel then .next (s.begin.fail .errField)
    else if s.len.ulen.toNat < transMicLen s.micl + 1 ∨ 384 < s.len.ulen.toNat then .next (s.begin.fail .errLen)
    else .next ((ccmDecrypt s.rawKey s.nonce (transMicLen s.micl) s.ubuf).elim (s.begin.fail .errAuth)
      fun p => (s.begin.putAbuf p).finish .ok) := by
  have hrun : exec .ccmDec s = execCcmDec s := rfl
  have hanswer : ccmDecrypt s.begin.rawKey s.begin.nonce (transMicLen s.begin.micl) s.begin.ubuf =
      ccmDecrypt s.rawKey s.nonce (transMicLen s.micl) s.ubuf := rfl
  rw [hrun, execCcmDec, hanswer]
  cases ccmDecrypt s.rawKey s.nonce (transMicLen s.micl) s.ubuf <;> rfl

theorem exec_ccmDec_of_ksel (s : State) (hk : 2 ≤ s.ksel) : exec .ccmDec s = .next (s.begin.fail .errField) := by
  rw [exec_ccmDec, if_pos hk]

theorem exec_ccmDec_of_length (s : State) (hk : s.ksel < 2)
    (hn : s.len.ulen.toNat < transMicLen s.micl + 1 ∨ 384 < s.len.ulen.toNat) :
    exec .ccmDec s = .next (s.begin.fail .errLen) := by
  rw [exec_ccmDec, if_neg (by omega), if_pos hn]

theorem exec_ccmDec_of_valid (s : State) (hk : s.ksel < 2) (hlo : transMicLen s.micl + 1 ≤ s.len.ulen.toNat)
    (hhi : s.len.ulen.toNat ≤ 384) :
    exec .ccmDec s = .next ((ccmDecrypt s.rawKey s.nonce (transMicLen s.micl) s.ubuf).elim (s.begin.fail .errAuth)
      fun p => (s.begin.putAbuf p).finish .ok) := by
  rw [exec_ccmDec, if_neg (by omega), if_neg (by omega)]

/-- Settles O22: a failed check is one of R138's in order, ERR_AUTH included, and otherwise ABUF holds the plaintext, whose length is
ULEN - M. -/
theorem ccmDecOpensUbufIntoAbuf : Obligations.CcmDecOpensUbufIntoAbuf := by
  intro s n ksel m key
  have hksel : s.ksel = ksel := s.ksel_eq
  have hkey : s.rawKey = key := by rw [State.rawKey, hksel]
  have hm : transMicLen s.micl = m := transMicLen_eq s.micl
  have hrun (hk : ksel < 2) (hlo : m + 1 ≤ n) (hhi : n ≤ 384) := exec_ccmDec_of_valid s (hksel ▸ hk) (hm ▸ hlo) hhi
  rw [hkey, hm] at hrun
  refine ⟨fun hk => ?badKey, fun hk hn => ?badLength, fun hk hlo hhi hauth => ?unverified, fun p hk hlo hhi hauth => ?opened⟩
  case badKey => exact ⟨_, exec_ccmDec_of_ksel s (hksel ▸ hk), s.failedWith_begin_fail .errField⟩
  case badLength => exact ⟨_, exec_ccmDec_of_length s (hksel ▸ hk) (hm ▸ hn), s.failedWith_begin_fail .errLen⟩
  case unverified =>
    refine ⟨_, hrun hk hlo hhi, ?_⟩
    rw [hauth]
    exact s.failedWith_begin_fail .errAuth
  case opened =>
    have hlen : p.length = n - m := by rw [ccmDecrypt_length _ _ _ _ _ hauth, State.ubuf_length]
    have hcap : p.length ≤ 380 := by have := transMicLen_bounds s.micl; omega
    refine ⟨_, hrun hk hlo hhi, ?_⟩
    rw [hauth]
    exact ⟨rfl, rfl, State.putAbuf_abuf _ _ hcap, (State.putAbuf_alen_toNat _ _ hcap).trans hlen,
      hlen ▸ (s.frame_begin.putAbuf _).finish .ok⟩

end Sys2Proof.Machine
end

