-- ==== Sys2Proof/Proofs/NonceMux.lean ====
section
/-! The nonce construction mux (42_nonce_upper.md R150 to R156): the one layout its nonces share, and the four commands that write NONCE
alone. -/

namespace Sys2Proof.Machine

/-! What the host reads of the registers a nonce is built from: none of them has a reserved bit. -/

@[simp] theorem State.rd_ctlttl (s : State) : s.rd .ctlttl = [s.par.ctlttl] :=
  (s.rd_eq_regBytes .ctlttl (by decide) rfl fun _ _ => rfl).trans (beBytes_one _)
@[simp] theorem State.rd_nseq (s : State) : s.rd .nseq = beBytes 3 s.par.nseq :=
  s.rd_eq_regBytes .nseq (by decide) rfl fun _ _ => rfl
@[simp] theorem State.rd_src (s : State) : s.rd .src = beBytes 2 s.par.src :=
  s.rd_eq_regBytes .src (by decide) rfl fun _ _ => rfl
@[simp] theorem State.rd_dst (s : State) : s.rd .dst = beBytes 2 s.par.dst :=
  s.rd_eq_regBytes .dst (by decide) rfl fun _ _ => rfl
@[simp] theorem State.rd_ivindex (s : State) : s.rd .ivindex = beBytes 4 s.par.ivindex :=
  s.rd_eq_regBytes .ivindex (by decide) rfl fun _ _ => rfl
@[simp] theorem State.rd_tseq (s : State) : s.rd .tseq = beBytes 3 s.par.tseq :=
  s.rd_eq_regBytes .tseq (by decide) rfl fun _ _ => rfl
@[simp] theorem State.rd_nonce (s : State) : s.rd .nonce = beBytes 13 s.nonce :=
  s.rd_eq_regBytes .nonce (by decide) rfl fun _ _ => rfl

/-! The layouts of R151 to R154. -/

/-- The layout all four nonces share: a type byte, a second byte that depends on the type, and fields of 3, 2, 2 and 4 bytes. -/
theorem beBytes_nonceLayout (type second : Byte) (seq : Seq) (src dst : MeshAddr) (iv : BitVec 32) :
    beBytes 13 (type ++ second ++ seq ++ src ++ dst ++ iv : Nonce) =
      [type, second] ++ beBytes 3 seq ++ beBytes 2 src ++ beBytes 2 dst ++ beBytes 4 iv := by
  rw [beBytes_append _ iv 9 4 rfl, beBytes_append _ dst 7 2 rfl, beBytes_append _ src 5 2 rfl, beBytes_append _ seq 2 3 rfl,
    beBytes_append type second 1 1 rfl, beBytes_one, beBytes_one, List.singleton_append]

/-- The two zero bytes of R151 and R154. -/
theorem beBytes_two_zero : beBytes 2 0x0000#16 = [0x00, 0x00] := by decide

theorem State.beBytes_networkNonce (s : State) :
    beBytes 13 (networkNonce s.par.ctlttl s.par.nseq s.par.src s.par.ivindex) = s.networkNonceBytes := by
  rw [networkNonce, beBytes_nonceLayout, beBytes_two_zero]
  simp [State.networkNonceBytes]

theorem State.beBytes_proxyNonce (s : State) :
    beBytes 13 (proxyNonce s.par.ctlttl s.par.nseq s.par.src s.par.ivindex) = s.proxyNonceBytes := by
  rw [proxyNonce, beBytes_nonceLayout, beBytes_two_zero]
  simp [State.proxyNonceBytes]

theorem State.beBytes_transportNonceOf (s : State) (type : Byte) (aszmic : Bool) :
    beBytes 13 (s.transportNonceOf type aszmic) = s.transportNonceBytes type aszmic := by
  have hflags : BitVec.ofBool aszmic ++ 0#7 = if aszmic then 0x80#8 else 0x00#8 := by cases aszmic <;> decide
  rw [State.transportNonceOf, transportNonce, beBytes_nonceLayout, hflags]
  simp [State.transportNonceBytes]

/-- The nonce that the bytes of R152 spell. -/
theorem State.fromBE_transportNonceBytes (s : State) (type : Byte) (aszmic : Bool) :
    fromBE 104 (s.transportNonceBytes type aszmic) = s.transportNonceOf type aszmic := by
  rw [← s.beBytes_transportNonceOf, fromBE_beBytes 13 _ rfl]

/-! Writing NONCE. -/

theorem State.regBytes_setNonce (s : State) (n : Nonce) (r : Reg) (h : r ≠ .nonce) : (s.setNonce n).regBytes r = s.regBytes r := by
  cases r <;> simp_all [State.regBytes]

/-- Writing NONCE adds it to a frame. -/
theorem State.Frame.setNonce {s t : State} {regs : List Reg} {lo k : Nat} (h : s.Frame t regs lo k) (n : Nonce) :
    s.Frame (t.setNonce n) (.nonce :: regs) lo k where
  regs r hr hs he hb := by
    obtain ⟨hnonce, hregs⟩ := List.ne_and_not_mem_of_not_mem_cons hr
    exact (t.regBytes_setNonce n r hnonce).trans (h.regs r hregs hs he hb)
  bytes := h.bytes
  hidden := h.hidden
  port := h.port

/-- What a command of the mux leaves, whichever nonce it builds. -/
theorem exists_nonce_written {s : State} {i : Instr} {n : Nonce} {bytes : List Byte}
    (hrun : exec i s = .next ((s.begin.setNonce n).finish .ok)) (hbytes : beBytes 13 n = bytes) :
    ∃ t, exec i s = .next t ∧ t.status = 0x00 ∧ t.events = 0x00 ∧ t.rd .nonce = bytes ∧ s.Frame t [.nonce] 0 0 :=
  ⟨_, hrun, rfl, rfl, (State.rd_nonce _).trans hbytes, (s.frame_begin.setNonce n).finish .ok⟩

/-! The four commands. -/

theorem exec_nonceNet (s : State) : exec .nonceNet s =
    .next ((s.begin.setNonce (networkNonce s.par.ctlttl s.par.nseq s.par.src s.par.ivindex)).finish .ok) := rfl

theorem exec_nonceProxy (s : State) : exec .nonceProxy s =
    .next ((s.begin.setNonce (proxyNonce s.par.ctlttl s.par.nseq s.par.src s.par.ivindex)).finish .ok) := rfl

theorem exec_nonceApp (s : State) : exec .nonceApp s =
    .next ((s.begin.setNonce (s.transportNonceOf 0x01 (s.par.tctrl.getLsbD 7))).finish .ok) := rfl

theorem exec_nonceDev (s : State) : exec .nonceDev s =
    .next ((s.begin.setNonce (s.transportNonceOf 0x02 (s.par.tctrl.getLsbD 7))).finish .ok) := rfl

/-- Settles O17: both commands write NONCE alone, and the nonce each builds has the bytes of R151 or R154. -/
theorem networkAndProxyNonceLayouts : Obligations.NetworkAndProxyNonceLayouts := fun s =>
  ⟨exists_nonce_written (exec_nonceNet s) s.beBytes_networkNonce, exists_nonce_written (exec_nonceProxy s) s.beBytes_proxyNonce⟩

/-- Settles O18: both commands write NONCE alone, and the nonce each builds has the bytes of R152 or R153 with SZMIC as it stands. -/
theorem applicationAndDeviceNonceLayouts : Obligations.ApplicationAndDeviceNonceLayouts := fun s =>
  ⟨exists_nonce_written (exec_nonceApp s) (s.beBytes_transportNonceOf _ _),
    exists_nonce_written (exec_nonceDev s) (s.beBytes_transportNonceOf _ _)⟩

end Sys2Proof.Machine
end

