-- ==== Sys2Proof/Proofs/UpperTransport.lean ====
section
/-! Upper-transport encryption and decryption (42_nonce_upper.md R157 to R160): what each command does by its length checks, and what it
leaves in the state. -/

namespace Sys2Proof.Machine

/-- A frame may list more registers, in any order. -/
theorem State.Frame.mono {s t : State} {regs regs' : List Reg} {lo n : Nat} (h : s.Frame t regs lo n) (hsub : regs ⊆ regs') :
    s.Frame t regs' lo n where
  regs r hr hs he hb := h.regs r (fun hmem => hr (hsub hmem)) hs he hb
  bytes := h.bytes
  hidden := h.hidden
  port := h.port

/-- The nonce both commands build: AKF selects its type (R156), each command its flag (R155). -/
def State.upperNonce (s : State) (aszmic : Bool) : Nonce := s.transportNonceOf s.transportType aszmic

/-- R158's and R159's nonce in both readings: the bytes of R152 or R153 that AKF selects, and the value they spell. -/
theorem State.upperNonce_bytes (s : State) (aszmic : Bool) :
    let bytes := s.transportNonceBytes (if s.par.tctrl.getLsbD 6 then 0x01 else 0x02) aszmic
    beBytes 13 (s.upperNonce aszmic) = bytes ∧ s.upperNonce aszmic = fromBE 104 bytes :=
  ⟨s.beBytes_transportNonceOf _ _, (s.fromBE_transportNonceBytes _ _).symm⟩

/-! UT_ENC. -/

/-- R157's flag as one decision: SZMIC is 1 and the PDU with a long MIC would be segmented. -/
theorem State.effectiveAszmic_eq (s : State) :
    s.effectiveAszmic = decide (s.par.tctrl.getLsbD 7 = true ∧ 12 < s.len.alen.toNat + 8) := by
  rw [Bool.decide_and, Bool.decide_eq_true]
  rfl

/-- R158's checks, which fail alike, and its result, the operands read from the state before the command. -/
theorem exec_utEnc (s : State) : exec .utEnc s =
    if s.len.alen.toNat < 1 ∨ 380 < s.len.alen.toNat ∨ 384 < s.len.alen.toNat + transMicLen s.effectiveAszmic then
      .next (s.begin.fail .errLen)
    else .next (((s.begin.setNonce (s.upperNonce s.effectiveAszmic)).putUbuf
      (ccmEncrypt s.keys.ktrans (s.upperNonce s.effectiveAszmic) (transMicLen s.effectiveAszmic) s.abuf)).finish .ok) := by
  have hrun : exec .utEnc s = execUtEnc s := rfl
  simp only [hrun, execUtEnc, ← ite_or, or_assoc]
  rfl

/-- Settles O24: a failed check is one of R158's, and otherwise NONCE is the transport nonce under the effective flag and UBUF holds the
encryption under it, whose length is ALEN + M. -/
theorem utEncEncryptsAbufIntoUbuf : Obligations.UtEncEncryptsAbufIntoUbuf := by
  intro s n long m type nonce
  have hlong : s.effectiveAszmic = decide long := s.effectiveAszmic_eq
  have hm : transMicLen s.effectiveAszmic = m := by simp only [hlong, transMicLen_eq, decide_eq_true_eq, m]
  obtain ⟨hbytes, hnonce⟩ : beBytes 13 (s.upperNonce s.effectiveAszmic) = nonce ∧ s.upperNonce s.effectiveAszmic = fromBE 104 nonce :=
    hlong ▸ s.upperNonce_bytes (decide long)
  have hrun := exec_utEnc s
  rw [hm] at hrun
  refine ⟨fun hn => ?badLength, fun h1 h380 h384 => ?encrypted⟩
  case badLength => exact ⟨_, hrun.trans (if_pos hn), s.failedWith_begin_fail .errLen⟩
  case encrypted =>
    rw [← hnonce]
    have hm16 : m ≤ 16 := by have := transMicLen_bounds s.effectiveAszmic; omega
    have hlen : (ccmEncrypt s.keys.ktrans (s.upperNonce s.effectiveAszmic) m s.abuf).length = n + m := by
      rw [ccmEncrypt_length _ _ _ _ hm16, State.abuf_length]
    have hcap : (ccmEncrypt s.keys.ktrans (s.upperNonce s.effectiveAszmic) m s.abuf).length ≤ 384 := hlen.trans_le h384
    exact ⟨_, hrun.trans (if_neg (by omega)), rfl, rfl, (State.rd_nonce _).trans hbytes, State.putUbuf_ubuf _ _ hcap,
      (State.putUbuf_ulen_toNat _ _ hcap).trans hlen, hlen ▸ (((s.frame_begin.setNonce _).putUbuf _).finish .ok).mono (by decide)⟩

/-! UT_DEC. -/

/-- R159's check and its result, the operands read from the state before the command. -/
theorem exec_utDec (s : State) : exec .utDec s =
    if s.len.ulen.toNat < transMicLen s.szmic + 1 ∨ 384 < s.len.ulen.toNat then .next (s.begin.fail .errLen)
    else .next ((ccmDecrypt s.keys.ktrans (s.upperNonce s.szmic) (transMicLen s.szmic) s.ubuf).elim
      ((s.begin.setNonce (s.upperNonce s.szmic)).fail .errAuth)
      fun p => ((s.begin.setNonce (s.upperNonce s.szmic)).putAbuf p).finish .ok) := by
  have hrun : exec .utDec s = execUtDec s := rfl
  have hanswer : ccmDecrypt s.begin.keys.ktrans (s.begin.transportNonceOf s.begin.transportType s.begin.szmic) (transMicLen s.begin.szmic)
      s.begin.ubuf = ccmDecrypt s.keys.ktrans (s.upperNonce s.szmic) (transMicLen s.szmic) s.ubuf := rfl
  rw [hrun, execUtDec]
  dsimp only
  rw [hanswer]
  cases ccmDecrypt s.keys.ktrans (s.upperNonce s.szmic) (transMicLen s.szmic) s.ubuf <;> rfl

/-- Settles O25: a failed length check writes nothing more than STATUS and EVENTS; past it NONCE is the transport nonce with SZMIC as it
stands, whether or not the decryption under it verifies, and ABUF takes the plaintext, whose length is ULEN - M, only if it does. -/
theorem utDecOpensUbufIntoAbuf : Obligations.UtDecOpensUbufIntoAbuf := by
  intro s n m type nonce opened
  have hm : transMicLen s.szmic = m := transMicLen_eq s.szmic
  obtain ⟨hbytes, hnonce⟩ : beBytes 13 (s.upperNonce s.szmic) = nonce ∧ s.upperNonce s.szmic = fromBE 104 nonce :=
    s.upperNonce_bytes s.szmic
  have hopened : ccmDecrypt s.keys.ktrans (s.upperNonce s.szmic) m s.ubuf = opened := by rw [hnonce]
  have hrun := exec_utDec s
  rw [hm, hopened] at hrun
  have hnext (hlo : m + 1 ≤ n) (hhi : n ≤ 384) := hrun.trans (if_neg (by omega))
  refine ⟨fun hn => ?badLength, fun hlo hhi hauth => ?unverified, fun p hlo hhi hauth => ?opened⟩
  case badLength => exact ⟨_, hrun.trans (if_pos hn), s.failedWith_begin_fail .errLen⟩
  case unverified =>
    refine ⟨_, hnext hlo hhi, ?_⟩
    rw [hauth]
    exact ⟨rfl, rfl, (State.rd_nonce _).trans hbytes, (s.frame_begin.setNonce _).finish .errAuth⟩
  case opened =>
    have hlen : p.length = n - m := by rw [ccmDecrypt_length _ _ _ _ _ hauth, State.ubuf_length]
    have hcap : p.length ≤ 380 := by have := transMicLen_bounds s.szmic; omega
    refine ⟨_, hnext hlo hhi, ?_⟩
    rw [hauth]
    exact ⟨rfl, rfl, (State.rd_nonce _).trans hbytes, State.putAbuf_abuf _ _ hcap, (State.putAbuf_alen_toNat _ _ hcap).trans hlen,
      hlen ▸ (((s.frame_begin.setNonce _).putAbuf p).finish .ok).mono (by decide)⟩

end Sys2Proof.Machine
end

