-- ==== Sys2Proof/Proofs/Segmentation.lean ====
section
/-! The segmentation framer (43_segmentation.md R170 to R176): what it reads, the PDUs it builds, and what LT_FRAME leaves in the state. -/

namespace Sys2Proof.Machine

/-! The operands of the framer (10_state.md R32, R38 to R40). -/

theorem State.segIndex_toNat (s : State) : s.segIndex.toNat = s.par.sego.toNat % 32 := by
  simp [State.segIndex]

theorem State.segIndex_eq_ofNat (s : State) : s.segIndex = BitVec.ofNat 5 (s.par.sego.toNat % 32) := by
  rw [← s.segIndex_toNat, BitVec.ofNat_toNat, BitVec.setWidth_eq]

theorem State.tseqZero_eq_setWidth (s : State) : s.tseqZero = s.par.tseq.setWidth 13 :=
  (BitVec.setWidth_eq_extractLsb' (by decide)).symm

theorem State.headerBits_eq_setWidth (s : State) :
    s.headerBits = if s.par.ctlttl.getLsbD 7 then s.par.copc.setWidth 7 else s.par.tctrl.setWidth 7 := by
  simp only [BitVec.setWidth_eq_extractLsb' (show 7 ≤ 8 by decide)]
  rfl

theorem segmentSize_eq (ctl : Bool) : segmentSize ctl = if ctl then 8 else 12 := rfl

theorem segmentSize_bounds (ctl : Bool) : 0 < segmentSize ctl ∧ segmentSize ctl ≤ 12 := by
  cases ctl <;> decide

/-! The number of the last segment (R174). -/

theorem ceilDiv_sub_one (n d : Nat) (hn : 0 < n) (hd : 0 < d) : ceilDiv n d - 1 = (n - 1) / d := by
  rw [ceilDiv, Nat.sub_add_comm hn, Nat.add_div_right _ hd, Nat.succ_sub_one]

/-- A segment that is not beyond the last begins inside the message. -/
theorem mul_lt_of_le_ceilDiv_sub_one (n d i : Nat) (hn : 0 < n) (hd : 0 < d) (hi : i ≤ ceilDiv n d - 1) : i * d < n := by
  rwa [ceilDiv_sub_one n d hn hd, Nat.le_div_iff_mul_le hd, Nat.le_sub_one_iff_lt hn] at hi

theorem ceilDiv_sub_one_lt (n d m : Nat) (hn : 0 < n) (hd : 0 < d) (h : n ≤ m * d) : ceilDiv n d - 1 < m := by
  rw [ceilDiv_sub_one n d hn hd, Nat.div_lt_iff_lt_mul hd]
  exact Nat.sub_one_lt_of_le hn h

/-! The bytes a framing writes. -/

/-- R172's four header bytes are the header read as one 32-bit big-endian word. -/
theorem beBytes_segmentHeader (h0 : BitVec 7) (szmic : Bool) (z : BitVec 13) (segO segN : BitVec 5) :
    beBytes 4 (1#1 ++ h0 ++ BitVec.ofBool szmic ++ z ++ segO ++ segN : BitVec 32) = segmentHeader h0 szmic z segO segN := by
  have hword : (1#1 ++ h0 ++ BitVec.ofBool szmic ++ z ++ segO ++ segN : BitVec 32) =
      (1#1 ++ h0) ++ (BitVec.ofBool szmic ++ z.extractLsb' 6 7) ++ (z.extractLsb' 0 6 ++ segO.extractLsb' 3 2) ++
        (segO.extractLsb' 0 3 ++ segN) := by
    conv_lhs => rw [← BitVec.extractLsb'_append_extractLsb' (w := 7) (len := 6) (x := z),
      ← BitVec.extractLsb'_append_extractLsb' (w := 2) (len := 3) (x := segO)]
    simp only [BitVec.append_assoc, BitVec.cast_eq]
  rw [hword, beBytes_append _ _ 3 1 rfl, beBytes_append _ _ 2 1 rfl, beBytes_append _ _ 1 1 rfl]
  simp only [beBytes_one]
  rfl

theorem txSegOf_true_ofNat (n : Nat) (h : n < 32) : txSegOf true (BitVec.ofNat 5 n) = 0x80 ||| BitVec.ofNat 8 n := by
  have hall : ∀ x : BitVec 5, txSegOf true x = 0x80 ||| x.setWidth 8 := by decide
  rw [hall, BitVec.setWidth_ofNat_of_le_of_lt (by decide) h]

/-- Reading a stretch of a buffer through the window gives its bytes in memory. -/
theorem State.windowBytes_buffer (s : State) (r : Reg) (hb : r.isBuffer = true) (j k : Nat) (h : j + k ≤ r.size) :
    s.windowBytes (r.base + j) k = s.mem.readRange (r.base + j) k := by
  refine List.map_congr_left fun a ha => ?_
  have hlt : a < k := List.mem_range.mp ha
  rw [Nat.add_assoc, s.windowRead_buffer r (j + a) (by omega) hb]

/-- The slice of UBUF that segment `i` carries, as the host reads it (R174). -/
theorem State.segmentSlice_ubuf (s : State) (size i : Nat) (hi : i * size < s.len.ulen.toNat) (hcap : s.len.ulen.toNat ≤ 384) :
    segmentSlice s.ubuf size i = s.windowBytes (0x300 + i * size) (min size (s.len.ulen.toNat - i * size)) := by
  have hread := s.windowBytes_buffer .ubuf rfl (i * size) (min size (s.len.ulen.toNat - i * size)) (by simp only [Reg.size]; omega)
  rw [segmentSlice, State.ubuf, Memory.readRange_drop _ _ _ _ hi.le, List.take_eq_take_min, Memory.readRange_length,
    Memory.readRange_take _ _ _ _ (Nat.min_le_right _ _)]
  exact hread.symm

/-! What a framing changes. -/

theorem State.regBytes_putLbuf (s : State) (bs : List Byte) (r : Reg) (h : r ≠ .llen) (hb : r.isBuffer = false) :
    (s.putLbuf bs).regBytes r = s.regBytes r := by
  cases r <;> simp_all [State.regBytes, Reg.isBuffer]

theorem State.regBytes_setTxseg (s : State) (x : Byte) (r : Reg) (h : r ≠ .txseg) :
    (s.setPar { s.par with txseg := x }).regBytes r = s.regBytes r := by
  cases r <;> simp_all [State.regBytes]

/-- Filling LBUF adds LLEN and the bytes written to a frame that has no bytes yet. -/
theorem State.Frame.putLbuf {s t : State} {regs : List Reg} (h : s.Frame t regs 0 0) (bs : List Byte) :
    s.Frame (t.putLbuf bs) (.llen :: regs) lbufBase bs.length where
  regs r hr hs he hb := by
    obtain ⟨hllen, hregs⟩ := List.ne_and_not_mem_of_not_mem_cons hr
    exact (t.regBytes_putLbuf bs r hllen hb).trans (h.regs r hregs hs he hb)
  bytes a ha := (Memory.read_writeRange_outside _ _ _ a ha).trans (h.bytes a (.inr (by omega)))
  hidden := h.hidden
  port := h.port

/-- Writing TXSEG adds it to a frame. -/
theorem State.Frame.setTxseg {s t : State} {regs : List Reg} {lo n : Nat} (h : s.Frame t regs lo n) (x : Byte) :
    s.Frame (t.setPar { t.par with txseg := x }) (.txseg :: regs) lo n where
  regs r hr hs he hb := by
    obtain ⟨htxseg, hregs⟩ := List.ne_and_not_mem_of_not_mem_cons hr
    exact (t.regBytes_setTxseg x r htxseg).trans (h.regs r hregs hs he hb)
  bytes := h.bytes
  hidden := h.hidden
  port := h.port

theorem State.putLbuf_llen_toNat (s : State) (bs : List Byte) (h : bs.length ≤ 16) : (s.putLbuf bs).len.llen.toNat = bs.length :=
  (BitVec.toNat_ofNat _ _).trans (Nat.mod_eq_of_lt (by omega))

theorem State.putLbuf_lbuf (s : State) (bs : List Byte) (h : bs.length ≤ 16) : (s.putLbuf bs).lbuf = bs :=
  Memory.readRange_writeRange _ _ _ _ (s.putLbuf_llen_toNat bs h)

/-- What a framing that succeeds leaves, whichever PDU it builds. -/
theorem exists_framed {s : State} {pdu : List Byte} {txseg : Byte} {n : Nat} (hrun : exec .ltFrame s = .next (s.begin.framed pdu txseg))
    (hlen : pdu.length = n) (hcap : n ≤ 16) :
    ∃ t, exec .ltFrame s = .next t ∧ t.status = 0x00 ∧ t.events = 0x00 ∧ t.lbuf = pdu ∧ t.len.llen.toNat = n ∧ t.par.txseg = txseg ∧
      s.Frame t [.llen, .txseg] 0x090 n := by
  subst hlen
  exact ⟨_, hrun, rfl, rfl, State.putLbuf_lbuf _ _ hcap, State.putLbuf_llen_toNat _ _ hcap, rfl,
    (((s.frame_begin.putLbuf pdu).setTxseg txseg).finish .ok).mono (by decide)⟩

/-! LT_FRAME. -/

/-- R176's checks in order and its two results, the operands read from the state before the command. -/
theorem exec_ltFrame (s : State) : exec .ltFrame s =
    if s.len.ulen.toNat < 1 ∨ 32 * segmentSize s.ctl < s.len.ulen.toNat then .next (s.begin.fail .errLen)
    else if s.len.ulen.toNat ≤ segmentSize s.ctl then
      if s.segIndex ≠ 0 then .next (s.begin.fail .errField)
      else .next (s.begin.framed ((0#1 ++ s.headerBits) :: s.ubuf) (txSegOf false 0))
    else if ceilDiv s.len.ulen.toNat (segmentSize s.ctl) - 1 < s.segIndex.toNat then .next (s.begin.fail .errField)
    else .next (s.begin.framed
      (segmentHeader s.headerBits (!s.ctl && s.szmic) s.tseqZero s.segIndex
          (BitVec.ofNat 5 (ceilDiv s.len.ulen.toNat (segmentSize s.ctl) - 1)) ++
        segmentSlice s.ubuf (segmentSize s.ctl) s.segIndex.toNat)
      (txSegOf true (BitVec.ofNat 5 (ceilDiv s.len.ulen.toNat (segmentSize s.ctl) - 1)))) := rfl

/-- Settles O33: a failed check is one of R176's in order, and otherwise LBUF holds the header byte and UBUF, or the four header bytes and
the slice that SEGO names, which begins inside UBUF because SEGO is not beyond the last segment. -/
theorem ltFrameBuildsTheLowerPdu : Obligations.LtFrameBuildsTheLowerPdu := by
  intro s ctl size n i segN k h0 header
  have hsize : segmentSize s.ctl = size := segmentSize_eq ctl
  obtain ⟨hpos, h12⟩ : 0 < size ∧ size ≤ 12 := segmentSize_bounds ctl
  have hi : s.segIndex.toNat = i := s.segIndex_toNat
  have hzero : s.segIndex = 0 ↔ i = 0 := by rw [← BitVec.toNat_inj, hi]; rfl
  have hlast : ceilDiv n size - 1 = segN := rfl
  have hrun := exec_ltFrame s
  rw [hsize, hlast] at hrun
  refine ⟨fun hn => ?badLength, fun h1 hn hne => ?notFirst, fun h1 hn h => ?unsegmented, fun hlo hhi hlt => ?beyondLast,
    fun hlo hhi hle => ?segment⟩
  case badLength => exact ⟨_, hrun.trans (if_pos hn), s.failedWith_begin_fail .errLen⟩
  case notFirst =>
    rw [if_neg (by omega), if_pos hn, if_pos (hzero.not.mpr hne)] at hrun
    exact ⟨_, hrun, s.failedWith_begin_fail .errField⟩
  case unsegmented =>
    have hbyte : 0#1 ++ s.headerBits = h0.setWidth 8 := by
      rw [s.headerBits_eq_setWidth]
      exact (BitVec.setWidth_eq_append (by decide)).symm
    rw [if_neg (by omega), if_pos hn, if_neg (not_not.mpr (hzero.mpr h)), hbyte] at hrun
    exact exists_framed hrun (by rw [List.length_cons, State.ubuf_length]) (by omega)
  case beyondLast =>
    rw [if_neg (by omega), if_neg (by omega), if_pos (hi ▸ hlt)] at hrun
    exact ⟨_, hrun, s.failedWith_begin_fail .errField⟩
  case segment =>
    have hinside : i * size < n := mul_lt_of_le_ceilDiv_sub_one n size i (by omega) hpos hle
    have hsegN : segN < 32 := ceilDiv_sub_one_lt n size 32 (by omega) hpos hhi
    have hheader : segmentHeader s.headerBits (!s.ctl && s.szmic) s.tseqZero s.segIndex (BitVec.ofNat 5 segN) = beBytes 4 header := by
      rw [← beBytes_segmentHeader, s.headerBits_eq_setWidth, s.tseqZero_eq_setWidth, s.segIndex_eq_ofNat]
      rfl
    have hslice : segmentSlice s.ubuf size i = s.windowBytes (0x300 + i * size) k := s.segmentSlice_ubuf size i hinside (by omega)
    rw [if_neg (by omega), if_neg (by omega), hi, if_neg (by omega), hheader, hslice, txSegOf_true_ofNat segN hsegN] at hrun
    exact exists_framed hrun (by simp [State.windowBytes]) (by omega)

end Sys2Proof.Machine
end

