-- ==== Sys2Proof/Proofs/Updates.lean ====
section
/-! What the register updates of the receive path leave unchanged, as frames that compose, and the events a state holds after one more was
raised (30_encoding.md R98; 10_state.md R26). -/

namespace Sys2Proof.Machine

/-! Frames of updates that write registers alone. -/

/-- A further update that writes registers alone adds them to a frame. -/
theorem State.Frame.trans {s t u : State} {regs regs' : List Reg} {lo n : Nat} (h : s.Frame t regs lo n) (h' : t.Frame u regs' 0 0) :
    s.Frame u (regs ++ regs') lo n where
  regs r hr hs he hb := by
    have hregs : r ∉ regs := fun hmem => hr (List.mem_append_left _ hmem)
    have hregs' : r ∉ regs' := fun hmem => hr (List.mem_append_right _ hmem)
    exact (h'.regs r hregs' hs he hb).trans (h.regs r hregs hs he hb)
  bytes a ha := (h'.bytes a (.inr (by omega))).trans (h.bytes a ha)
  hidden := ⟨h'.hidden.1.trans h.hidden.1, h'.hidden.2.trans h.hidden.2⟩
  port := h'.port.trans h.port

/-- An update that leaves memory, the hidden store and the host's port is framed by the registers it writes. -/
theorem State.frame_of_regBytes {s t : State} {regs : List Reg}
    (hregs : ∀ r : Reg, r ∉ regs → r ≠ .status → r ≠ .events → r.isBuffer = false → t.regBytes r = s.regBytes r)
    (hrest : t.mem = s.mem ∧ t.ctx.segbuf = s.ctx.segbuf ∧ t.ctx.seglen = s.ctx.seglen ∧ t.port = s.port) : s.Frame t regs 0 0 := by
  obtain ⟨hmem, hsegbuf, hseglen, hport⟩ := hrest
  exact ⟨hregs, fun a _ => by rw [hmem], ⟨hsegbuf, hseglen⟩, hport⟩

theorem State.frame_raise (s : State) (e : Event) : s.Frame (s.raise e) [] 0 0 := by
  refine State.frame_of_regBytes (fun r _ _ he _ => ?_) ⟨rfl, rfl, rfl, rfl⟩
  cases r <;> simp_all [State.regBytes]

theorem State.frame_setFlag (s : State) (f : RFlag) (b : Bool) : s.Frame (s.setCtx (s.ctx.setFlag f b)) [.rflags] 0 0 := by
  refine State.frame_of_regBytes (fun r hr _ _ _ => ?_) ⟨rfl, rfl, rfl, rfl⟩
  cases r <;> simp_all [State.regBytes]

theorem State.frame_setSegvalid (s : State) (v : BitVec 32) : s.Frame (s.setCtx { s.ctx with segvalid := v }) [.segvalid] 0 0 := by
  refine State.frame_of_regBytes (fun r hr _ _ _ => ?_) ⟨rfl, rfl, rfl, rfl⟩
  cases r <;> simp_all [State.regBytes]

theorem State.frame_cleared (s : State) : s.Frame (s.setCtx s.ctx.cleared) [.rflags, .segvalid, .blockack, .rseqzero] 0 0 := by
  refine State.frame_of_regBytes (fun r hr _ _ _ => ?_) ⟨rfl, rfl, rfl, rfl⟩
  cases r <;> simp_all [State.regBytes, RxContext.cleared]

theorem State.frame_setAckbuf (s : State) (p : Six) : s.Frame { s with ackbuf := p } [.ackbuf] 0 0 := by
  refine State.frame_of_regBytes (fun r hr _ _ _ => ?_) ⟨rfl, rfl, rfl, rfl⟩
  cases r <;> simp_all [State.regBytes]

theorem State.frame_setTseq (s : State) (t : Seq) : s.Frame (s.setPar { s.par with tseq := t }) [.tseq] 0 0 := by
  refine State.frame_of_regBytes (fun r hr _ _ _ => ?_) ⟨rfl, rfl, rfl, rfl⟩
  cases r <;> simp_all [State.regBytes]

theorem State.frame_setSegmentIndices (s : State) (segN segO : Byte) :
    s.Frame (s.setParsed { s.parsed with rxseg := segN, rxsego := segO }) [.rxseg, .rxsego] 0 0 := by
  refine State.frame_of_regBytes (fun r hr _ _ _ => ?_) ⟨rfl, rfl, rfl, rfl⟩
  cases r <;> simp_all [State.regBytes]

/-- The first header byte goes to COPC and TCTRL (R191, R192). -/
theorem State.frame_noteHeaderByte (s : State) (h0 : BitVec 7) (z : Bool) : s.Frame (s.noteHeaderByte h0 z) [.tctrl, .copc] 0 0 := by
  refine State.frame_of_regBytes (fun r hr _ _ _ => ?_) ⟨by simp, by simp, by simp, by simp⟩
  unfold State.noteHeaderByte
  split <;> cases r <;> simp_all [State.regBytes]

theorem State.frame_noteSegment (s : State) (g : Segment) : s.Frame (s.noteSegment g) [.tctrl, .copc, .rxseg, .rxsego] 0 0 :=
  (s.frame_noteHeaderByte g.h0 g.szmic).trans (State.frame_setSegmentIndices _ _ _)

/-! Events. -/

/-- An event raised where a condition holds. -/
def State.raiseIf (s : State) (p : Prop) [Decidable p] (e : Event) : State := if p then s.raise e else s

@[simp] theorem State.raiseIf_ctx (s : State) (p : Prop) [Decidable p] (e : Event) : (s.raiseIf p e).ctx = s.ctx := by
  unfold State.raiseIf; split <;> rfl

@[simp] theorem State.raiseIf_matcher (s : State) (p : Prop) [Decidable p] (e : Event) : (s.raiseIf p e).matcher = s.matcher := by
  unfold State.raiseIf; split <;> rfl

theorem State.frame_raiseIf (s : State) (p : Prop) [Decidable p] (e : Event) : s.Frame (s.raiseIf p e) [] 0 0 := by
  unfold State.raiseIf
  split
  · exact s.frame_raise e
  · exact State.frame_of_regBytes (fun _ _ _ _ _ => rfl) ⟨rfl, rfl, rfl, rfl⟩

/-- EVENTS starts empty in every command (R98). -/
theorem State.eventsAre_begin (s : State) : s.begin.eventsAre [] := fun e => e.isIn_zero

/-- Writing STATUS leaves EVENTS. -/
theorem State.eventsAre.finish {t : State} {es : List Event} (h : t.eventsAre es) (c : StatusCode) : (t.finish c).eventsAre es := h

theorem State.eventsAre.raise {t : State} {es : List Event} (h : t.eventsAre es) (e : Event) : (t.raise e).eventsAre (es ++ [e]) := by
  intro e'
  rw [State.raise_events, Event.isIn_setBit, h e']
  by_cases he : e' = e <;> simp [he]

theorem State.eventsAre.raiseIf {t : State} {es : List Event} (h : t.eventsAre es) (p : Prop) [Decidable p] (e : Event) :
    (t.raiseIf p e).eventsAre (es ++ if p then [e] else []) := by
  unfold State.raiseIf
  split
  · exact h.raise e
  · rwa [List.append_nil]

end Sys2Proof.Machine
end

