-- ==== Sys2Proof/Proofs/BlockAck.lean ====
section
/-! The block-acknowledgement payload and the sender's matcher (44_reassembly.md R208, R211): the bytes of the payload built, the fields of
the payload received, and what BACK_MATCH leaves in the state. -/

namespace Sys2Proof.Machine

/-! What the host reads of the two payload registers: neither has a reserved bit. -/

@[simp] theorem State.rd_ackbuf (s : State) : s.rd .ackbuf = beBytes 6 s.ackbuf :=
  s.rd_eq_regBytes .ackbuf (by decide) rfl fun _ _ => rfl

@[simp] theorem State.rd_rxblockack (s : State) : s.rd .rxblockack = beBytes 4 s.matcher.rxblockack :=
  s.rd_eq_regBytes .rxblockack (by decide) rfl fun _ _ => rfl

/-! The payload built (R208). -/

theorem toNat_append_eq {v w : Nat} (x : BitVec v) (y : BitVec w) : (x ++ y).toNat = x.toNat * 2 ^ w + y.toNat := by
  rw [BitVec.toNat_append, ← Nat.shiftLeft_add_eq_or_of_lt y.isLt, Nat.shiftLeft_eq]

/-- R208's six bytes, SeqZero the low 13 bits of RSEQZERO. -/
theorem beBytes_ackPayload (obo : Bool) (z : BitVec 16) (mask : BitVec 32) :
    beBytes 6 (ackPayload obo z mask) = ackBytes obo z.toNat mask := by
  have hhigh : BitVec.ofBool obo ++ z.extractLsb' 6 7 = BitVec.ofNat 8 ((if obo then 128 else 0) + z.toNat % 8192 / 64) := by
    apply BitVec.eq_of_toNat_eq
    rw [toNat_append_eq, BitVec.extractLsb'_toNat, Nat.shiftRight_eq_div_pow, BitVec.toNat_ofNat]
    cases obo <;> simp <;> omega
  have hlow : z.extractLsb' 0 6 ++ 0#2 = BitVec.ofNat 8 (z.toNat % 64 * 4) := by
    apply BitVec.eq_of_toNat_eq
    rw [toNat_append_eq, BitVec.extractLsb'_toNat, BitVec.toNat_ofNat]
    simp
    omega
  rw [ackPayload, beBytes_append _ mask 2 4 rfl, beBytes_append _ _ 1 1 rfl, hhigh, hlow, beBytes_one, beBytes_one]
  rfl

/-! The payload received (R211). -/

/-- Six bytes as their first two and the mask the other four spell. -/
theorem fromBE_payload (x y : Byte) (bs : List Byte) (h : bs.length = 4) :
    fromBE 48 (x :: y :: bs) = (x ++ y ++ fromBE 32 bs : Six) := by
  have hbytes : beBytes 6 (x ++ y ++ fromBE 32 bs : Six) = x :: y :: bs := by
    rw [beBytes_append _ _ 2 4 rfl, beBytes_append x y 1 1 rfl, beBytes_fromBE 32 4 bs h (by decide), beBytes_one, beBytes_one]
    rfl
  rw [← hbytes, fromBE_beBytes 6 _ rfl]

/-- SeqZero of the payload, the low seven bits of its first byte and the high six of its second; the RFU bits are ignored. -/
theorem ackSeqZero_toNat (x y : Byte) (mask : BitVec 32) :
    (ackSeqZero (x ++ y ++ mask : Six)).toNat = x.toNat % 128 * 64 + y.toNat / 4 := by
  rw [ackSeqZero, BitVec.extractLsb'_toNat, toNat_append_eq, toNat_append_eq, Nat.shiftRight_eq_div_pow]
  omega

theorem ackMask_append (x y : Byte) (mask : BitVec 32) : ackMask (x ++ y ++ mask : Six) = mask := by
  apply BitVec.eq_of_toNat_eq
  rw [ackMask, BitVec.extractLsb'_toNat, toNat_append_eq, toNat_append_eq, Nat.shiftRight_zero]
  omega

theorem ofBool_ackObo_toNat (x y : Byte) (mask : BitVec 32) :
    (BitVec.ofBool (ackObo (x ++ y ++ mask : Six))).toNat = x.toNat / 128 := by
  rw [ackObo, BitVec.toNat_ofBool, BitVec.getLsbD, Nat.toNat_testBit, toNat_append_eq, toNat_append_eq]
  omega

/-- RXACKHDR: OBO in bit 15, SeqZero in bits 12 to 0. -/
theorem matchOutputs_rxackhdr_toNat (payload : Six) (segN : BitVec 5) : (matchOutputs payload segN).rxackhdr.toNat =
    (BitVec.ofBool (ackObo payload)).toNat * 2 ^ 15 + (ackSeqZero payload).toNat := by
  rw [matchOutputs, toNat_append_eq, toNat_append_eq, BitVec.toNat_ofNat]
  omega

/-- MISSING: the segments of the message that the mask does not acknowledge. -/
theorem matchOutputs_missing_getLsbD (payload : Six) (segN : BitVec 5) (i : Nat) (hi : i < 32) :
    (matchOutputs payload segN).missing.getLsbD i = (decide (i ≤ segN.toNat) && !(matchOutputs payload segN).rxblockack.getLsbD i) := by
  simp only [matchOutputs, BitVec.getLsbD_and, BitVec.getLsbD_not, segmentMask_getLsbD, hi, decide_true, Bool.true_and]

/-! BACK_MATCH. -/

theorem State.txSegN_toNat (s : State) : s.txSegN.toNat = s.par.txseg.toNat % 32 := by
  simp [State.txSegN]

theorem State.tseqZero_toNat (s : State) : s.tseqZero.toNat = s.par.tseq.toNat % 8192 := by
  simp [State.tseqZero]

/-- The payload BACK_MATCH reads from UBUF. -/
def State.receivedAck (s : State) : Six := fromBE 48 (s.mem.readRange ubufBase 6)

/-- The payload as UBUF's first two bytes and the mask of its next four. -/
theorem State.receivedAck_eq (s : State) :
    s.receivedAck = s.mem.read 0x300 ++ s.mem.read 0x301 ++ fromBE 32 (s.windowBytes 0x302 4) := by
  have hmask : s.windowBytes 0x302 4 = s.mem.readRange 0x302 4 := s.windowBytes_buffer .ubuf rfl 2 4 (by decide)
  rw [State.receivedAck, Memory.readRange_succ, Memory.readRange_succ, hmask]
  exact fromBE_payload _ _ _ (Memory.readRange_length _ _ _)

/-- The state with the matcher's outputs for the payload received, before the comparison of SeqZero. -/
def State.matched (s : State) : State := { s.begin with matcher := matchOutputs s.receivedAck s.txSegN }

theorem State.matched_matcher (s : State) : s.matched.matcher = matchOutputs s.receivedAck s.txSegN := rfl

theorem State.frame_matched (s : State) : s.Frame s.matched [.rxackhdr, .rxblockack, .missing] 0 0 := by
  refine State.frame_of_regBytes (fun r hr _ he _ => ?_) ⟨rfl, rfl, rfl, rfl⟩
  cases r <;> simp_all [State.regBytes, State.matched]

theorem State.eventsAre_matched (s : State) : s.matched.eventsAre [] := s.eventsAre_begin

/-- R211's check and its result, the operands read from the state before the command. -/
theorem exec_backMatch (s : State) : exec .backMatch s =
    if s.len.ulen.toNat ≠ 6 then .next (s.begin.fail .errLen)
    else .next ((s.matched.raiseIf (ackSeqZero s.receivedAck = s.tseqZero) .szMatch).finish .ok) := rfl

/-- Settles O49: with a wrong ULEN nothing more than STATUS and EVENTS is written; otherwise the matcher's three outputs are computed from
UBUF's six bytes split into the header bytes and the mask, and SZ_MATCH is raised where their SeqZero is TSEQ's. -/
theorem backMatchComputesTheMissingSegments : Obligations.BackMatchComputesTheMissingSegments := by
  intro s b sz segN
  have hrun := exec_backMatch s
  refine ⟨fun hlen => ?badLength, fun hlen => ?matched⟩
  case badLength => exact ⟨_, hrun.trans (if_pos hlen), s.failedWith_begin_fail .errLen⟩
  case matched =>
    have hsz : (ackSeqZero s.receivedAck).toNat = sz := by rw [s.receivedAck_eq, ackSeqZero_toNat]
    have hobo : (BitVec.ofBool (ackObo s.receivedAck)).toNat = b 0 / 128 := by rw [s.receivedAck_eq, ofBool_ackObo_toNat]
    have hmask : beBytes 4 (ackMask s.receivedAck) = s.windowBytes 0x302 4 := by
      rw [s.receivedAck_eq, ackMask_append, beBytes_fromBE 32 4 _ (by simp [State.windowBytes]) (by decide)]
    have hmatch : ackSeqZero s.receivedAck = s.tseqZero ↔ sz = s.par.tseq.toNat % 8192 := by
      rw [← BitVec.toNat_inj, hsz, s.tseqZero_toNat]
    refine ⟨_, hrun.trans (if_neg (not_not.mpr hlen)), rfl, ?events, ?header, ?bitmask, fun i hi => ?missing, ?frame⟩
    case events =>
      simp only [← hmatch]
      exact (s.eventsAre_matched.raiseIf _ .szMatch).finish .ok
    case header => rw [State.finish_matcher, State.raiseIf_matcher, State.matched_matcher, matchOutputs_rxackhdr_toNat, hobo, hsz]
    case bitmask =>
      rw [State.rd_rxblockack, State.finish_matcher, State.raiseIf_matcher]
      exact hmask
    case missing =>
      rw [State.finish_matcher, State.raiseIf_matcher, State.matched_matcher, matchOutputs_missing_getLsbD _ _ i hi, s.txSegN_toNat]
    case frame => exact (s.frame_matched.trans (State.frame_raiseIf _ _ _)).finish .ok

end Sys2Proof.Machine
end

