-- ==== Sys2Proof/Proofs/ContextTimers.lean ====
section
/-! Timer expiry and reset of the reassembly context (44_reassembly.md R206, R207, R209): an equation per branch of each command, and what
each leaves in the state. -/

namespace Sys2Proof.Machine

/-- A command that ignores its input writes STATUS and EVENTS alone. -/
theorem State.ignored_begin (s : State) : (s.begin.finish .ignored).status = 0x02 ∧ (s.begin.finish .ignored).events = 0x00 ∧
    s.Frame (s.begin.finish .ignored) [] 0 0 :=
  ⟨rfl, rfl, s.frame_begin.finish .ignored⟩

/-! TMR_INC_EXP. -/

/-- The first part of R206: the partial message is given up. -/
def State.abandonMessage (s : State) : State := (s.setCtx { s.ctx.setFlag .incRun false with segvalid := 0 }).raise .txnFailed

theorem State.abandonMessage_flag (s : State) (f : RFlag) :
    s.abandonMessage.ctx.flag f = if f = .incRun then false else s.ctx.flag f :=
  s.ctx.flag_setFlag .incRun f false

theorem State.frame_abandonMessage (s : State) : s.Frame s.abandonMessage [.rflags, .segvalid] 0 0 :=
  (s.frame_setFlag .incRun false).trans ((State.frame_setSegvalid _ 0).trans (State.frame_raise _ .txnFailed))

theorem State.eventsAre.abandonMessage {t : State} {es : List Event} (h : t.eventsAre es) : t.abandonMessage.eventsAre (es ++ [.txnFailed]) :=
  State.eventsAre.raise h .txnFailed

theorem State.frame_cancelAckTimer (s : State) : s.Frame s.cancelAckTimer [.rflags] 0 0 :=
  (s.frame_setFlag .ackRun false).trans (State.frame_raise _ .ackCancel)

theorem State.eventsAre.cancelAckTimer {t : State} {es : List Event} (h : t.eventsAre es) : t.cancelAckTimer.eventsAre (es ++ [.ackCancel]) :=
  State.eventsAre.raise h .ackCancel

theorem exec_tmrIncExp_of_idle (s : State) (h : s.ctx.flag .incRun = false) : exec .tmrIncExp s = .next (s.begin.finish .ignored) :=
  if_pos h

/-- R206 with a message in progress: abandoning it leaves ACK_RUN, which decides whether the acknowledgement timer is cancelled too. -/
theorem exec_tmrIncExp_of_running (s : State) (h : s.ctx.flag .incRun = true) : exec .tmrIncExp s =
    .next ((if s.ctx.flag .ackRun then s.begin.abandonMessage.cancelAckTimer else s.begin.abandonMessage).finish .ok) := by
  have hack : s.begin.abandonMessage.ctx.flag .ackRun = s.ctx.flag .ackRun := s.begin.abandonMessage_flag .ackRun
  rw [← hack]
  exact if_neg (by rw [State.begin_ctx, h]; decide)

/-- Settles O46: an expiry with no message in progress is ignored; otherwise the message is abandoned, and ACK_CANCEL is raised exactly
where the acknowledgement timer was running. -/
theorem incompleteTimerExpiry : Obligations.IncompleteTimerExpiry := by
  intro s
  refine ⟨fun hidle => ⟨_, exec_tmrIncExp_of_idle s hidle, s.ignored_begin⟩, fun hrun => ⟨_, exec_tmrIncExp_of_running s hrun, ?_⟩⟩
  cases hack : s.ctx.flag .ackRun with
  | false =>
    exact ⟨rfl, s.eventsAre_begin.abandonMessage, rfl, State.abandonMessage_flag _ _, (State.abandonMessage_flag _ _).trans hack,
      State.abandonMessage_flag _ _, (s.frame_begin.trans s.begin.frame_abandonMessage).finish .ok⟩
  | true =>
    have hflag (f : RFlag) : s.begin.abandonMessage.cancelAckTimer.ctx.flag f =
        if f = .ackRun then false else if f = .incRun then false else s.ctx.flag f := by
      rw [State.cancelAckTimer_ctx, RxContext.flag_setFlag, State.abandonMessage_flag, State.begin_ctx]
    exact ⟨rfl, s.eventsAre_begin.abandonMessage.cancelAckTimer, rfl, hflag .incRun, hflag .ackRun, hflag .ackSent,
      (((s.frame_begin.trans s.begin.frame_abandonMessage).trans (State.frame_cancelAckTimer _)).finish .ok).mono (by decide)⟩

/-! TMR_ACK_EXP. -/

/-- The block-ack that the expired timer makes due (R207). -/
def State.sendDueAck (s : State) : State :=
  ({ s with ackbuf := s.ackPayloadNow }.setCtx ((s.ctx.setFlag .ackRun false).setFlag .ackSent true)).raise .sendAck

theorem State.sendDueAck_flag (s : State) (f : RFlag) :
    s.sendDueAck.ctx.flag f = if f = .ackSent then true else if f = .ackRun then false else s.ctx.flag f :=
  (RxContext.flag_setFlag _ .ackSent f true).trans (by rw [RxContext.flag_setFlag])

theorem State.frame_sendDueAck (s : State) : s.Frame s.sendDueAck [.ackbuf, .rflags, .rflags] 0 0 :=
  (s.frame_setAckbuf s.ackPayloadNow).trans
    ((State.frame_setFlag _ .ackRun false).trans ((State.frame_setFlag _ .ackSent true).trans (State.frame_raise _ .sendAck)))

theorem State.eventsAre.sendDueAck {t : State} {es : List Event} (h : t.eventsAre es) : t.sendDueAck.eventsAre (es ++ [.sendAck]) :=
  State.eventsAre.raise h .sendAck

/-- R207's check and its result. -/
theorem exec_tmrAckExp (s : State) : exec .tmrAckExp s =
    if s.ctx.flag .ackRun = false then .next (s.begin.finish .ignored) else .next (s.begin.sendDueAck.finish .ok) := rfl

/-- Settles O47: an expiry with the timer not running is ignored; otherwise ACKBUF takes the block-ack payload as it stands and ACK_SENT
replaces ACK_RUN. -/
theorem ackTimerExpiry : Obligations.AckTimerExpiry := by
  intro s
  have hrun := exec_tmrAckExp s
  refine ⟨fun hidle => ⟨_, hrun.trans (if_pos hidle), s.ignored_begin⟩, fun hack => ⟨_, hrun.trans (if_neg (by simp [hack])), ?_⟩⟩
  have hbytes : beBytes 6 s.begin.ackPayloadNow = ackBytes (s.conf.cfg.getLsbD 0) s.ctx.rseqzero.toNat s.ctx.blockack :=
    beBytes_ackPayload s.obo _ _
  exact ⟨rfl, s.eventsAre_begin.sendDueAck, (State.rd_ackbuf _).trans hbytes, State.sendDueAck_flag _ _, State.sendDueAck_flag _ _,
    State.sendDueAck_flag _ _, ((s.frame_begin.trans s.begin.frame_sendDueAck).finish .ok).mono (by decide)⟩

/-! RX_RESET. -/

/-- R209 clears the three flags RFLAGS has. -/
theorem RxContext.cleared_flag (c : RxContext) (f : RFlag) : c.cleared.flag f = false := by
  have hflag : c.cleared.flag f = (((c.setFlag .incRun false).setFlag .ackRun false).setFlag .ackSent false).flag f := rfl
  rw [hflag]
  cases f <;> simp

/-- The cancellations R209 asks for: of each timer that is running. -/
def State.cancelTimers (s : State) : State :=
  (s.raiseIf (s.ctx.flag .incRun) .incCancel).raiseIf (s.ctx.flag .ackRun) .ackCancel

theorem State.frame_cancelTimers (s : State) : s.Frame s.cancelTimers [] 0 0 :=
  (s.frame_raiseIf _ .incCancel).trans (State.frame_raiseIf _ _ .ackCancel)

theorem State.eventsAre_cancelTimers (s : State) : s.begin.cancelTimers.eventsAre
    ((if s.ctx.flag .incRun then [.incCancel] else []) ++ if s.ctx.flag .ackRun then [.ackCancel] else []) :=
  (s.eventsAre_begin.raiseIf _ .incCancel).raiseIf _ .ackCancel

/-- R209: the running timers are cancelled, and the context is cleared whether or not any was. -/
theorem exec_rxReset (s : State) : exec .rxReset s = .next ((s.begin.cancelTimers.setCtx s.begin.cancelTimers.ctx.cleared).finish .ok) := rfl

/-- Settles O48: the two cancellations are raised for the timers that were running, and everything of the context but LASTSEQAUTH and LSAV is
cleared. -/
theorem rxResetClearsTheContext : Obligations.RxResetClearsTheContext := by
  intro s
  have hflag (f : RFlag) : s.begin.cancelTimers.ctx.cleared.flag f = false := RxContext.cleared_flag _ f
  exact ⟨_, exec_rxReset s, rfl, s.eventsAre_cancelTimers, hflag _, hflag _, hflag _, rfl, rfl, rfl,
    ((s.frame_begin.trans s.begin.frame_cancelTimers).trans (State.frame_cleared _)).finish .ok⟩

end Sys2Proof.Machine
end

