-- ==== Sys2Proof/Proofs/LtParse.lean ====
section
/-! LT_PARSE (44_reassembly.md R191 to R193, R199): the header outputs it shares between PDUs, the state in which it accepts one, and the two
outcomes that leave the reassembly context untouched. -/

namespace Sys2Proof.Machine

/-- Settles O37: not zero and bit 15 clear is the range from 1 up to below 2^15. -/
theorem unicastRange : Obligations.UnicastRange := by
  intro a
  have hzero : a ≠ 0 ↔ a.toNat ≠ 0 := BitVec.toNat_inj.not.symm
  have hbit : a.getLsbD 15 = false ↔ a.toNat < 2 ^ 15 := by
    rw [← BitVec.msb_eq_getLsbD_last, BitVec.msb_eq_false_iff_two_mul_lt]
    omega
  rw [unicast, Bool.and_eq_true, bne_iff_ne, Bool.not_eq_true', hzero, hbit]
  omega

/-! The header outputs (R191, R192). -/

/-- COPC and TCTRL after the first header byte, by CTL. -/
theorem State.noteHeaderByte_noted (s : State) (h0 : BitVec 7) (z : Bool) :
    if s.ctl then (s.noteHeaderByte h0 z).par.copc = h0.setWidth 8 ∧ (s.noteHeaderByte h0 z).par.tctrl = s.par.tctrl &&& 0x7F
    else (s.noteHeaderByte h0 z).par.copc = s.par.copc ∧
      (s.noteHeaderByte h0 z).par.tctrl = (if z then 0x80 else 0x00) ||| h0.setWidth 8 := by
  have haccess : ∀ (z : Bool) (h0 : BitVec 7), BitVec.ofBool z ++ h0 = (if z then 0x80 else 0x00) ||| h0.setWidth 8 := by decide
  rw [State.noteHeaderByte_par]
  split
  · exact ⟨(BitVec.setWidth_eq_append (by decide)).symm, rfl⟩
  · exact ⟨rfl, haccess z h0⟩

theorem State.headerNoted_noteSegment (s : State) (g : Segment) : s.HeaderNoted (s.noteSegment g) g := by
  have hsegN : ∀ n : BitVec 5, 1#1 ++ 0#2 ++ n = 0x80 ||| n.setWidth 8 := by decide
  rw [State.HeaderNoted, State.noteSegment_par, State.noteSegment_parsed]
  exact ⟨s.noteHeaderByte_noted g.h0 g.szmic, hsegN g.segN, (BitVec.setWidth_eq_append (by decide)).symm⟩

/-! Unsegmented PDUs (R192). -/

@[simp] theorem State.lbuf_length (s : State) : s.lbuf.length = s.len.llen.toNat := Memory.readRange_length _ _ _

theorem State.lbuf_getD_zero (s : State) (h : 0 < s.len.llen.toNat) : s.lbuf.getD 0 0 = s.mem.read 0x090 := by
  have hlen : 0 < s.lbuf.length := by rwa [State.lbuf_length]
  rw [List.getD_eq_getElem _ _ hlen]
  exact Memory.readRange_getElem _ _ _ _ hlen

theorem exec_ltParse_of_unsegmented (s : State) (hlo : 2 ≤ s.len.llen.toNat) (hhi : s.len.llen.toNat ≤ 16)
    (hseg : (s.mem.read 0x090).getLsbD 7 = false) : exec .ltParse s = .next s.begin.parseUnsegmented := by
  rcases execLtParse_cases s with ⟨hlen, -⟩ | ⟨-, -, -, hrun⟩ | ⟨-, -, hset, -⟩ | ⟨-, -, hset, -⟩
  · omega
  · exact hrun
  · exact absurd (hseg.symm.trans hset) (by decide)
  · exact absurd (hseg.symm.trans hset) (by decide)

/-- A first header byte whose top bit is clear is noted as it is (R192). -/
theorem State.noteHeaderByte_of_top_clear (s : State) (b : Byte) (hb : b.getLsbD 7 = false) :
    if s.ctl then (s.noteHeaderByte (b.extractLsb' 0 7) false).par.copc = b ∧
        (s.noteHeaderByte (b.extractLsb' 0 7) false).par.tctrl = s.par.tctrl &&& 0x7F
    else (s.noteHeaderByte (b.extractLsb' 0 7) false).par.copc = s.par.copc ∧
      (s.noteHeaderByte (b.extractLsb' 0 7) false).par.tctrl = b := by
  have hall : ∀ b : Byte, b.getLsbD 7 = false → (b.extractLsb' 0 7).setWidth 8 = b := by decide
  have hnoted := s.noteHeaderByte_noted (b.extractLsb' 0 7) false
  rwa [hall b hb, if_neg Bool.false_ne_true, show (0x00 : Byte) ||| b = b from BitVec.zero_or] at hnoted

theorem State.parseUnsegmented_par (s : State) (h : 0 < s.len.llen.toNat) : s.parseUnsegmented.par =
    { (s.noteHeaderByte ((s.mem.read 0x090).extractLsb' 0 7) false).par with tseq := s.par.nseq } := by
  rw [← s.lbuf_getD_zero h]
  rfl

theorem State.parseUnsegmented_events (s : State) : s.parseUnsegmented.events = (s.raise .complete).events := by
  simp [State.parseUnsegmented]

theorem State.frame_begin_parseUnsegmented (s : State) :
    s.Frame s.begin.parseUnsegmented [.ulen, .tctrl, .copc, .tseq, .rxseg, .rxsego] 0x300 (s.lbuf.drop 1).length :=
  (((((s.frame_begin.trans (State.frame_noteHeaderByte _ _ _)).putUbuf _).trans (State.frame_setTseq _ _)).trans
    (State.frame_setSegmentIndices _ _ _)).trans (State.frame_raise _ _)).finish .ok

/-- Settles O39: the first byte of LBUF goes to the header outputs, the rest to UBUF, and the context is not among what is written. -/
theorem unsegmentedPduIsDelivered : Obligations.UnsegmentedPduIsDelivered := by
  intro s hlo hhi hseg
  have hlen : (s.lbuf.drop 1).length = s.len.llen.toNat - 1 := by rw [List.length_drop, State.lbuf_length]
  have hcap : (s.lbuf.drop 1).length ≤ 384 := by omega
  refine ⟨_, exec_ltParse_of_unsegmented s hlo hhi hseg, rfl, fun e => ?events, ?header, State.putUbuf_ubuf _ _ hcap,
    (State.putUbuf_ulen_toNat _ _ hcap).trans hlen, rfl, rfl, rfl, State.noteHeaderByte_ctx _ _ _, ?frame⟩
  case events =>
    rw [State.parseUnsegmented_events]
    exact s.eventsAre_begin.raise .complete e
  case header =>
    rw [s.begin.parseUnsegmented_par (Nat.zero_lt_of_lt hlo)]
    exact s.begin.noteHeaderByte_of_top_clear _ hseg
  case frame => exact hlen ▸ s.frame_begin_parseUnsegmented.mono (by decide)

/-! Segments that pass the checks (R191), and those of them that are ignored (R199). -/

/-- A segment that passes R191's checks is accepted with its fields and its reconciled sequence number. -/
theorem State.Receives.exec_ltParse {s : State} {g : Segment} {t : Seq} (h : s.Receives g t) :
    exec .ltParse s = .next (s.begin.acceptSegment t g) := by
  obtain ⟨⟨hlo, hhi⟩, hseg, rfl, hordered, hreconciled⟩ := h
  have hsize := segmentSize_bounds s.ctl
  rcases execLtParse_cases s with ⟨hlen, -⟩ | ⟨-, -, hclear, -⟩ | ⟨-, -, -, hlen, -⟩ |
    ⟨-, -, -, ⟨hmalformed, -⟩ | ⟨-, ⟨hnone, -⟩ | ⟨t', hsome, hrun⟩⟩⟩
  · omega
  · exact absurd (hclear.symm.trans hseg) (by decide)
  · omega
  · exact absurd (BitVec.lt_def.mp hmalformed) (by omega)
  · exact absurd (hnone.symm.trans hreconciled) (by simp)
  · obtain rfl : t' = t := Option.some.inj (hsome.symm.trans hreconciled)
    exact hrun

theorem State.acceptSegment_of_stale (s : State) (t : Seq) (g : Segment) (hvalid : s.ctx.lastValid = true)
    (hnew : ¬ s.ctx.lastseqauth < t) (hsame : t = s.ctx.lastseqauth → s.ctx.flag .incRun = false) :
    s.acceptSegment t g = (s.noteSegment g).finish .ignored := by
  have hsame' : (t == s.ctx.lastseqauth && s.ctx.flag .incRun) = false := by
    by_cases h : t = s.ctx.lastseqauth
    · rw [hsame h, Bool.and_false]
    · rw [beq_eq_false_iff_ne.mpr h, Bool.false_and]
  simp [State.acceptSegment, hvalid, hnew, hsame']

/-- Settles O44: neither the new-SeqAuth nor the same-SeqAuth branch takes the segment, so the header outputs are all that is written. -/
theorem staleSegmentIsIgnored : Obligations.StaleSegmentIsIgnored := by
  intro s g t hreceives hvalid hstale
  have hnew : ¬ s.ctx.lastseqauth < t := by
    rw [BitVec.lt_def]
    rcases hstale with hlower | ⟨rfl, -⟩ <;> omega
  have hsame (heq : t = s.ctx.lastseqauth) : s.ctx.flag .incRun = false := by
    rcases hstale with hlower | ⟨-, hidle⟩
    · exact absurd (heq ▸ hlower) (Nat.lt_irrefl _)
    · exact hidle
  have hrun := hreceives.exec_ltParse
  rw [s.begin.acceptSegment_of_stale t g hvalid hnew hsame] at hrun
  exact ⟨_, hrun, rfl, s.begin.noteSegment_events g, s.begin.headerNoted_noteSegment g, s.begin.noteSegment_ctx g,
    (s.frame_begin.trans (s.begin.frame_noteSegment g)).finish .ignored⟩

end Sys2Proof.Machine
end

