-- ==== Sys2Proof/Proofs/Obfuscator.lean ====
section
/-! The privacy obfuscator (45_network.md R231 to R235): the bytes of PECB and of a network header, and what its three commands leave in the
state. -/

namespace Sys2Proof.Machine

/-! Byte strings of a word. -/

/-- The first bytes of a big-endian string are those of the word's high part. -/
theorem beBytes_take {w : Nat} (n k : Nat) (x : BitVec w) (h : k ≤ n) :
    (beBytes n x).take k = beBytes k (x.extractLsb' (8 * (n - k)) (8 * k)) := by
  refine List.ext_getElem (by simp [h]) fun j hj hj' => ?_
  simp only [beBytes_length] at hj'
  rw [List.getElem_take, beBytes_getElem, beBytes_getElem]
  ext i hi
  simp only [BitVec.getElem_extractLsb', BitVec.getLsbD_extractLsb', show 8 * (k - 1 - j) + i < 8 * k by omega, decide_true, Bool.true_and]
  congr 1
  omega

theorem beBytes_xor {w : Nat} (n : Nat) (x y : BitVec w) : beBytes n (x ^^^ y) = xorBytes (beBytes n x) (beBytes n y) := by
  simp only [beBytes, xorBytes, List.zipWith_map, List.zipWith_self, BitVec.extractLsb'_xor]

/-! PECB (R231). -/

@[simp] theorem State.rd_pecb (s : State) : s.rd .pecb = beBytes 6 s.pecb :=
  s.rd_eq_regBytes .pecb (by decide) rfl fun _ _ => rfl

/-- R231's block: five zero bytes, the IV index, seven random bytes. -/
theorem fromBE_pecbBlock (iv : BitVec 32) (random : List Byte) (h : random.length = 7) :
    fromBE 128 (List.replicate 5 0x00 ++ beBytes 4 iv ++ random) = (0#40 ++ iv ++ fromBE 56 random : Block) := by
  have hzero : beBytes 5 0#40 = List.replicate 5 0x00 := by decide
  rw [← fromBE_beBytes 16 (0#40 ++ iv ++ fromBE 56 random : Block) rfl, beBytes_append _ _ 9 7 rfl, beBytes_append _ _ 5 4 rfl,
    beBytes_fromBE 56 7 random h le_rfl, hzero]

/-- R231's six bytes for a string that begins with the privacy random. -/
theorem State.beBytes_pecbOf (s : State) (bs : List Byte) (h : 7 ≤ bs.length) :
    beBytes 6 (pecbOf s.keys.kpriv s.par.ivindex (privacyRandom bs)) = s.pecbBytes (bs.take 7) := by
  rw [State.pecbBytes, State.rd_ivindex, fromBE_pecbBlock _ _ (List.length_take_of_le h), beBytes_take 16 6 _ (by decide)]
  rfl

/-- The PECB of the privacy random in NBUF. -/
def State.nbufPecb (s : State) : Six := pecbOf s.keys.kpriv s.par.ivindex s.nbufRandom

theorem State.beBytes_nbufPecb (s : State) : beBytes 6 s.nbufPecb = s.pecbBytes (s.windowBytes 0x0A8 7) := by
  have hread : s.windowBytes 0x0A8 7 = s.mem.readRange (nbufBase + 8) 7 := s.windowBytes_buffer .nbuf rfl 8 7 (by decide)
  have hlen : (s.mem.readRange (nbufBase + 8) 7).length = 7 := Memory.readRange_length _ _ _
  have hpecb := s.beBytes_pecbOf (s.mem.readRange (nbufBase + 8) 7) hlen.ge
  rwa [List.take_of_length_le hlen.le, ← hread] at hpecb

theorem State.frame_setPecb (s : State) (p : Six) : s.Frame (s.setPecb p) [.pecb] 0 0 := by
  refine State.frame_of_regBytes (fun r hr _ _ _ => ?_) ⟨rfl, rfl, rfl, rfl⟩
  cases r <;> simp_all [State.regBytes]

/-! The network header (R233). -/

theorem State.beBytes_header (s : State) : beBytes 6 s.header = s.headerBytes := by
  rw [State.header, beBytes_append _ s.par.src 4 2 rfl, beBytes_append _ s.par.nseq 1 3 rfl, beBytes_one]
  simp [State.headerBytes]

/-- The header registers taken from a header read back as its six bytes. -/
theorem State.headerBytes_of_header (t : State) (h : Six) (hctlttl : t.par.ctlttl = headerCtlTtl h) (hnseq : t.par.nseq = headerSeq h)
    (hsrc : t.par.src = headerSrc h) : t.headerBytes = beBytes 6 h := by
  have hfields : headerCtlTtl h ++ headerSeq h ++ headerSrc h = h := by
    rw [headerCtlTtl, headerSeq, headerSrc, BitVec.extractLsb'_append_extractLsb'_eq_extractLsb' (by decide),
      BitVec.extractLsb'_append_extractLsb'_eq_extractLsb' (by decide)]
    exact BitVec.extractLsb'_eq_self
  rw [← t.beBytes_header, State.header, hctlttl, hnseq, hsrc, hfields]

theorem State.windowBytes_nbufHeader (s : State) : s.windowBytes 0x0A2 6 = s.mem.readRange (nbufBase + 2) 6 :=
  s.windowBytes_buffer .nbuf rfl 2 6 (by decide)

theorem State.beBytes_nbufHeader (s : State) : beBytes 6 s.nbufHeader = s.windowBytes 0x0A2 6 := by
  rw [State.nbufHeader, beBytes_fromBE 48 6 _ (Memory.readRange_length _ _ _) le_rfl, s.windowBytes_nbufHeader]

/-- NBUF's header bytes read back after they were written (R234). -/
theorem State.windowBytes_of_putNbufHeader (s t : State) (h : Six) (hmem : t.mem = (s.putNbufHeader h).mem) :
    t.windowBytes 0x0A2 6 = beBytes 6 h := by
  rw [State.windowBytes_nbufHeader, hmem, State.putNbufHeader_mem, Memory.readRange_writeRange _ _ _ _ (beBytes_length 6 h).symm]

theorem State.regBytes_putNbufHeader (s : State) (h : Six) (r : Reg) (hb : r.isBuffer = false) :
    (s.putNbufHeader h).regBytes r = s.regBytes r := by
  cases r <;> simp_all [State.regBytes, Reg.isBuffer]

/-- Writing NBUF's header adds its six bytes to a frame that has no bytes yet. -/
theorem State.Frame.putNbufHeader {s t : State} {regs : List Reg} (h : s.Frame t regs 0 0) (x : Six) :
    s.Frame (t.putNbufHeader x) regs (nbufBase + 2) 6 where
  regs r hr hs he hb := (t.regBytes_putNbufHeader x r hb).trans (h.regs r hr hs he hb)
  bytes a ha := (Memory.read_writeRange_outside _ _ _ a (by rwa [beBytes_length])).trans (h.bytes a (.inr (by omega)))
  hidden := h.hidden
  port := h.port

theorem State.frame_setHeader (s : State) (h : Six) : s.Frame (s.setPar (s.par.withHeader h)) [.ctlttl, .nseq, .src] 0 0 := by
  refine State.frame_of_regBytes (fun r hr _ _ _ => ?_) ⟨rfl, rfl, rfl, rfl⟩
  cases r <;> simp_all [State.regBytes, ParamRegs.withHeader]

/-! The three commands. -/

/-- R232's check and its result, the operands read from the state before the command. -/
theorem exec_pecbGen (s : State) : exec .pecbGen s =
    if s.len.nlen.toNat < 15 then .next (s.begin.fail .errLen) else .next ((s.begin.setPecb s.nbufPecb).finish .ok) := rfl

/-- R234's check and its result. -/
theorem exec_hdrObf (s : State) : exec .hdrObf s =
    if s.len.nlen.toNat < 8 then .next (s.begin.fail .errLen)
    else .next ((s.begin.putNbufHeader (s.header ^^^ s.pecb)).finish .ok) := rfl

/-- R235's check and its result. -/
theorem exec_hdrDeobf (s : State) : exec .hdrDeobf s =
    if s.len.nlen.toNat < 8 then .next (s.begin.fail .errLen)
    else .next ((s.begin.setPar (s.par.withHeader (s.nbufHeader ^^^ s.pecb))).finish .ok) := rfl

/-- Settles O27: NLEN is checked before anything is written, and the PECB written has the bytes of R231. -/
theorem pecbGenBuildsPecb : Obligations.PecbGenBuildsPecb := by
  intro s
  have hrun := exec_pecbGen s
  refine ⟨fun hlen => ?badLength, fun hlen => ?generated⟩
  case badLength => exact ⟨_, hrun.trans (if_pos hlen), s.failedWith_begin_fail .errLen⟩
  case generated =>
    exact ⟨_, hrun.trans (if_neg (by omega)), rfl, rfl, (State.rd_pecb _).trans s.beBytes_nbufPecb,
      (s.frame_begin.trans (State.frame_setPecb _ _)).finish .ok⟩

/-- Settles O28: both commands check NLEN alike, and each xors PECB with the bytes it reads, the registers' or NBUF's. -/
theorem headerObfuscationXorsThePecb : Obligations.HeaderObfuscationXorsThePecb := by
  intro s
  have hobf := exec_hdrObf s
  have hdeobf := exec_hdrDeobf s
  refine ⟨fun hlen => ⟨?obfBadLength, ?deobfBadLength⟩, fun hlen => ⟨?obfuscated, ?deobfuscated⟩⟩
  case obfBadLength => exact ⟨_, hobf.trans (if_pos hlen), s.failedWith_begin_fail .errLen⟩
  case deobfBadLength => exact ⟨_, hdeobf.trans (if_pos hlen), s.failedWith_begin_fail .errLen⟩
  case obfuscated =>
    have hbytes : beBytes 6 (s.header ^^^ s.pecb) = xorBytes s.headerBytes (s.rd .pecb) := by
      rw [beBytes_xor, s.beBytes_header, s.rd_pecb]
    rw [← hbytes]
    exact ⟨_, hobf.trans (if_neg (by omega)), rfl, rfl, s.begin.windowBytes_of_putNbufHeader _ _ rfl,
      (s.frame_begin.putNbufHeader _).finish .ok⟩
  case deobfuscated =>
    have hbytes : beBytes 6 (s.nbufHeader ^^^ s.pecb) = xorBytes (s.windowBytes 0x0A2 6) (s.rd .pecb) := by
      rw [beBytes_xor, s.beBytes_nbufHeader, s.rd_pecb]
    exact ⟨_, hdeobf.trans (if_neg (by omega)), rfl, rfl, (State.headerBytes_of_header _ (s.nbufHeader ^^^ s.pecb) rfl rfl rfl).trans hbytes,
      (s.frame_begin.trans (s.begin.frame_setHeader _)).finish .ok⟩

end Sys2Proof.Machine
end

