-- ==== Sys2Proof/Proofs/Network.lean ====
section
/-! The whole-frame commands of the network layer (45_network.md R236 to R241): the frame NET_ENC and PROXY_ENC build, and what NET_DEC and
PROXY_DEC leave at each of their checks. Both pairs are stated over the nonce layout, in which alone they differ. -/

namespace Sys2Proof.Machine

theorem netMicLen_bounds (ctl : Bool) : 4 ≤ netMicLen ctl ∧ netMicLen ctl ≤ 8 := by
  cases ctl <;> decide

/-! NBUF filled. -/

theorem State.regBytes_putNbuf (s : State) (bs : List Byte) (r : Reg) (h : r ≠ .nlen) (hb : r.isBuffer = false) :
    (s.putNbuf bs).regBytes r = s.regBytes r := by
  cases r <;> simp_all [State.regBytes, Reg.isBuffer]

/-- Filling NBUF adds NLEN and the bytes written to a frame that has no bytes yet. -/
theorem State.Frame.putNbuf {s t : State} {regs : List Reg} (h : s.Frame t regs 0 0) (bs : List Byte) :
    s.Frame (t.putNbuf bs) (.nlen :: regs) nbufBase bs.length where
  regs r hr hs he hb := by
    obtain ⟨hnlen, hregs⟩ := List.ne_and_not_mem_of_not_mem_cons hr
    exact (t.regBytes_putNbuf bs r hnlen hb).trans (h.regs r hregs hs he hb)
  bytes a ha := (Memory.read_writeRange_outside _ _ _ a ha).trans (h.bytes a (.inr (by omega)))
  hidden := h.hidden
  port := h.port

theorem State.putNbuf_nlen_toNat (s : State) (bs : List Byte) (h : bs.length ≤ 34) : (s.putNbuf bs).len.nlen.toNat = bs.length :=
  (BitVec.toNat_ofNat _ _).trans (Nat.mod_eq_of_lt (by omega))

theorem State.putNbuf_nbuf (s : State) (bs : List Byte) (h : bs.length ≤ 34) : (s.putNbuf bs).nbuf = bs :=
  Memory.readRange_writeRange _ _ _ _ (s.putNbuf_nlen_toNat bs h)

/-! The frame built (R236, R237). -/

/-- R237's second byte: IVI in bit 7, the NID below it. -/
theorem State.iviNid_eq (s : State) :
    s.iviNid = (if s.par.ivindex.getLsbD 0 then 0x80 else 0x00) ||| (s.par.nid &&& 0x7F) := by
  have hall : ∀ (ivi : Bool) (nid : Byte), BitVec.ofBool ivi ++ nid.extractLsb' 0 7 = (if ivi then 0x80 else 0x00) ||| (nid &&& 0x7F) := by
    decide
  exact hall _ _

theorem State.networkPlaintext_eq (s : State) : s.networkPlaintext = s.rd .dst ++ s.lbuf := by
  rw [State.networkPlaintext, State.rd_dst]

theorem State.encryptedPayload_length (s : State) (layout : NonceLayout) :
    (s.encryptedPayload layout).length = 2 + s.len.llen.toNat + netMicLen s.ctl := by
  have hm := netMicLen_bounds s.ctl
  rw [State.encryptedPayload, ccmEncrypt_length _ _ _ _ (by omega), State.networkPlaintext, List.length_append, beBytes_length,
    State.lbuf_length]

/-- The PECB of the frame to build, from its own encrypted payload (R238). -/
def State.framePecb (s : State) (layout : NonceLayout) : Six :=
  pecbOf s.keys.kpriv s.par.ivindex (privacyRandom (s.encryptedPayload layout))

theorem State.beBytes_framePecb (s : State) (layout : NonceLayout) (h : 1 ≤ s.len.llen.toNat) :
    beBytes 6 (s.framePecb layout) = s.pecbBytes ((s.encryptedPayload layout).take 7) := by
  have hm := netMicLen_bounds s.ctl
  exact s.beBytes_pecbOf _ (by rw [State.encryptedPayload_length]; omega)

/-- The bytes the two encryption commands put into NBUF. -/
def State.builtFrame (s : State) (layout : NonceLayout) : List Byte := s.frameOf (s.framePecb layout) (s.encryptedPayload layout)

theorem State.builtFrame_length (s : State) (layout : NonceLayout) :
    (s.builtFrame layout).length = 10 + s.len.llen.toNat + netMicLen s.ctl := by
  simp only [State.builtFrame, State.frameOf, List.length_append, List.length_cons, List.length_nil, beBytes_length,
    State.encryptedPayload_length]
  omega

/-- R238's check and its result, the operands read from the state before the command. -/
theorem State.encryptFrame_eq (s : State) (layout : NonceLayout) : s.encryptFrame layout =
    if s.len.llen.toNat < 1 ∨ 16 < s.len.llen.toNat then s.begin.fail .errLen
    else (((s.begin.setNonce (s.frameNonce layout)).setPecb (s.framePecb layout)).putNbuf (s.builtFrame layout)).finish .ok := rfl

/-- A nonce of 13 bytes is the value those bytes spell. -/
theorem fromBE_of_beBytes_nonce {n : Nonce} {bytes : List Byte} (h : beBytes 13 n = bytes) : fromBE 104 bytes = n := by
  rw [← h, fromBE_beBytes 13 n rfl]

/-- With LLEN in range the command builds R237's frame under the layout's nonce. -/
theorem State.frameBuilt_encryptFrame (s : State) (layout : NonceLayout) (nonceBytes : List Byte)
    (hnonce : beBytes 13 (s.frameNonce layout) = nonceBytes) (hlo : 1 ≤ s.len.llen.toNat) (hhi : s.len.llen.toNat ≤ 16) :
    s.FrameBuilt (s.encryptFrame layout) nonceBytes := by
  have hm := netMicLen_bounds s.ctl
  have hpayload : ccmEncrypt s.keys.kenc (fromBE 104 nonceBytes) (netMicLen s.ctl) (s.rd .dst ++ s.lbuf) = s.encryptedPayload layout := by
    rw [fromBE_of_beBytes_nonce hnonce, ← s.networkPlaintext_eq, State.encryptedPayload]
  have hpecb := s.beBytes_framePecb layout hlo
  have hlen := s.builtFrame_length layout
  have hcap : (s.builtFrame layout).length ≤ 34 := by omega
  have hframe : s.builtFrame layout = [s.par.pdutype, (if s.par.ivindex.getLsbD 0 then 0x80 else 0x00) ||| (s.par.nid &&& 0x7F)] ++
      xorBytes s.headerBytes (s.pecbBytes ((s.encryptedPayload layout).take 7)) ++ s.encryptedPayload layout := by
    rw [State.builtFrame, State.frameOf, s.iviNid_eq, beBytes_xor, s.beBytes_header, hpecb]
  have hmic : (if s.par.ctlttl.getLsbD 7 then 8 else 4) = netMicLen s.ctl := rfl
  rw [s.encryptFrame_eq, if_neg (by omega), State.FrameBuilt, hmic, hpayload]
  exact ⟨rfl, rfl, (State.rd_nonce _).trans hnonce, (State.rd_pecb _).trans hpecb, (State.putNbuf_nbuf _ _ hcap).trans hframe,
    (State.putNbuf_nlen_toNat _ _ hcap).trans hlen,
    hlen ▸ (((((s.frame_begin.setNonce _).trans (State.frame_setPecb _ _)).putNbuf _).finish .ok).mono (by decide))⟩

theorem exec_netEnc (s : State) : exec .netEnc s = .next (s.encryptFrame networkNonce) := rfl

theorem exec_proxyEnc (s : State) : exec .proxyEnc s = .next (s.encryptFrame proxyNonce) := rfl

/-- Settles O30: the two commands check LLEN alike and build one frame, each under the nonce of its layout. -/
theorem frameEncryptionBuildsTheFrame : Obligations.FrameEncryptionBuildsTheFrame := by
  intro s
  refine ⟨fun hlen => ?badLength, fun hlo hhi => ?built⟩
  case badLength =>
    have hfail (layout : NonceLayout) : s.FailedWith (s.encryptFrame layout) 0x81 := by
      rw [s.encryptFrame_eq, if_pos hlen]
      exact s.failedWith_begin_fail .errLen
    exact ⟨⟨_, exec_netEnc s, hfail _⟩, ⟨_, exec_proxyEnc s, hfail _⟩⟩
  case built =>
    exact ⟨⟨_, exec_netEnc s, s.frameBuilt_encryptFrame _ _ s.beBytes_networkNonce hlo hhi⟩,
      ⟨_, exec_proxyEnc s, s.frameBuilt_encryptFrame _ _ s.beBytes_proxyNonce hlo hhi⟩⟩

/-! The candidate header (R240). -/

@[simp] theorem State.rd_pdutype (s : State) : s.rd .pdutype = [s.par.pdutype] :=
  (s.rd_eq_regBytes .pdutype (by decide) rfl fun _ _ => rfl).trans (beBytes_one _)

/-- The header that NBUF de-obfuscates to under its own PECB. -/
def State.candidate (s : State) : Six := s.nbufHeader ^^^ s.nbufPecb

theorem State.beBytes_candidate (s : State) : beBytes 6 s.candidate = s.candidateHeader := by
  rw [State.candidate, beBytes_xor, s.beBytes_nbufHeader, s.beBytes_nbufPecb, State.candidateHeader]

theorem State.candidateMic_eq (s : State) : s.candidateMic = netMicLen ((headerCtlTtl s.candidate).getLsbD 7) := by
  have hfirst : s.candidateHeader.getD 0 0x00 = headerCtlTtl s.candidate := by
    rw [← s.beBytes_candidate, beBytes_succ, List.getD_cons_zero, headerCtlTtl]
  rw [State.candidateMic, hfirst]
  rfl

/-- The nonce of the candidate header under a layout. -/
def State.candidateNonce (s : State) (layout : NonceLayout) : Nonce :=
  layout (headerCtlTtl s.candidate) (headerSeq s.candidate) (headerSrc s.candidate) s.par.ivindex

/-- The state that holds the candidate header in its registers: its nonces are those of the candidate. -/
def State.withCandidate (s : State) : State := s.setPar (s.par.withHeader s.candidate)

theorem State.withCandidate_headerBytes (s : State) : s.withCandidate.headerBytes = s.candidateHeader :=
  (s.withCandidate.headerBytes_of_header s.candidate rfl rfl rfl).trans s.beBytes_candidate

theorem State.withCandidate_rd_ivindex (s : State) : s.withCandidate.rd .ivindex = s.rd .ivindex := by
  rw [State.rd_ivindex, State.rd_ivindex]
  rfl

theorem State.beBytes_candidateNetworkNonce (s : State) : beBytes 13 (s.candidateNonce networkNonce) = s.candidateNetworkNonce := by
  have hbytes := s.withCandidate.beBytes_networkNonce
  rw [State.networkNonceBytes, s.withCandidate_rd_ivindex, List.append_assoc [0x00], List.append_assoc [0x00], ← State.headerBytes,
    s.withCandidate_headerBytes] at hbytes
  exact hbytes

theorem State.beBytes_candidateProxyNonce (s : State) : beBytes 13 (s.candidateNonce proxyNonce) = s.candidateProxyNonce := by
  have hdrop : s.withCandidate.rd .nseq ++ s.withCandidate.rd .src = s.candidateHeader.drop 1 := by
    rw [← s.withCandidate_headerBytes, State.headerBytes, State.rd_ctlttl]
    rfl
  have hbytes := s.withCandidate.beBytes_proxyNonce
  rw [State.proxyNonceBytes, s.withCandidate_rd_ivindex, List.append_assoc [0x03, 0x00], hdrop] at hbytes
  exact hbytes

/-! The frame opened (R240, R241). -/

/-- The NID check: two bytes agree in their low seven bits. -/
theorem low_seven_bits_eq_iff (x y : Byte) : x.extractLsb' 0 7 = y.extractLsb' 0 7 ↔ x &&& 0x7F = y &&& 0x7F := by
  have hmask : ∀ x : Byte, x &&& 0x7F = (x.extractLsb' 0 7).setWidth 8 := by decide
  have hlow : ∀ x : Byte, (x &&& 0x7F).extractLsb' 0 7 = x.extractLsb' 0 7 := by decide
  constructor
  · intro h
    rw [hmask x, hmask y, h]
  · intro h
    rw [← hlow x, ← hlow y, h]

/-- What the decryption commands have written before the cipher answers: PECB and NONCE. -/
def State.cipherReady (s : State) (layout : NonceLayout) : State :=
  (s.begin.setPecb s.nbufPecb).setNonce (s.candidateNonce layout)

theorem State.frame_cipherReady (s : State) (layout : NonceLayout) : s.Frame (s.cipherReady layout) [.nonce, .pecb] 0 0 :=
  (s.frame_begin.trans (State.frame_setPecb _ _)).setNonce _

/-- The state after a frame that opened to `plain`. -/
def State.opened (s : State) (layout : NonceLayout) (plain : List Byte) : State :=
  (((s.cipherReady layout).setPar (s.decodedPar s.candidate plain)).putLbuf (plain.drop 2)).finish .ok

theorem State.frame_setDecodedPar (s : State) (h : Six) (plain : List Byte) :
    s.Frame (s.setPar (s.decodedPar h plain)) [.pdutype, .ctlttl, .nseq, .src, .dst] 0 0 := by
  refine State.frame_of_regBytes (fun r hr _ _ _ => ?_) ⟨rfl, rfl, rfl, rfl⟩
  cases r <;> simp_all [State.regBytes, State.decodedPar, ParamRegs.withHeader]

/-- What the cipher answers to the frame in NBUF under the candidate's nonce. -/
def State.cipherAnswer (s : State) (layout : NonceLayout) : Option (List Byte) :=
  ccmDecrypt s.keys.kenc (s.candidateNonce layout) s.candidateMic (s.mem.readRange 0x0A8 (s.len.nlen.toNat - 8))

theorem State.cipherAnswer_length {s : State} {layout : NonceLayout} {plain : List Byte} (h : s.cipherAnswer layout = some plain) :
    plain.length = s.len.nlen.toNat - 8 - s.candidateMic := by
  rw [ccmDecrypt_length _ _ _ _ _ h, Memory.readRange_length]

/-- R240's checks in order and its results, the operands read from the state before the command. -/
theorem State.decryptFrame_eq (s : State) (layout : NonceLayout) : s.decryptFrame layout =
    if s.len.nlen.toNat < 15 ∨ 34 < s.len.nlen.toNat then s.begin.fail .errLen
    else if s.mem.read 0x0A1 &&& 0x7F ≠ s.par.nid &&& 0x7F then s.begin.fail .errNid
    else if s.len.nlen.toNat - 8 < 3 + s.candidateMic ∨ 18 + s.candidateMic < s.len.nlen.toNat - 8 then
      (s.begin.setPecb s.nbufPecb).fail .errLen
    else (s.cipherAnswer layout).elim ((s.cipherReady layout).fail .errAuth) (s.opened layout) := by
  have hnid : s.mem.read 0x0A1 &&& 0x7F ≠ s.par.nid &&& 0x7F ↔ s.frameNid ≠ s.nid7 := (low_seven_bits_eq_iff _ _).symm.not
  have hanswer : ccmDecrypt s.begin.keys.kenc
      (layout (headerCtlTtl s.begin.candidate) (headerSeq s.begin.candidate) (headerSrc s.begin.candidate) s.begin.par.ivindex)
      (netMicLen ((headerCtlTtl s.begin.candidate).getLsbD 7)) (s.begin.mem.readRange (nbufBase + 8) (s.begin.len.nlen.toNat - 8)) =
      s.cipherAnswer layout := by
    rw [State.cipherAnswer, s.candidateMic_eq]
    rfl
  rw [State.decryptFrame]
  dsimp only
  rw [← State.nbufPecb, ← State.candidate, hanswer, s.candidateMic_eq]
  simp only [hnid]
  cases s.cipherAnswer layout <;> rfl

theorem exec_netDec (s : State) : exec .netDec s = .next (s.decryptFrame networkNonce) := rfl

theorem exec_proxyDec (s : State) : exec .proxyDec s = .next (s.decryptFrame proxyNonce) := rfl

/-- A frame that opens to `plain` leaves its fields and its lower-transport PDU (R240). -/
theorem State.frameOpened_opened (s : State) (layout : NonceLayout) (nonceBytes plain : List Byte)
    (hnonce : beBytes 13 (s.candidateNonce layout) = nonceBytes) (hadm : s.frameAdmissible)
    (hanswer : s.cipherAnswer layout = some plain) : s.FrameOpened (s.opened layout plain) nonceBytes plain := by
  obtain ⟨-, -, hlo, hhi⟩ := hadm
  have hplain := State.cipherAnswer_length hanswer
  have hdst : beBytes 2 (fromBE 16 (plain.take 2)) = plain.take 2 :=
    beBytes_fromBE 16 2 _ (List.length_take_of_le (by omega)) le_rfl
  have hlen : (plain.drop 2).length = s.len.nlen.toNat - 8 - s.candidateMic - 2 := by rw [List.length_drop, hplain]
  have hcap : (plain.drop 2).length ≤ 16 := by omega
  exact ⟨rfl, rfl, (State.rd_pecb _).trans s.beBytes_nbufPecb, (State.rd_nonce _).trans hnonce, State.rd_pdutype _,
    (State.headerBytes_of_header _ s.candidate rfl rfl rfl).trans s.beBytes_candidate, (State.rd_dst _).trans hdst,
    State.putLbuf_lbuf _ _ hcap, (State.putLbuf_llen_toNat _ _ hcap).trans hlen,
    hlen ▸ ((((s.frame_cipherReady layout).trans (State.frame_setDecodedPar _ s.candidate plain)).putLbuf _).finish .ok).mono (by decide)⟩

/-- What a decryption command answers to an admissible frame, by what the cipher answers. -/
theorem State.opensUnder_of_exec (s : State) (i : Instr) (layout : NonceLayout) (nonceBytes : List Byte)
    (hexec : exec i s = .next (s.decryptFrame layout)) (hnonce : beBytes 13 (s.candidateNonce layout) = nonceBytes)
    (hadm : s.frameAdmissible) : s.OpensUnder i nonceBytes := by
  have hdec : s.decryptFrame layout = (s.cipherAnswer layout).elim ((s.cipherReady layout).fail .errAuth) (s.opened layout) := by
    obtain ⟨hlen, hnid, hpayload⟩ := hadm
    rw [s.decryptFrame_eq, if_neg (by omega), if_neg (not_not.mpr hnid), if_neg (by omega)]
  rw [State.OpensUnder, fromBE_of_beBytes_nonce hnonce, ← State.cipherAnswer]
  rw [hdec] at hexec
  cases hanswer : s.cipherAnswer layout with
  | none =>
    rw [hanswer] at hexec
    exact ⟨_, hexec, rfl, rfl, (State.rd_pecb _).trans s.beBytes_nbufPecb, (State.rd_nonce _).trans hnonce,
      ((s.frame_cipherReady layout).finish .errAuth).mono (by decide)⟩
  | some plain =>
    rw [hanswer] at hexec
    exact ⟨_, hexec, s.frameOpened_opened layout nonceBytes plain hnonce hadm hanswer⟩

/-- The two decryption commands and the layout under which each opens its frame. -/
theorem exists_layout_of_decryption {s : State} {i : Instr} {nonceBytes : List Byte}
    (h : (i = .netDec ∧ nonceBytes = s.candidateNetworkNonce) ∨ (i = .proxyDec ∧ nonceBytes = s.candidateProxyNonce)) :
    ∃ layout, exec i s = .next (s.decryptFrame layout) ∧ beBytes 13 (s.candidateNonce layout) = nonceBytes := by
  rcases h with ⟨rfl, rfl⟩ | ⟨rfl, rfl⟩
  · exact ⟨networkNonce, exec_netDec s, s.beBytes_candidateNetworkNonce⟩
  · exact ⟨proxyNonce, exec_proxyDec s, s.beBytes_candidateProxyNonce⟩

/-- Settles O31: each of R240's checks fails with what was written before it, and an admissible frame opens or is refused by the cipher under
the nonce of its candidate header. -/
theorem frameDecryptionChecksAndOpens : Obligations.FrameDecryptionChecksAndOpens := by
  intro s i nonceBytes hi n nidDiffers
  obtain ⟨layout, hexec, hnonce⟩ := exists_layout_of_decryption hi
  have hdec := s.decryptFrame_eq layout
  refine ⟨fun hlen => ?badLength, fun hlo hhi hnid => ?otherNid, fun hlo hhi hnid hpayload => ?badPayload, fun hadm => ?admissible⟩
  case badLength =>
    rw [hdec, if_pos hlen] at hexec
    exact ⟨_, hexec, s.failedWith_begin_fail .errLen⟩
  case otherNid =>
    rw [hdec, if_neg (by omega), if_pos hnid] at hexec
    exact ⟨_, hexec, s.failedWith_begin_fail .errNid⟩
  case badPayload =>
    rw [hdec, if_neg (by omega), if_neg hnid, if_pos hpayload] at hexec
    exact ⟨_, hexec, rfl, rfl, (State.rd_pecb _).trans s.beBytes_nbufPecb,
      (s.frame_begin.trans (State.frame_setPecb _ _)).finish .errLen⟩
  case admissible => exact s.opensUnder_of_exec i layout nonceBytes hexec hnonce hadm

end Sys2Proof.Machine
end

