-- ==== Sys2Proof/Proofs/HostSteps.lean ====
section
/-! The opcode map (30_encoding.md R92 to R94) and the step (20_memory.md R80): an equation for each kind of host input, and all a step can
do, said once. -/

namespace Sys2Proof.Machine

/-! The opcode map. -/

theorem decode_encode (i : Instr) : decode (encode i) = .ok i := by
  cases i <;> rfl

/-- A byte that decodes is the byte of its row of the map. -/
theorem encode_of_decode {b : Byte} {i : Instr} (h : decode b = .ok i) : encode i = b := by
  unfold decode at h
  split at h <;> cases h <;> exact BitVec.eq_of_toNat_eq (by symm; assumption)

theorem exists_decode_iff (b : Byte) : (∃ i, decode b = .ok i) ↔ (decode b).isOk = true := by
  cases decode b <;> simp [Except.isOk, Except.toBool]

theorem decode_isOk_eq_commandByte : ∀ b : Byte, (decode b).isOk = commandByte b := by decide +kernel

theorem decode_isOk_eq_not_illegalOpcode : ∀ b : Byte, (decode b).isOk = !illegalOpcode b.toNat := by decide +kernel

/-- Settles O1: the map is read in both directions, row by row. -/
theorem decodeAndEncodeAgree : Obligations.DecodeAndEncodeAgree := ⟨decode_encode, fun _ _ => encode_of_decode⟩

/-- Settles O2: whether a byte decodes is one Boolean, which over the 256 bytes is R92's test and the negation of R94's. -/
theorem decodedBytesAreThoseOfTheGroups : Obligations.DecodedBytesAreThoseOfTheGroups := by
  intro b
  rw [exists_decode_iff]
  refine ⟨by rw [decode_isOk_eq_commandByte], ?_⟩
  rw [decode_isOk_eq_not_illegalOpcode, Bool.not_eq_true']

/-- Settles O3: eight rows of the map. -/
theorem sampleOpcodesDecode : Obligations.SampleOpcodesDecode :=
  ⟨decode_encode .nonceProxy, decode_encode .ccmDec, decode_encode .utEnc, decode_encode .hdrDeobf, decode_encode .proxyEnc,
    decode_encode .ltFrame, decode_encode .rxReset, decode_encode .backMatch⟩

/-! A step by the input it serves. -/

/-- A step with an input queued serves that input on the state without it. -/
theorem step_of_pending {s : State} {i : HostInput} {rest : List HostInput} (hp : s.port.pending = i :: rest) :
    step s = (s.withPending rest).serve i := by
  rw [step, State.serveNext, hp]
  rfl

theorem step_idle {s : State} (hp : s.port.pending = []) : step s = .next s := by
  rw [step, State.serveNext, hp]

theorem step_read {s : State} {a : Nat} {rest : List HostInput} (hp : s.port.pending = .read a :: rest) (ha : a < 0x800) :
    step s = .next ((s.withPending rest).serveRead a) := by
  rw [step_of_pending hp]
  exact if_pos (decide_eq_true ha)

theorem step_reset {s : State} {rest : List HostInput} (hp : s.port.pending = .reset :: rest) :
    step s = .next (s.withPending rest).resetInput := step_of_pending hp

theorem step_read_outside {s : State} {a : Nat} {rest : List HostInput} (hp : s.port.pending = .read a :: rest) (ha : 0x800 ≤ a) :
    step s = .fault (.outsideWindow a) := by
  rw [step_of_pending hp]
  exact if_neg (by rw [inWindow, decide_eq_true_iff]; exact Nat.not_lt.mpr ha)

theorem step_write_outside {s : State} {a : Nat} {v : Byte} {rest : List HostInput} (hp : s.port.pending = .write a v :: rest)
    (ha : 0x800 ≤ a) : step s = .fault (.outsideWindow a) := by
  have hcmd : (HostInput.write a v).commandByte? = none := if_neg (show a ≠ 0 by omega)
  have hout : ¬ inWindow a = true := by rw [inWindow, decide_eq_true_iff]; exact Nat.not_lt.mpr ha
  rw [step_of_pending hp]
  simp only [State.serve, hcmd, hout, if_false, Bool.false_eq_true]

/-- A write to CMD runs the byte written. -/
theorem step_cmd {s : State} {b : Byte} {rest : List HostInput} (hp : s.port.pending = .write 0x000 b :: rest) :
    step s = (s.withPending rest).runCommand b := step_of_pending hp

theorem step_command {s : State} {b : Byte} {i : Instr} {rest : List HostInput} (hp : s.port.pending = .write 0x000 b :: rest)
    (hd : decode b = .ok i) : step s = exec i (s.withPending rest) := by
  rw [step_cmd hp, State.runCommand, hd]

theorem step_illegal {s : State} {b : Byte} {e : DecodeError} {rest : List HostInput} (hp : s.port.pending = .write 0x000 b :: rest)
    (hd : decode b = .error e) : step s = .next (s.withPending rest).illegalCommand := by
  rw [step_cmd hp, State.runCommand, hd]

/-- Settles O4: a write to CMD runs the byte written, and the byte decodes. -/
theorem stepRunsTheDecodedCommand : Obligations.StepRunsTheDecodedCommand := fun _ _ _ _ => step_command

/-- Settles O5: the decoder rejects every byte of R94's ranges. -/
theorem illegalOpcodeChangesStatusAndEventsOnly : Obligations.IllegalOpcodeChangesStatusAndEventsOnly := by
  intro s b rest hp hillegal
  have hrejected : (decode b).isOk = false := by rw [decode_isOk_eq_not_illegalOpcode, hillegal, Bool.not_true]
  cases hd : decode b with
  | ok i => simp [hd, Except.isOk, Except.toBool] at hrejected
  | error e => exact step_illegal hp hd

/-- Settles O6: one equation for each kind of input. -/
theorem stepServesAccessesInOrder : Obligations.StepServesAccessesInOrder := by
  refine ⟨fun s hp => step_idle hp, fun s a rest hp ha => step_read hp ha, fun s a v rest hp h0 ha => ?write,
    fun s a v rest hp ha => ?outside, fun s rest hp => step_reset hp⟩
  case write =>
    rw [step_write s a v rest hp h0 ha, ← State.windowWrite_withPending]
    rfl
  case outside => exact hp.elim (step_read_outside · ha) (step_write_outside · ha)

/-! All a step can do. -/

/-- The steps that answer a next state, one constructor for each kind of input. -/
inductive State.StepsTo (s : State) : State → Prop
  | idle (hp : s.port.pending = []) : s.StepsTo s
  | read {a : Nat} {rest : List HostInput} (hp : s.port.pending = .read a :: rest) : s.StepsTo ((s.withPending rest).serveRead a)
  | command {b : Byte} {i : Instr} {rest : List HostInput} {t : State} (hp : s.port.pending = .write 0x000 b :: rest)
      (hrun : exec i (s.withPending rest) = .next t) : s.StepsTo t
  | illegal {b : Byte} {rest : List HostInput} (hp : s.port.pending = .write 0x000 b :: rest) :
      s.StepsTo (s.withPending rest).illegalCommand
  | write {a : Nat} {v : Byte} {rest : List HostInput} (hp : s.port.pending = .write a v :: rest) :
      s.StepsTo ((s.windowWrite a v).withPending rest)
  | reset {rest : List HostInput} (hp : s.port.pending = .reset :: rest) : s.StepsTo (s.withPending rest).resetInput

theorem State.stepsTo_of_step {s t : State} (h : step s = .next t) : s.StepsTo t := by
  cases hp : s.port.pending with
  | nil =>
    obtain rfl := Host.Outcome.next.inj ((step_idle hp).symm.trans h)
    exact .idle hp
  | cons i rest =>
    cases i with
    | read a =>
      by_cases ha : a < 0x800
      · obtain rfl := Host.Outcome.next.inj ((step_read hp ha).symm.trans h)
        exact .read hp
      · cases (step_read_outside hp (Nat.not_lt.mp ha)).symm.trans h
    | write a v =>
      by_cases h0 : a = 0x000
      · subst h0
        cases hd : decode v with
        | ok i => exact .command hp ((step_command hp hd).symm.trans h)
        | error e =>
          obtain rfl := Host.Outcome.next.inj ((step_illegal hp hd).symm.trans h)
          exact .illegal hp
      · by_cases ha : a < 0x800
        · obtain rfl := Host.Outcome.next.inj ((step_write s a v rest hp h0 ha).symm.trans h)
          exact .write hp
        · cases (step_write_outside hp (Nat.not_lt.mp ha)).symm.trans h
    | reset =>
      obtain rfl := Host.Outcome.next.inj ((step_reset hp).symm.trans h)
      exact .reset hp

end Sys2Proof.Machine
end

