-- ==== Sys2Proof/Proofs/CommandOutcomes.lean ====
section
/-! All a command can do: every outcome of the 21 commands, said once (30_encoding.md R98; 60_exceptions.md R260, R261). -/

namespace Sys2Proof.Machine

/-! A segment that passes the format checks (44_reassembly.md R191). -/

/-- The two branches that take a segment: `j` is the state in which it is stored. -/
inductive State.Joins (s : State) (t : Seq) (g : Segment) : State → Prop
  /-- A new SeqAuth (R196). -/
  | new (hnew : s.ctx.lastValid = false ∨ s.ctx.lastseqauth < t) : s.Joins t g ((s.begin.noteSegment g).newSeqAuth t g.seqZero)
  /-- The recorded SeqAuth, its message in progress (R198). -/
  | same (hvalid : s.ctx.lastValid = true) (hlast : s.ctx.lastseqauth = t) (hrun : s.ctx.flag .incRun = true) :
      s.Joins t g (s.begin.noteSegment g).sameSeqAuth

/-- The state with a segment stored (R201). -/
def State.withSegment (s : State) (g : Segment) : State := s.setCtx (s.ctx.store g.segO g.payload)

theorem State.storeSegment_of_complete (s : State) (t : Seq) (g : Segment) (h : (s.withSegment g).ctx.isComplete g.segN = true) :
    s.storeSegment t g = (s.withSegment g).deliver t g.segN := if_pos h

theorem State.storeSegment_of_incomplete (s : State) (t : Seq) (g : Segment) (h : (s.withSegment g).ctx.isComplete g.segN = false) :
    s.storeSegment t g = (s.withSegment g).finish .pending := if_neg (Bool.eq_false_iff.mp h)

theorem State.acceptSegment_of_new (s : State) (t : Seq) (g : Segment) (h : s.ctx.lastValid = false ∨ s.ctx.lastseqauth < t) :
    s.acceptSegment t g = ((s.noteSegment g).newSeqAuth t g.seqZero).storeSegment t g := by
  rw [State.acceptSegment]
  exact if_pos (by simpa using h)

theorem State.acceptSegment_of_same (s : State) (t : Seq) (g : Segment) (hvalid : s.ctx.lastValid = true) (hlast : s.ctx.lastseqauth = t)
    (hrun : s.ctx.flag .incRun = true) : s.acceptSegment t g = (s.noteSegment g).sameSeqAuth.storeSegment t g := by
  rw [State.acceptSegment]
  simp only [hvalid, hlast, hrun]
  simp

/-- A segment that passes the checks is ignored, or it joins a message and is stored. -/
theorem State.acceptSegment_cases (s : State) (t : Seq) (g : Segment) :
    s.begin.acceptSegment t g = (s.begin.noteSegment g).finish .ignored ∨
      ∃ j, s.Joins t g j ∧ s.begin.acceptSegment t g = j.storeSegment t g := by
  by_cases hnew : s.ctx.lastValid = false ∨ s.ctx.lastseqauth < t
  · exact .inr ⟨_, .new hnew, s.begin.acceptSegment_of_new t g hnew⟩
  obtain ⟨hvalid, hold⟩ := not_or.mp hnew
  rw [Bool.not_eq_false] at hvalid
  by_cases hsame : s.ctx.lastseqauth = t ∧ s.ctx.flag .incRun = true
  · exact .inr ⟨_, .same hvalid hsame.1 hsame.2, s.begin.acceptSegment_of_same t g hvalid hsame.1 hsame.2⟩
  · exact .inl (s.begin.acceptSegment_of_stale t g hvalid hold fun heq => by simpa [heq] using hsame)

/-! Every outcome of every command. -/

/-- What a command can leave of a state: one constructor for each way a command ends. -/
inductive State.Ends (s : State) : Instr → State → Prop
  /-- A typed failure before anything else was written. -/
  | failed {i : Instr} (c : StatusCode) (hc : c ∈ i.answers) (hbit : c.toByte.getLsbD 7 = true) : s.Ends i (s.begin.fail c)
  | nonce {i : Instr} (n : Nonce) (hi : i ∈ [.nonceNet, .nonceApp, .nonceDev, .nonceProxy]) : s.Ends i ((s.begin.setNonce n).finish .ok)
  | ccmEnc (bs : List Byte) (hlen : bs.length ≤ 384) : s.Ends .ccmEnc ((s.begin.putUbuf bs).finish .ok)
  | ccmDec (bs : List Byte) (hlen : bs.length ≤ 380) : s.Ends .ccmDec ((s.begin.putAbuf bs).finish .ok)
  | utEnc (n : Nonce) (bs : List Byte) (hlen : bs.length ≤ 384) : s.Ends .utEnc (((s.begin.setNonce n).putUbuf bs).finish .ok)
  | utDec (n : Nonce) (bs : List Byte) (hlen : bs.length ≤ 380) : s.Ends .utDec (((s.begin.setNonce n).putAbuf bs).finish .ok)
  /-- UT_DEC with a MIC that does not verify. -/
  | utRefused (n : Nonce) : s.Ends .utDec ((s.begin.setNonce n).fail .errAuth)
  | pecbGen (p : Six) : s.Ends .pecbGen ((s.begin.setPecb p).finish .ok)
  | hdrObf (h : Six) : s.Ends .hdrObf ((s.begin.putNbufHeader h).finish .ok)
  | hdrDeobf (h : Six) : s.Ends .hdrDeobf ((s.begin.setPar (s.par.withHeader h)).finish .ok)
  | frameEnc {i : Instr} (hi : i ∈ [.netEnc, .proxyEnc]) (n : Nonce) (p : Six) (bs : List Byte) (hlen : bs.length ≤ 34) :
      s.Ends i ((((s.begin.setNonce n).setPecb p).putNbuf bs).finish .ok)
  /-- NET_DEC or PROXY_DEC with a payload length that the candidate header excludes. -/
  | badPayload {i : Instr} (hi : i ∈ [.netDec, .proxyDec]) (p : Six) : s.Ends i ((s.begin.setPecb p).fail .errLen)
  /-- NET_DEC or PROXY_DEC with a NetMIC that does not verify. -/
  | frameRefused {i : Instr} (hi : i ∈ [.netDec, .proxyDec]) (layout : NonceLayout) : s.Ends i ((s.cipherReady layout).fail .errAuth)
  | frameOpened {i : Instr} (hi : i ∈ [.netDec, .proxyDec]) (layout : NonceLayout) (plain : List Byte) (hlen : plain.length ≤ 18) :
      s.Ends i (s.opened layout plain)
  | ltFrame (pdu : List Byte) (txseg : Byte) (hlen : pdu.length ≤ 16) (htx : txseg &&& ~~~0x9F = 0x00) :
      s.Ends .ltFrame (s.begin.framed pdu txseg)
  | unsegmented (hlen : s.len.llen.toNat ≤ 16) : s.Ends .ltParse s.begin.parseUnsegmented
  /-- A segment of a message that is over, or of none that is in progress. -/
  | ignored (g : Segment) : s.Ends .ltParse ((s.begin.noteSegment g).finish .ignored)
  /-- A segment that leaves its message incomplete. -/
  | pending {t : Seq} {g : Segment} {j : State} (hr : s.Receives g t) (hj : s.Joins t g j) :
      s.Ends .ltParse ((j.withSegment g).finish .pending)
  /-- A segment that completes its message. -/
  | delivered {t : Seq} {g : Segment} {j : State} (hr : s.Receives g t) (hj : s.Joins t g j)
      (hc : (j.withSegment g).ctx.isComplete g.segN = true) : s.Ends .ltParse ((j.withSegment g).deliver t g.segN)
  | incIgnored (hidle : s.ctx.flag .incRun = false) : s.Ends .tmrIncExp (s.begin.finish .ignored)
  | incExpired (hrun : s.ctx.flag .incRun = true) :
      s.Ends .tmrIncExp ((if s.ctx.flag .ackRun then s.begin.abandonMessage.cancelAckTimer else s.begin.abandonMessage).finish .ok)
  | ackIgnored (hidle : s.ctx.flag .ackRun = false) : s.Ends .tmrAckExp (s.begin.finish .ignored)
  | ackExpired (hrun : s.ctx.flag .ackRun = true) : s.Ends .tmrAckExp (s.begin.sendDueAck.finish .ok)
  | rxReset : s.Ends .rxReset ((s.begin.cancelTimers.setCtx s.begin.cancelTimers.ctx.cleared).finish .ok)
  | backMatch : s.Ends .backMatch ((s.matched.raiseIf (ackSeqZero s.receivedAck = s.tseqZero) .szMatch).finish .ok)

/-! Each command ends in one of its ways. -/

theorem exists_ends_ccmEnc (s : State) : ∃ t, exec .ccmEnc s = .next t ∧ s.Ends .ccmEnc t := by
  have hm := transMicLen_bounds s.micl
  rw [exec_ccmEnc]
  split
  · exact ⟨_, rfl, .failed _ (by decide) rfl⟩
  split
  · exact ⟨_, rfl, .failed _ (by decide) rfl⟩
  split
  · exact ⟨_, rfl, .failed _ (by decide) rfl⟩
  · refine ⟨_, rfl, .ccmEnc _ ?_⟩
    rw [ccmEncrypt_length _ _ _ _ (by omega), State.abuf_length]
    omega

theorem exists_ends_ccmDec (s : State) : ∃ t, exec .ccmDec s = .next t ∧ s.Ends .ccmDec t := by
  have hm := transMicLen_bounds s.micl
  rw [exec_ccmDec]
  split
  · exact ⟨_, rfl, .failed _ (by decide) rfl⟩
  split
  · exact ⟨_, rfl, .failed _ (by decide) rfl⟩
  cases hanswer : ccmDecrypt s.rawKey s.nonce (transMicLen s.micl) s.ubuf with
  | none => exact ⟨_, rfl, .failed .errAuth (by decide) rfl⟩
  | some p =>
    refine ⟨_, rfl, .ccmDec p ?_⟩
    rw [ccmDecrypt_length _ _ _ _ _ hanswer, State.ubuf_length]
    omega

theorem exists_ends_utEnc (s : State) : ∃ t, exec .utEnc s = .next t ∧ s.Ends .utEnc t := by
  have hm := transMicLen_bounds s.effectiveAszmic
  rw [exec_utEnc]
  split
  · exact ⟨_, rfl, .failed _ (by decide) rfl⟩
  · refine ⟨_, rfl, .utEnc _ _ ?_⟩
    rw [ccmEncrypt_length _ _ _ _ (by omega), State.abuf_length]
    omega

theorem exists_ends_utDec (s : State) : ∃ t, exec .utDec s = .next t ∧ s.Ends .utDec t := by
  have hm := transMicLen_bounds s.szmic
  rw [exec_utDec]
  split
  · exact ⟨_, rfl, .failed _ (by decide) rfl⟩
  cases hanswer : ccmDecrypt s.keys.ktrans (s.upperNonce s.szmic) (transMicLen s.szmic) s.ubuf with
  | none => exact ⟨_, rfl, .utRefused _⟩
  | some p =>
    refine ⟨_, rfl, .utDec _ p ?_⟩
    rw [ccmDecrypt_length _ _ _ _ _ hanswer, State.ubuf_length]
    omega

theorem exists_ends_pecbGen (s : State) : ∃ t, exec .pecbGen s = .next t ∧ s.Ends .pecbGen t := by
  rw [exec_pecbGen]
  split
  · exact ⟨_, rfl, .failed _ (by decide) rfl⟩
  · exact ⟨_, rfl, .pecbGen _⟩

theorem exists_ends_hdrObf (s : State) : ∃ t, exec .hdrObf s = .next t ∧ s.Ends .hdrObf t := by
  rw [exec_hdrObf]
  split
  · exact ⟨_, rfl, .failed _ (by decide) rfl⟩
  · exact ⟨_, rfl, .hdrObf _⟩

theorem exists_ends_hdrDeobf (s : State) : ∃ t, exec .hdrDeobf s = .next t ∧ s.Ends .hdrDeobf t := by
  rw [exec_hdrDeobf]
  split
  · exact ⟨_, rfl, .failed _ (by decide) rfl⟩
  · exact ⟨_, rfl, .hdrDeobf _⟩

theorem State.ends_encryptFrame (s : State) (layout : NonceLayout) {i : Instr} (hi : i ∈ [Instr.netEnc, .proxyEnc]) :
    s.Ends i (s.encryptFrame layout) := by
  have hm := netMicLen_bounds s.ctl
  rw [State.encryptFrame_eq]
  split
  · exact .failed _ (by revert i; decide) rfl
  · refine .frameEnc hi _ _ _ ?_
    rw [State.builtFrame_length]
    omega

theorem State.ends_decryptFrame (s : State) (layout : NonceLayout) {i : Instr} (hi : i ∈ [Instr.netDec, .proxyDec]) :
    s.Ends i (s.decryptFrame layout) := by
  rw [State.decryptFrame_eq]
  split
  · exact .failed _ (by revert i; decide) rfl
  split
  · exact .failed _ (by revert i; decide) rfl
  split
  · exact .badPayload hi _
  cases hanswer : s.cipherAnswer layout with
  | none => exact .frameRefused hi layout
  | some plain =>
    refine .frameOpened hi layout plain ?_
    rw [State.cipherAnswer_length hanswer]
    omega

/-- TXSEG's reserved bits are 0 whatever a framing reports (10_state.md R41). -/
theorem txSegOf_reserved (seg : Bool) (segN : BitVec 5) : txSegOf seg segN &&& ~~~0x9F = 0x00 := by
  revert seg segN
  decide

theorem exists_ends_ltFrame (s : State) : ∃ t, exec .ltFrame s = .next t ∧ s.Ends .ltFrame t := by
  have hsize := segmentSize_bounds s.ctl
  rw [exec_ltFrame]
  split
  · exact ⟨_, rfl, .failed _ (by decide) rfl⟩
  split
  · split
    · exact ⟨_, rfl, .failed _ (by decide) rfl⟩
    · refine ⟨_, rfl, .ltFrame _ _ ?_ (txSegOf_reserved _ _)⟩
      rw [List.length_cons, State.ubuf_length]
      omega
  split
  · exact ⟨_, rfl, .failed _ (by decide) rfl⟩
  · refine ⟨_, rfl, .ltFrame _ _ ?_ (txSegOf_reserved _ _)⟩
    simp only [List.length_append, segmentHeader, List.length_cons, List.length_nil, segmentSlice, List.length_take]
    omega

theorem exists_ends_ltParse (s : State) : ∃ t, exec .ltParse s = .next t ∧ s.Ends .ltParse t := by
  rcases execLtParse_cases s with ⟨-, hrun⟩ | ⟨-, hhi, -, hrun⟩ | ⟨-, -, -, -, hrun⟩ |
    ⟨hlo, hhi, hseg, ⟨-, hrun⟩ | ⟨hord, ⟨-, hrun⟩ | ⟨t, ht, hrun⟩⟩⟩
  · exact ⟨_, hrun, .failed _ (by decide) rfl⟩
  · exact ⟨_, hrun, .unsegmented hhi⟩
  · exact ⟨_, hrun, .failed _ (by decide) rfl⟩
  · exact ⟨_, hrun, .failed _ (by decide) rfl⟩
  · exact ⟨_, hrun, .failed _ (by decide) rfl⟩
  · have hr : s.Receives (segmentFields s.lbuf) t := ⟨⟨hlo, hhi⟩, hseg, rfl, Nat.not_lt.mp hord, ht⟩
    refine ⟨_, hrun, ?_⟩
    rcases s.acceptSegment_cases t (segmentFields s.lbuf) with heq | ⟨j, hj, heq⟩
    · exact heq ▸ .ignored _
    rw [heq]
    cases hc : (j.withSegment (segmentFields s.lbuf)).ctx.isComplete (segmentFields s.lbuf).segN with
    | false => exact j.storeSegment_of_incomplete t _ hc ▸ .pending hr hj
    | true => exact j.storeSegment_of_complete t _ hc ▸ .delivered hr hj hc

theorem exists_ends_tmrIncExp (s : State) : ∃ t, exec .tmrIncExp s = .next t ∧ s.Ends .tmrIncExp t := by
  cases h : s.ctx.flag .incRun with
  | false => exact ⟨_, exec_tmrIncExp_of_idle s h, .incIgnored h⟩
  | true => exact ⟨_, exec_tmrIncExp_of_running s h, .incExpired h⟩

theorem exists_ends_tmrAckExp (s : State) : ∃ t, exec .tmrAckExp s = .next t ∧ s.Ends .tmrAckExp t := by
  cases h : s.ctx.flag .ackRun with
  | false => exact ⟨_, (exec_tmrAckExp s).trans (if_pos h), .ackIgnored h⟩
  | true => exact ⟨_, (exec_tmrAckExp s).trans (if_neg (by simp [h])), .ackExpired h⟩

theorem exists_ends_backMatch (s : State) : ∃ t, exec .backMatch s = .next t ∧ s.Ends .backMatch t := by
  rw [exec_backMatch]
  split
  · exact ⟨_, rfl, .failed _ (by decide) rfl⟩
  · exact ⟨_, rfl, .backMatch⟩

/-- Every command answers a next state, in one of its ways (R260). -/
theorem exists_ends (i : Instr) (s : State) : ∃ t, exec i s = .next t ∧ s.Ends i t := by
  cases i with
  | nonceNet => exact ⟨_, exec_nonceNet s, .nonce _ (by decide)⟩
  | nonceApp => exact ⟨_, exec_nonceApp s, .nonce _ (by decide)⟩
  | nonceDev => exact ⟨_, exec_nonceDev s, .nonce _ (by decide)⟩
  | nonceProxy => exact ⟨_, exec_nonceProxy s, .nonce _ (by decide)⟩
  | ccmEnc => exact exists_ends_ccmEnc s
  | ccmDec => exact exists_ends_ccmDec s
  | utEnc => exact exists_ends_utEnc s
  | utDec => exact exists_ends_utDec s
  | pecbGen => exact exists_ends_pecbGen s
  | hdrObf => exact exists_ends_hdrObf s
  | hdrDeobf => exact exists_ends_hdrDeobf s
  | netEnc => exact ⟨_, exec_netEnc s, s.ends_encryptFrame _ (by decide)⟩
  | netDec => exact ⟨_, exec_netDec s, s.ends_decryptFrame _ (by decide)⟩
  | proxyEnc => exact ⟨_, exec_proxyEnc s, s.ends_encryptFrame _ (by decide)⟩
  | proxyDec => exact ⟨_, exec_proxyDec s, s.ends_decryptFrame _ (by decide)⟩
  | ltFrame => exact exists_ends_ltFrame s
  | ltParse => exact exists_ends_ltParse s
  | tmrIncExp => exact exists_ends_tmrIncExp s
  | tmrAckExp => exact exists_ends_tmrAckExp s
  | rxReset => exact ⟨_, exec_rxReset s, .rxReset⟩
  | backMatch => exact exists_ends_backMatch s

/-- What a command answered is one of its ways to end. -/
theorem State.ends_of_exec {i : Instr} {s t : State} (h : exec i s = .next t) : s.Ends i t := by
  obtain ⟨t', hrun, hends⟩ := exists_ends i s
  obtain rfl := Host.Outcome.next.inj (hrun.symm.trans h)
  exact hends

/-- STATUS is a code listed for the command, whichever way it ends (R261). -/
theorem State.Ends.status {s t : State} {i : Instr} (h : s.Ends i t) : ∃ c ∈ i.answers, t.status = c.toByte := by
  cases h with
  | failed c hc _ => exact ⟨c, hc, rfl⟩
  | nonce _ hi => exact ⟨.ok, by revert i; decide, rfl⟩
  | frameEnc hi => exact ⟨.ok, by revert i; decide, rfl⟩
  | badPayload hi => exact ⟨.errLen, by revert i; decide, rfl⟩
  | frameRefused hi => exact ⟨.errAuth, by revert i; decide, rfl⟩
  | frameOpened hi => exact ⟨.ok, by revert i; decide, rfl⟩
  | utRefused => exact ⟨.errAuth, by decide, rfl⟩
  | ignored | incIgnored | ackIgnored => exact ⟨.ignored, by decide, rfl⟩
  | pending => exact ⟨.pending, by decide, rfl⟩
  | delivered => exact ⟨.ok, by decide, State.deliver_status _ _ _⟩
  | _ => exact ⟨.ok, by decide, rfl⟩

/-- Settles O51: each way to end writes a listed code. -/
theorem everyCommandEndsWithAListedStatus : Obligations.EveryCommandEndsWithAListedStatus := by
  intro i s
  obtain ⟨t, hrun, hends⟩ := exists_ends i s
  obtain ⟨c, hc, hstatus⟩ := hends.status
  exact ⟨t, c, hrun, hc, hstatus⟩

/-- Settles O7: inside the window every kind of input has an equation, and a command always answers. -/
theorem stepIsSafeInsideTheWindow : Obligations.StepIsSafeInsideTheWindow := by
  intro s hinside
  cases hp : s.port.pending with
  | nil => exact ⟨_, step_idle hp⟩
  | cons i rest =>
    cases i with
    | read a => exact ⟨_, step_read hp (hinside a 0 rest (.inl hp))⟩
    | reset => exact ⟨_, step_reset hp⟩
    | write a v =>
      by_cases h0 : a = 0x000
      · subst h0
        cases hd : decode v with
        | ok i =>
          obtain ⟨t, hrun, -⟩ := exists_ends i (s.withPending rest)
          exact ⟨t, (step_command hp hd).trans hrun⟩
        | error e => exact ⟨_, step_illegal hp hd⟩
      · exact ⟨_, step_write s a v rest hp h0 (hinside a v rest (.inr hp))⟩

end Sys2Proof.Machine
end

