-- ==== Sys2Proof/Proofs/TimerTracking.lean ====
section
/-! The timer service against RFLAGS (10_state.md R26, R27; 60_exceptions.md R271, R272): a command's EVENTS are exactly what turns the timers
that were pending before it into those that its RFLAGS say are pending after it. -/

namespace Sys2Proof.Machine

/-! The requests of one timer. -/

/-- The start request of a timer (R26). -/
def Timer.start : Timer → Event
  | .inc => .incStart
  | .ack => .ackStart

/-- The cancel request of a timer (R26). -/
def Timer.cancel : Timer → Event
  | .inc => .incCancel
  | .ack => .ackCancel

theorem TimerService.deadline_firedBy (ts : TimerService) (i : Instr) (tm : Timer) :
    (ts.firedBy i).deadline tm = if i = tm.expiry then none else ts.deadline tm := by
  cases tm <;> cases i <;> rfl

theorem TimerService.firedBy_expiry (ts : TimerService) (tm : Timer) : ts.firedBy tm.expiry = ts.clear tm := by
  cases tm <;> rfl

/-- Which timers are pending once the requests in EVENTS were served, the start before the cancel. -/
theorem TimerService.deadline_serve_isSome (ts : TimerService) (now : Nat) (s : State) (tm : Timer) :
    ((ts.serve now s).deadline tm).isSome = (!tm.cancel.isIn s.events && (tm.start.isIn s.events || (ts.deadline tm).isSome)) := by
  cases tm <;> exact serveTimer_isSome _ _ _ _

/-! What each command requests. -/

/-- RFLAGS of `t` say of each timer what its requests in EVENTS make of the flag in `s`, the expiry command clearing it first. -/
def State.Tracks (s t : State) (i : Instr) : Prop := ∀ tm : Timer,
  t.ctx.flag tm.running = (!tm.cancel.isIn t.events && (tm.start.isIn t.events || (!decide (i = tm.expiry) && s.ctx.flag tm.running)))

/-- A command that is no expiry, keeps the context and makes no request. -/
theorem State.tracks_of_quiet {s t : State} {i : Instr} (hi : i ≠ .tmrIncExp ∧ i ≠ .tmrAckExp) (hctx : t.ctx = s.ctx)
    (hquiet : ∀ tm : Timer, tm.start.isIn t.events = false ∧ tm.cancel.isIn t.events = false) : s.Tracks t i := by
  intro tm
  obtain ⟨hstart, hcancel⟩ := hquiet tm
  have htm : i ≠ tm.expiry := by cases tm <;> [exact hi.1; exact hi.2]
  simp [hctx, htm, hstart, hcancel]

/-- With no event raised no request is made. -/
theorem quiet_of_events_zero {t : State} (h : t.events = 0x00) (tm : Timer) :
    tm.start.isIn t.events = false ∧ tm.cancel.isIn t.events = false := by
  rw [h]
  exact ⟨Event.isIn_zero _, Event.isIn_zero _⟩

/-- An event that is no request of a timer. -/
theorem quiet_of_eventsAre {t : State} {es : List Event} (h : t.eventsAre es) (hes : ∀ tm : Timer, tm.start ∉ es ∧ tm.cancel ∉ es)
    (tm : Timer) : tm.start.isIn t.events = false ∧ tm.cancel.isIn t.events = false := by
  obtain ⟨hstart, hcancel⟩ := hes tm
  rw [h, h]
  simp [hstart, hcancel]

@[simp] theorem State.withSegment_ctx (s : State) (g : Segment) : (s.withSegment g).ctx = s.ctx.store g.segO g.payload := rfl
@[simp] theorem State.withSegment_events (s : State) (g : Segment) : (s.withSegment g).events = s.events := rfl
@[simp] theorem State.withSegment_par (s : State) (g : Segment) : (s.withSegment g).par = s.par := rfl
@[simp] theorem State.withSegment_parsed (s : State) (g : Segment) : (s.withSegment g).parsed = s.parsed := rfl
@[simp] theorem State.withSegment_ackbuf (s : State) (g : Segment) : (s.withSegment g).ackbuf = s.ackbuf := rfl
@[simp] theorem State.withSegment_mem (s : State) (g : Segment) : (s.withSegment g).mem = s.mem := rfl

/-- The destination decides about acknowledgements; no step of LT_PARSE writes it. -/
theorem State.Joins.dst {s j : State} {t : Seq} {g : Segment} (h : s.Joins t g j) : j.par.dst = s.par.dst := by
  cases h <;> simp

/-- The flags and requests in the state in which a segment is stored: INC_RUN is set and INC_START raised; the acknowledgement timer is
armed where DST is unicast, and where it is not a new SeqAuth cancels it (R196) while the same one leaves it (R198). -/
theorem State.Joins.tracks {s j : State} {t : Seq} {g : Segment} (h : s.Joins t g j) : s.Tracks j .ltParse := by
  intro tm
  cases h with
  | new =>
    cases tm with
    | inc => simp [Timer.running, Timer.start, Timer.cancel, State.newSeqAuth_isIn]
    | ack =>
      cases hu : unicast s.par.dst <;>
        simp [Timer.running, Timer.start, Timer.cancel, Timer.expiry, State.newSeqAuth_isIn, hu]
  | same _ _ hrun =>
    cases tm with
    | inc => simp [Timer.running, Timer.start, Timer.cancel, State.sameSeqAuth_isIn, hrun]
    | ack =>
      cases ha : s.ctx.flag .ackRun <;>
        simp [Timer.running, Timer.start, Timer.cancel, Timer.expiry, State.sameSeqAuth_isIn, ha]

/-- Storing the segment makes no request and leaves the flags. -/
theorem State.Tracks.withSegment {s j : State} {i : Instr} (h : s.Tracks j i) (g : Segment) : s.Tracks (j.withSegment g) i := h

/-- A completion turns both timers off by its own requests, the acknowledgement timer where it sends the block-ack (R203). -/
theorem State.Tracks.deliver {s j : State} {i : Instr} (h : s.Tracks j i) (t : Seq) (segN : BitVec 5) : s.Tracks (j.deliver t segN) i := by
  intro tm
  cases tm with
  | inc => simp [Timer.running, Timer.cancel, State.deliver_isIn]
  | ack =>
    have hack := h .ack
    simp only [Timer.running, Timer.start, Timer.cancel] at hack ⊢
    rw [State.deliver_flag, hack]
    cases hacks : (unicast j.par.dst && !j.ctx.flag .ackSent) <;> simp [State.deliver_isIn, hacks]

/-- Abandoning the message makes no request: the expiry itself has ended the incomplete timer (R206). -/
theorem State.tracks_incExpired (s : State) :
    s.Tracks (if s.ctx.flag .ackRun then s.begin.abandonMessage.cancelAckTimer else s.begin.abandonMessage) .tmrIncExp := by
  have hevents := s.eventsAre_begin.abandonMessage
  intro tm
  cases hack : s.ctx.flag .ackRun with
  | false =>
    simp only [Bool.false_eq_true, if_false, State.abandonMessage_flag]
    rw [hevents, hevents]
    cases tm <;> simp [Timer.running, Timer.start, Timer.cancel, Timer.expiry, hack]
  | true =>
    simp only [if_true, State.cancelAckTimer_ctx, RxContext.flag_setFlag, State.abandonMessage_flag]
    rw [hevents.cancelAckTimer, hevents.cancelAckTimer]
    cases tm <;> simp [Timer.running, Timer.start, Timer.cancel, Timer.expiry]

/-- Sending the due block-ack makes no request: the expiry itself has ended the acknowledgement timer (R207). -/
theorem State.tracks_ackExpired (s : State) : s.Tracks s.begin.sendDueAck .tmrAckExp := by
  have hevents := s.eventsAre_begin.sendDueAck
  intro tm
  rw [State.sendDueAck_flag, hevents, hevents]
  cases tm <;> simp [Timer.running, Timer.start, Timer.cancel, Timer.expiry]

/-- A reset of the context cancels each timer that is running (R209). -/
theorem State.tracks_rxReset (s : State) : s.Tracks (s.begin.cancelTimers.setCtx s.begin.cancelTimers.ctx.cleared) .rxReset := by
  have hevents : (s.begin.cancelTimers.setCtx s.begin.cancelTimers.ctx.cleared).eventsAre _ := s.eventsAre_cancelTimers
  intro tm
  rw [State.setCtx_ctx, RxContext.cleared_flag, hevents, hevents]
  cases tm with
  | inc => cases hinc : s.ctx.flag .incRun <;> cases s.ctx.flag .ackRun <;> simp [Timer.running, Timer.start, Timer.cancel, hinc]
  | ack => cases s.ctx.flag .incRun <;> cases hack : s.ctx.flag .ackRun <;> simp [Timer.running, Timer.start, Timer.cancel, hack]

/-- Neither expiry command has a typed failure (R206, R207). -/
theorem not_typed_failure_of_expiry (c : StatusCode) (hc : c ∈ [StatusCode.ok, .ignored]) : ¬ c.toByte.getLsbD 7 = true := by
  revert c
  decide

/-- Every way a command ends keeps RFLAGS and the requests in step. -/
theorem State.Ends.tracks {s t : State} {i : Instr} (h : s.Ends i t) : s.Tracks t i := by
  cases h with
  | failed c hc hbit =>
    refine State.tracks_of_quiet ⟨?_, ?_⟩ rfl (quiet_of_events_zero rfl) <;> rintro rfl <;> exact not_typed_failure_of_expiry c hc hbit
  | nonce _ hi => exact State.tracks_of_quiet (by revert i; decide) rfl (quiet_of_events_zero rfl)
  | frameEnc hi => exact State.tracks_of_quiet (by revert i; decide) rfl (quiet_of_events_zero rfl)
  | badPayload hi => exact State.tracks_of_quiet (by revert i; decide) rfl (quiet_of_events_zero rfl)
  | frameRefused hi => exact State.tracks_of_quiet (by revert i; decide) rfl (quiet_of_events_zero rfl)
  | frameOpened hi => exact State.tracks_of_quiet (by revert i; decide) rfl (quiet_of_events_zero rfl)
  | unsegmented =>
    refine State.tracks_of_quiet (by decide) (State.noteHeaderByte_ctx _ _ _)
      (quiet_of_eventsAre (es := [.complete]) (fun e => ?_) fun tm => by cases tm <;> decide)
    rw [State.parseUnsegmented_events]
    exact s.eventsAre_begin.raise .complete e
  | ignored g => exact State.tracks_of_quiet (by decide) (State.noteSegment_ctx _ _) (quiet_of_events_zero (State.noteSegment_events _ _))
  | pending _ hj => exact hj.tracks.withSegment _
  | delivered _ hj _ => exact (hj.tracks.withSegment _).deliver _ _
  | incIgnored hidle => intro tm; cases tm <;> simp [Timer.running, Timer.expiry, hidle]
  | incExpired => exact s.tracks_incExpired
  | ackIgnored hidle => intro tm; cases tm <;> simp [Timer.running, Timer.expiry, hidle]
  | ackExpired => exact s.tracks_ackExpired
  | rxReset => exact s.tracks_rxReset
  | backMatch =>
    refine State.tracks_of_quiet (by decide) (State.raiseIf_ctx _ _ _) (quiet_of_eventsAre (s.eventsAre_matched.raiseIf _ .szMatch) ?_)
    intro tm
    split <;> cases tm <;> decide
  | _ => exact State.tracks_of_quiet (by decide) rfl (quiet_of_events_zero rfl)

/-- A service that agrees with the engine before a command agrees with it after, once the command's requests were served. -/
theorem TimerService.agrees_serve {ts : TimerService} {s t : State} {i : Instr} (hagrees : ts.agrees s) (hrun : exec i s = .next t)
    (now : Nat) : ((ts.firedBy i).serve now t).agrees t := by
  intro tm
  rw [TimerService.deadline_serve_isSome, TimerService.deadline_firedBy, (State.ends_of_exec hrun).tracks tm, ← hagrees tm]
  by_cases hi : i = tm.expiry <;> simp [hi]

/-! A firing. -/

/-- The expiry command of a running timer succeeds. -/
theorem exists_exec_expiry_of_running (s : State) (tm : Timer) (hrun : s.ctx.flag tm.running = true) :
    ∃ t, exec tm.expiry s = .next t ∧ t.status = 0x00 := by
  cases tm with
  | inc => exact ⟨_, exec_tmrIncExp_of_running s hrun, rfl⟩
  | ack => exact ⟨_, (exec_tmrAckExp s).trans (if_neg fun hidle => Bool.false_ne_true (hidle.symm.trans hrun)), rfl⟩

/-- The step after a command was issued runs it on the state it was issued in. -/
theorem step_issue (s : State) (i : Instr) : step (s.issue (encode i)) = exec i s := step_command rfl (decode_encode i)

/-- Settles O56: every way a command ends keeps RFLAGS and EVENTS in step; a firing is the expiry command of a timer that is running. -/
theorem timerRequestsTrackRflags : Obligations.TimerRequestsTrackRflags := by
  refine ⟨fun i s t ts now hagrees hrun => TimerService.agrees_serve hagrees hrun now, fun tm s ts now d hagrees hd => ?fires,
    fun s ts now => ⟨rfl, rfl⟩⟩
  split
  · rename_i hdue
    have hrunning : s.ctx.flag tm.running = true := by rw [← hagrees tm, hd, Option.isSome_some]
    obtain ⟨t, hrun, hstatus⟩ := exists_exec_expiry_of_running s tm hrunning
    refine ⟨s.issue (encode tm.expiry), t,
      (TimerService.fire_eq_some _ _ _ _ _).mpr ⟨(TimerService.due_iff _ _ _).mpr ⟨d, hd, hdue⟩, rfl⟩,
      (step_issue s _).trans hrun, hrun, hstatus, by rw [TimerService.deadline_clear, if_pos rfl], ?_⟩
    rw [← TimerService.firedBy_expiry]
    exact TimerService.agrees_serve hagrees hrun now
  · rename_i hearly
    refine if_neg fun hdue => hearly ?_
    obtain ⟨d', hd', hle⟩ := (TimerService.due_iff _ _ _).mp hdue
    rwa [← Option.some.inj (hd'.symm.trans hd)]

end Sys2Proof.Machine
end

