-- ==== Sys2Proof/Proofs/ReceiveFrames.lean ====
section
/-! Frames of the receive path (44_reassembly.md R196, R198, R201, R203): what each step that takes a segment leaves unchanged. -/

namespace Sys2Proof.Machine

/-! Frames that allow the hidden store to change. -/

theorem State.frame_refl (s : State) : s.Frame s [] 0 0 := State.frame_of_regBytes (fun _ _ _ _ _ => rfl) ⟨rfl, rfl, rfl, rfl⟩

theorem State.Frame.outer {s t : State} {regs : List Reg} {lo n : Nat} (h : s.Frame t regs lo n) : s.OuterFrame t regs lo n :=
  ⟨h.regs, h.bytes, h.port⟩

/-- An update that writes registers alone, followed by any other. -/
theorem State.OuterFrame.trans {s t u : State} {regs regs' : List Reg} {lo n : Nat} (h : s.OuterFrame t regs 0 0)
    (h' : t.OuterFrame u regs' lo n) : s.OuterFrame u (regs ++ regs') lo n where
  regs r hr hs he hb := by
    have hregs : r ∉ regs := fun hmem => hr (List.mem_append_left _ hmem)
    have hregs' : r ∉ regs' := fun hmem => hr (List.mem_append_right _ hmem)
    exact (h'.regs r hregs' hs he hb).trans (h.regs r hregs hs he hb)
  bytes a ha := (h'.bytes a ha).trans (h.bytes a (.inr (Nat.zero_le _)))
  port := h'.port.trans h.port

theorem State.OuterFrame.mono {s t : State} {regs regs' : List Reg} {lo n : Nat} (h : s.OuterFrame t regs lo n) (hsub : regs ⊆ regs') :
    s.OuterFrame t regs' lo n where
  regs r hr hs he hb := h.regs r (fun hmem => hr (hsub hmem)) hs he hb
  bytes := h.bytes
  port := h.port

/-! The steps that take a segment. -/

theorem State.frame_startAckTimer (s : State) : s.Frame s.startAckTimer [.rflags, .acktmr] 0 0 := by
  refine State.frame_of_regBytes (fun r hr _ _ _ => ?_) ⟨rfl, rfl, rfl, rfl⟩
  cases r <;> simp_all [State.regBytes]

theorem State.frame_start (s : State) (t : Seq) (z : BitVec 13) :
    s.Frame (s.setCtx (s.ctx.start t z)) [.lastseqauth, .lsav, .rseqzero, .blockack, .segvalid, .rflags] 0 0 := by
  refine State.frame_of_regBytes (fun r hr _ _ _ => ?_) ⟨rfl, rfl, rfl, rfl⟩
  cases r <;> simp_all [State.regBytes]

theorem State.frame_newSeqAuth (s : State) (t : Seq) (z : BitVec 13) :
    s.Frame (s.newSeqAuth t z) [.lastseqauth, .lsav, .rseqzero, .blockack, .segvalid, .rflags, .acktmr] 0 0 := by
  have hstart := (s.frame_start t z).trans (State.frame_raise _ .incStart)
  unfold State.newSeqAuth
  dsimp only
  split
  · exact (hstart.trans (State.frame_startAckTimer _)).mono (by decide)
  split
  · exact (hstart.trans (State.frame_cancelAckTimer _)).mono (by decide)
  · exact hstart.mono (by decide)

theorem State.frame_sameSeqAuth (s : State) : s.Frame s.sameSeqAuth [.rflags, .acktmr] 0 0 := by
  unfold State.sameSeqAuth
  dsimp only
  split
  · exact (s.frame_raise .incStart).trans (State.frame_startAckTimer _)
  · exact (s.frame_raise .incStart).mono (by decide)

/-- Storing a segment writes the hidden store, and its bit in the two masks. -/
theorem State.outerFrame_withSegment (s : State) (g : Segment) : s.OuterFrame (s.withSegment g) [.blockack, .segvalid] 0 0 where
  regs r hr _ _ _ := by cases r <;> simp_all [State.regBytes, State.withSegment]
  bytes _ _ := rfl
  port := rfl

theorem State.frame_sendAckNow (s : State) : s.Frame s.sendAckNow [.ackbuf, .rflags] 0 0 := by
  refine State.frame_of_regBytes (fun r hr _ _ _ => ?_) ⟨rfl, rfl, rfl, rfl⟩
  cases r <;> simp_all [State.regBytes]

theorem State.frame_deliver (s : State) (t : Seq) (segN : BitVec 5) :
    s.Frame (s.deliver t segN) [.ulen, .tseq, .rflags, .ackbuf, .segvalid] 0x300 (s.ctx.assembled segN).length := by
  have hput := (s.frame_refl.putUbuf (s.ctx.assembled segN)).trans (State.frame_setTseq _ t)
  have hidle := (hput.trans (State.frame_setFlag _ .incRun false)).trans (State.frame_raise _ .incCancel)
  unfold State.deliver
  dsimp only
  split
  · exact ((((hidle.trans (State.frame_sendAckNow _)).trans (State.frame_setSegvalid _ 0)).trans
      (State.frame_raise _ .complete)).finish .ok).mono (by decide)
  · exact (((hidle.trans (State.frame_setSegvalid _ 0)).trans (State.frame_raise _ .complete)).finish .ok).mono (by decide)

/-- The registers the two branches that take a segment write, besides its bit in the masks. -/
theorem State.Joins.frame {s j : State} {t : Seq} {g : Segment} (h : s.Joins t g j) : s.Frame j segmentWrites 0 0 := by
  have hnoted := s.frame_begin.trans (s.begin.frame_noteSegment g)
  cases h with
  | new => exact (hnoted.trans (State.frame_newSeqAuth _ t g.seqZero)).mono (by decide)
  | same => exact (hnoted.trans (State.frame_sameSeqAuth _)).mono (by decide)

theorem State.Joins.outerFrame_withSegment {s j : State} {t : Seq} {g : Segment} (h : s.Joins t g j) :
    s.OuterFrame (j.withSegment g) segmentWrites 0 0 :=
  (h.frame.outer.trans (j.outerFrame_withSegment g)).mono (by decide)

/-- A segment that completes its message: UBUF and the registers of a delivery are written too. -/
theorem State.Joins.outerFrame_deliver {s j : State} {t : Seq} {g : Segment} (h : s.Joins t g j) :
    s.OuterFrame ((j.withSegment g).deliver t g.segN) (segmentWrites ++ [.ulen, .tseq, .ackbuf]) 0x300
      ((j.withSegment g).ctx.assembled g.segN).length :=
  (h.outerFrame_withSegment.trans ((j.withSegment g).frame_deliver t g.segN).outer).mono (by decide)

/-! What a command leaves unchanged. -/

theorem status_mem_writes (i : Instr) : Reg.status ∈ i.writes := by cases i <;> decide

theorem events_mem_writes (i : Instr) : Reg.events ∈ i.writes := by cases i <;> decide

/-- A command other than LT_PARSE leaves the hidden store and every register that its rule does not list. -/
theorem State.Ends.frame {s t : State} {i : Instr} (h : s.Ends i t) :
    i ≠ .ltParse → ∃ regs lo n, s.Frame t regs lo n ∧ regs ⊆ i.writes := by
  cases h with
  | failed c _ _ => exact fun _ => ⟨_, _, _, s.frame_begin.finish c, List.nil_subset _⟩
  | nonce n hi => exact fun _ => ⟨_, _, _, (s.frame_begin.setNonce n).finish .ok, by revert i; decide⟩
  | ccmEnc bs _ => exact fun _ => ⟨_, _, _, (s.frame_begin.putUbuf bs).finish .ok, by decide⟩
  | ccmDec bs _ => exact fun _ => ⟨_, _, _, (s.frame_begin.putAbuf bs).finish .ok, by decide⟩
  | utEnc n bs _ => exact fun _ => ⟨_, _, _, ((s.frame_begin.setNonce n).putUbuf bs).finish .ok, by decide⟩
  | utDec n bs _ => exact fun _ => ⟨_, _, _, ((s.frame_begin.setNonce n).putAbuf bs).finish .ok, by decide⟩
  | utRefused n => exact fun _ => ⟨_, _, _, (s.frame_begin.setNonce n).finish .errAuth, by decide⟩
  | pecbGen p => exact fun _ => ⟨_, _, _, (s.frame_begin.trans (State.frame_setPecb _ p)).finish .ok, by decide⟩
  | hdrObf h => exact fun _ => ⟨_, _, _, (s.frame_begin.putNbufHeader h).finish .ok, by decide⟩
  | hdrDeobf h => exact fun _ => ⟨_, _, _, (s.frame_begin.trans (s.begin.frame_setHeader h)).finish .ok, by decide⟩
  | frameEnc hi n p bs _ =>
    exact fun _ => ⟨_, _, _, (((s.frame_begin.setNonce n).trans (State.frame_setPecb _ p)).putNbuf bs).finish .ok, by revert i; decide⟩
  | badPayload hi p => exact fun _ => ⟨_, _, _, (s.frame_begin.trans (State.frame_setPecb _ p)).finish .errLen, by revert i; decide⟩
  | frameRefused hi layout => exact fun _ => ⟨_, _, _, (s.frame_cipherReady layout).finish .errAuth, by revert i; decide⟩
  | frameOpened hi layout plain _ =>
    exact fun _ => ⟨_, _, _, (((s.frame_cipherReady layout).trans (State.frame_setDecodedPar _ s.candidate plain)).putLbuf _).finish .ok,
      by revert i; decide⟩
  | ltFrame pdu txseg _ _ => exact fun _ => ⟨_, _, _, ((s.frame_begin.putLbuf pdu).setTxseg txseg).finish .ok, by decide⟩
  | unsegmented | ignored | pending | delivered => exact absurd rfl
  | incIgnored | ackIgnored => exact fun _ => ⟨_, _, _, s.frame_begin.finish .ignored, by decide⟩
  | incExpired =>
    have habandon := s.frame_begin.trans s.begin.frame_abandonMessage
    split
    · exact fun _ => ⟨_, _, _, (habandon.trans (State.frame_cancelAckTimer _)).finish .ok, by decide⟩
    · exact fun _ => ⟨_, _, _, habandon.finish .ok, by decide⟩
  | ackExpired => exact fun _ => ⟨_, _, _, (s.frame_begin.trans s.begin.frame_sendDueAck).finish .ok, by decide⟩
  | rxReset =>
    exact fun _ => ⟨_, _, _, ((s.frame_begin.trans s.begin.frame_cancelTimers).trans (State.frame_cleared _)).finish .ok, by decide⟩
  | backMatch => exact fun _ => ⟨_, _, _, (s.frame_matched.trans (State.frame_raiseIf _ _ _)).finish .ok, by decide⟩

/-- LT_PARSE leaves every register that its rule does not list. -/
theorem State.Ends.outerFrame_ltParse {s t : State} (h : s.Ends .ltParse t) :
    ∃ regs lo n, s.OuterFrame t regs lo n ∧ regs ⊆ Instr.ltParse.writes := by
  cases h with
  | failed c _ _ => exact ⟨_, _, _, (s.frame_begin.finish c).outer, List.nil_subset _⟩
  | unsegmented => exact ⟨_, _, _, s.frame_begin_parseUnsegmented.outer, by decide⟩
  | ignored g => exact ⟨_, _, _, ((s.frame_begin.trans (s.begin.frame_noteSegment g)).finish .ignored).outer, by decide⟩
  | pending _ hj =>
    exact ⟨_, _, _, hj.outerFrame_withSegment.trans (((State.frame_refl _).finish .pending).outer), by decide⟩
  | delivered _ hj _ => exact ⟨_, _, _, hj.outerFrame_deliver, by decide⟩
  | nonce _ hi | frameEnc hi | badPayload hi | frameRefused hi | frameOpened hi => exact absurd hi (by decide)

theorem State.Ends.outerFrame {s t : State} {i : Instr} (h : s.Ends i t) : ∃ regs lo n, s.OuterFrame t regs lo n ∧ regs ⊆ i.writes := by
  by_cases hi : i = .ltParse
  · subst hi
    exact h.outerFrame_ltParse
  · obtain ⟨regs, lo, n, hframe, hsub⟩ := h.frame hi
    exact ⟨regs, lo, n, hframe.outer, hsub⟩

/-- A register that is no buffer and that the command's rule does not list keeps its bytes. -/
theorem State.Ends.regBytes {s t : State} {i : Instr} (h : s.Ends i t) {r : Reg} (hr : r ∉ i.writes) (hb : r.isBuffer = false) :
    t.regBytes r = s.regBytes r := by
  obtain ⟨regs, lo, n, hframe, hsub⟩ := h.outerFrame
  exact hframe.regs r (fun hmem => hr (hsub hmem)) (fun heq => hr (heq ▸ status_mem_writes i)) (fun heq => hr (heq ▸ events_mem_writes i)) hb

/-! Memory. -/

/-- A memory is another one, or differs from it by bytes written into one buffer that a list names, of which UBUF is counted with a
capacity of its own: a message is assembled there from slots of any length. -/
def Memory.WrittenIn (m m' : Memory) (regs : List Reg) (cap : Nat) : Prop :=
  m' = m ∨ ∃ b ∈ regs, b.isBuffer = true ∧ ∃ lo bs, b.base ≤ lo ∧
    lo + bs.length ≤ b.base + (if b = .ubuf then cap else b.size) ∧ m' = m.writeRange lo bs

theorem Memory.writtenIn_ubuf (m : Memory) {bs : List Byte} {cap : Nat} (hlen : bs.length ≤ cap) {regs : List Reg} (h : Reg.ubuf ∈ regs) :
    m.WrittenIn (m.writeRange ubufBase bs) regs cap := .inr ⟨.ubuf, h, rfl, _, bs, le_rfl, Nat.add_le_add_left hlen _, rfl⟩

@[simp] theorem State.raiseIf_mem (s : State) (p : Prop) [Decidable p] (e : Event) : (s.raiseIf p e).mem = s.mem := by
  unfold State.raiseIf; split <;> rfl

theorem State.cancelTimers_mem (s : State) : s.cancelTimers.mem = s.mem := by simp [State.cancelTimers]

theorem State.parseUnsegmented_mem (s : State) : s.parseUnsegmented.mem = s.mem.writeRange ubufBase (s.lbuf.drop 1) := by
  simp [State.parseUnsegmented]

theorem State.Joins.mem {s j : State} {t : Seq} {g : Segment} (h : s.Joins t g j) : j.mem = s.mem := by
  cases h <;> simp

/-- Every command writes at most one buffer, and one that its rule lists, inside it if a completed message fits. -/
theorem State.Ends.mem {s t : State} {i : Instr} (h : s.Ends i t) {cap : Nat} (hcap : 384 ≤ cap)
    (hfits : ∀ {t : Seq} {g : Segment} {j : State}, s.Receives g t → s.Joins t g j → (j.withSegment g).ctx.isComplete g.segN = true →
      ((j.withSegment g).ctx.assembled g.segN).length ≤ cap) : s.mem.WrittenIn t.mem i.writes cap := by
  cases h with
  | ccmEnc bs hlen | utEnc _ bs hlen => exact s.mem.writtenIn_ubuf (hlen.trans hcap) (List.mem_of_elem_eq_true rfl)
  | ccmDec bs hlen | utDec _ bs hlen => exact .inr ⟨.abuf, by decide, rfl, abufBase, bs, le_rfl, Nat.add_le_add_left hlen _, rfl⟩
  | hdrObf h =>
    exact .inr ⟨.nbuf, by decide, rfl, nbufBase + 2, beBytes 6 h, by decide, by rw [beBytes_length, if_neg (by decide)]; decide, rfl⟩
  | frameEnc hi _ _ bs hlen => exact .inr ⟨.nbuf, by revert i; decide, rfl, nbufBase, bs, le_rfl, Nat.add_le_add_left hlen _, rfl⟩
  | frameOpened hi layout plain hlen =>
    refine .inr ⟨.lbuf, by revert i; decide, rfl, lbufBase, plain.drop 2, le_rfl, Nat.add_le_add_left ?_ _, rfl⟩
    rw [List.length_drop]
    exact Nat.sub_le_sub_right hlen 2
  | ltFrame pdu _ hlen => exact .inr ⟨.lbuf, by decide, rfl, lbufBase, pdu, le_rfl, Nat.add_le_add_left hlen _, rfl⟩
  | unsegmented hlen =>
    have hshort : (s.lbuf.drop 1).length ≤ cap := by rw [List.length_drop, State.lbuf_length]; omega
    rw [State.parseUnsegmented_mem]
    exact s.mem.writtenIn_ubuf hshort (List.mem_of_elem_eq_true rfl)
  | ignored g => exact .inl (s.begin.noteSegment_mem g)
  | pending _ hj => exact .inl hj.mem
  | delivered hr hj hc =>
    rw [State.deliver_mem, State.withSegment_mem, hj.mem]
    exact s.mem.writtenIn_ubuf (hfits hr hj hc) (List.mem_of_elem_eq_true rfl)
  | incExpired => exact .inl (by split <;> rfl)
  | rxReset => exact .inl s.begin.cancelTimers_mem
  | backMatch => exact .inl (State.raiseIf_mem _ _ _)
  | _ => exact .inl rfl

theorem Reg.isBuffer_iff (r : Reg) : r.isBuffer = true ↔ r = .lbuf ∨ r = .nbuf ∨ r = .abuf ∨ r = .ubuf := by
  simp [Reg.isBuffer, or_assoc]

/-- UBUF is the highest of the buffers (R60). -/
theorem Reg.end_le_ubuf {r : Reg} (hb : r.isBuffer = true) (hne : r ≠ .ubuf) : r.base + r.size ≤ Reg.ubuf.base := by
  rcases r.isBuffer_iff.mp hb with rfl | rfl | rfl | rfl
  · decide
  · decide
  · decide
  · exact absurd rfl hne

/-- A buffer that is not listed holds what it held, however far UBUF was filled. -/
theorem Memory.WrittenIn.read {m m' : Memory} {regs : List Reg} {cap : Nat} (h : m.WrittenIn m' regs cap) {r : Reg} (hr : r ∉ regs)
    (hb : r.isBuffer = true) {a : Nat} (hlo : r.base ≤ a) (hhi : a < r.base + r.size) : m'.read a = m.read a := by
  rcases h with rfl | ⟨b, hmem, -, lo, bs, hbase, hlen, rfl⟩
  · rfl
  · have hne : r ≠ b := fun heq => hr (heq ▸ hmem)
    refine Memory.read_writeRange_outside _ _ _ _ ?_
    split at hlen
    · rename_i hubuf
      subst hubuf
      have htop := Reg.end_le_ubuf hb hne
      omega
    · rcases (r.disjoint b).resolve_left hne with h | h <;> omega

/-- The bytes of a buffer are those of memory at its addresses. -/
theorem State.regBytes_buffer (s : State) {r : Reg} (hb : r.isBuffer = true) : s.regBytes r = s.mem.readRange r.base r.size := by
  rcases r.isBuffer_iff.mp hb with rfl | rfl | rfl | rfl <;> rfl

/-! The message assembled. -/

/-- The message assembled from slots of bounded length. -/
theorem RxContext.assembled_length_le (c : RxContext) (segN : BitVec 5) (k : Nat) (h : ∀ i ≤ segN.toNat, (c.seglen.getD i 0).toNat ≤ k) :
    (c.assembled segN).length ≤ 32 * k := by
  have hn := segN.isLt
  have hslots : ∀ n ≤ segN.toNat + 1, ((List.range n).flatMap c.slot).length ≤ n * k := by
    intro n
    induction n with
    | zero => simp
    | succ n ih =>
      intro hle
      have hslot : (c.slot n).length ≤ k := by rw [RxContext.slot, Memory.readRange_length]; exact h n (by omega)
      have hrest := ih (by omega)
      rw [List.range_succ, List.flatMap_append, List.length_append, List.flatMap_singleton, Nat.succ_mul]
      omega
  exact (hslots _ le_rfl).trans (Nat.mul_le_mul_right k (by omega))

end Sys2Proof.Machine
end

