-- ==== Sys2Proof/Proofs/CommandFrames.lean ====
section
/-! What every command leaves unchanged (the "Writes" lists of the command rules; 60_exceptions.md R262), and that none reads STATUS or EVENTS
(30_encoding.md R98). -/

namespace Sys2Proof.Machine

/-! The Writes lists. -/

theorem State.regBytes_buffer_congr {s t : State} {r : Reg} (hb : r.isBuffer = true)
    (h : ∀ a, r.base ≤ a → a < r.base + r.size → t.mem.read a = s.mem.read a) : t.regBytes r = s.regBytes r := by
  rw [t.regBytes_buffer hb, s.regBytes_buffer hb]
  refine List.map_congr_left fun j hj => h _ (Nat.le_add_right _ _) ?_
  exact Nat.add_lt_add_left (List.mem_range.mp hj) _

/-- A word of `8 n` bits is the same where its bytes are. -/
theorem beBytes_inj {w n : Nat} {x y : BitVec w} (hw : w = 8 * n) (h : beBytes n x = beBytes n y) : x = y := by
  rw [← fromBE_beBytes n x hw, h, fromBE_beBytes n y hw]

theorem keys_not_mem_writes (i : Instr) : Reg.kenc ∉ i.writes ∧ Reg.kpriv ∉ i.writes ∧ Reg.ktrans ∉ i.writes := by
  cases i <;> decide

/-- Settles O50: registers are kept by the command's frame, buffers by where it writes memory, and keys are registers in no Writes list. -/
theorem commandsWriteOnlyWhatTheirRulesList : Obligations.CommandsWriteOnlyWhatTheirRulesList := by
  intro i s t hrun
  have hends := State.ends_of_exec hrun
  have hregs (r : Reg) (hr : r ∉ i.writes) : t.regBytes r = s.regBytes r := by
    cases hb : r.isBuffer with
    | false => exact hends.regBytes hr hb
    | true =>
      have hwritten := hends.mem (cap := 480) (by decide) fun {_ g j} _ _ _ =>
        (j.withSegment g).ctx.assembled_length_le g.segN 15 fun _ _ => Nat.le_of_lt_succ (BitVec.isLt _)
      exact State.regBytes_buffer_congr hb fun a hlo hhi => hwritten.read hr hb hlo hhi
  obtain ⟨hkenc, hkpriv, hktrans⟩ := keys_not_mem_writes i
  have hkeys : t.keys = s.keys := by
    have hkenc' : t.keys.kenc = s.keys.kenc := beBytes_inj rfl (hregs .kenc hkenc)
    have hkpriv' : t.keys.kpriv = s.keys.kpriv := beBytes_inj rfl (hregs .kpriv hkpriv)
    have hktrans' : t.keys.ktrans = s.keys.ktrans := beBytes_inj rfl (hregs .ktrans hktrans)
    calc t.keys = ⟨t.keys.kenc, t.keys.kpriv, t.keys.ktrans⟩ := rfl
      _ = ⟨s.keys.kenc, s.keys.kpriv, s.keys.ktrans⟩ := by rw [hkenc', hkpriv', hktrans']
      _ = s.keys := rfl
  refine ⟨hregs, hkeys, ?port, fun hi => ?hidden⟩
  case port =>
    obtain ⟨_, _, _, hframe, -⟩ := hends.outerFrame
    exact hframe.port
  case hidden =>
    obtain ⟨_, _, _, hframe, -⟩ := hends.frame hi
    exact hframe.hidden

/-! Typed failures. -/

/-- Settles O52: bit 7 of STATUS is set in four of the ways a command ends, and each of them has written at most PECB and NONCE. -/
theorem typedFailureLeavesOnlyScratch : Obligations.TypedFailureLeavesOnlyScratch := by
  intro i s t hrun hbit
  cases State.ends_of_exec hrun with
  | failed c _ _ => exact ⟨rfl, rfl, rfl, .inl (s.frame_begin.finish c)⟩
  | utRefused n => exact ⟨rfl, rfl, rfl, .inr (.inl ⟨rfl, rfl, (s.frame_begin.setNonce n).finish .errAuth⟩)⟩
  | badPayload hi p =>
    exact ⟨rfl, rfl, rfl, .inr (.inr ⟨by simpa using hi, .inl ⟨rfl,
      (s.frame_begin.trans (State.frame_setPecb _ p)).finish .errLen⟩⟩)⟩
  | frameRefused hi layout =>
    exact ⟨rfl, rfl, rfl,
      .inr (.inr ⟨by simpa using hi, .inr ⟨rfl, ((s.frame_cipherReady layout).finish .errAuth).mono (by decide)⟩⟩)⟩
  | ignored | incIgnored | ackIgnored => exact absurd hbit (show ¬ StatusCode.ignored.toByte.getLsbD 7 = true by decide)
  | pending => exact absurd hbit (show ¬ StatusCode.pending.toByte.getLsbD 7 = true by decide)
  | delivered =>
    rw [State.deliver_status] at hbit
    exact absurd hbit (by decide)
  | _ => exact absurd hbit (show ¬ StatusCode.ok.toByte.getLsbD 7 = true by decide)

/-! STATUS and EVENTS are not read. -/

/-- The state with another STATUS. -/
def State.withStatus (s : State) (st : Byte) : State := { s with status := st }

theorem State.finish_withStatus (s : State) (st : Byte) (c : StatusCode) : (s.withStatus st).finish c = s.finish c := rfl

theorem State.noteHeaderByte_withStatus (s : State) (st : Byte) (h0 : BitVec 7) (z : Bool) :
    (s.withStatus st).noteHeaderByte h0 z = (s.noteHeaderByte h0 z).withStatus st := by
  simp only [State.noteHeaderByte, apply_ite (State.withStatus · st)]
  rfl

theorem State.noteSegment_withStatus (s : State) (st : Byte) (g : Segment) :
    (s.withStatus st).noteSegment g = (s.noteSegment g).withStatus st := by
  rw [State.noteSegment, State.noteHeaderByte_withStatus]
  rfl

theorem State.parseUnsegmented_withStatus (s : State) (st : Byte) : (s.withStatus st).parseUnsegmented = s.parseUnsegmented := by
  rw [State.parseUnsegmented, State.noteHeaderByte_withStatus]
  rfl

theorem State.newSeqAuth_withStatus (s : State) (st : Byte) (t : Seq) (z : BitVec 13) :
    (s.withStatus st).newSeqAuth t z = (s.newSeqAuth t z).withStatus st := by
  simp only [State.newSeqAuth, apply_ite (State.withStatus · st)]
  rfl

theorem State.sameSeqAuth_withStatus (s : State) (st : Byte) : (s.withStatus st).sameSeqAuth = s.sameSeqAuth.withStatus st := by
  simp only [State.sameSeqAuth, apply_ite (State.withStatus · st)]
  rfl

theorem State.sendAckIf_withStatus (s : State) (st : Byte) (p : Prop) [Decidable p] :
    (if p then (s.withStatus st).sendAckNow else s.withStatus st) = (if p then s.sendAckNow else s).withStatus st := by
  simp only [apply_ite (State.withStatus · st)]
  rfl

/-- A delivery up to the block-ack it may send (R203). -/
def State.deliverUpToAck (s : State) (t : Seq) (segN : BitVec 5) : State :=
  let s1 := s.putUbuf (s.ctx.assembled segN)
  let s2 := s1.setPar { s1.par with tseq := t }
  (s2.setCtx (s2.ctx.setFlag .incRun false)).raise .incCancel

/-- The end of a delivery. -/
def State.endDelivery (s : State) : State := ((s.setCtx { s.ctx with segvalid := 0 }).raise .complete).finish .ok

theorem State.deliver_eq (s : State) (t : Seq) (segN : BitVec 5) : s.deliver t segN =
    (if unicast s.par.dst && !(s.deliverUpToAck t segN).ctx.flag .ackSent then (s.deliverUpToAck t segN).sendAckNow
      else s.deliverUpToAck t segN).endDelivery := rfl

theorem State.deliver_withStatus (s : State) (st : Byte) (t : Seq) (segN : BitVec 5) : (s.withStatus st).deliver t segN = s.deliver t segN := by
  have hsame : (s.withStatus st).deliverUpToAck t segN = (s.deliverUpToAck t segN).withStatus st := rfl
  have hack := (s.deliverUpToAck t segN).sendAckIf_withStatus st
    ((unicast s.par.dst && !(s.deliverUpToAck t segN).ctx.flag .ackSent) = true)
  rw [State.deliver_eq, State.deliver_eq, hsame]
  exact (congrArg State.endDelivery hack :)

theorem State.storeSegment_withStatus (s : State) (st : Byte) (t : Seq) (g : Segment) :
    (s.withStatus st).storeSegment t g = s.storeSegment t g := by
  cases hc : (s.withSegment g).ctx.isComplete g.segN with
  | false => exact ((s.withStatus st).storeSegment_of_incomplete t g hc).trans (s.storeSegment_of_incomplete t g hc).symm
  | true =>
    rw [(s.withStatus st).storeSegment_of_complete t g hc, s.storeSegment_of_complete t g hc]
    exact (s.withSegment g).deliver_withStatus st t g.segN

theorem State.acceptSegment_withStatus (s : State) (st : Byte) (t : Seq) (g : Segment) :
    (s.withStatus st).acceptSegment t g = s.acceptSegment t g := by
  simp only [State.acceptSegment, State.noteSegment_withStatus, State.newSeqAuth_withStatus, State.sameSeqAuth_withStatus,
    State.storeSegment_withStatus, State.finish_withStatus]
  rfl

theorem State.parseSegment_withStatus (s : State) (st : Byte) : (s.withStatus st).parseSegment = s.parseSegment := by
  simp only [State.parseSegment, State.acceptSegment_withStatus]
  rfl

theorem execLtParse_withStatus (s : State) (st : Byte) : execLtParse (s.withStatus st) = execLtParse s := by
  have hbegin : (s.withStatus st).begin = s.begin.withStatus st := rfl
  simp only [execLtParse, hbegin, State.parseUnsegmented_withStatus, State.parseSegment_withStatus]
  rfl

theorem State.raiseIf_withStatus (s : State) (st : Byte) (p : Prop) [Decidable p] (e : Event) :
    (s.withStatus st).raiseIf p e = (s.raiseIf p e).withStatus st := by
  simp only [State.raiseIf, apply_ite (State.withStatus · st)]
  rfl

theorem State.cancelTimers_withStatus (s : State) (st : Byte) : (s.withStatus st).cancelTimers = s.cancelTimers.withStatus st := by
  simp only [State.cancelTimers, State.raiseIf_withStatus]
  rfl

theorem exec_tmrIncExp_withStatus (s : State) (st : Byte) : exec .tmrIncExp (s.withStatus st) = exec .tmrIncExp s := by
  cases hrun : s.ctx.flag .incRun with
  | false => exact (exec_tmrIncExp_of_idle (s.withStatus st) hrun).trans (exec_tmrIncExp_of_idle s hrun).symm
  | true =>
    have hsame : (s.withStatus st).ctx.flag .ackRun = s.ctx.flag .ackRun := rfl
    rw [exec_tmrIncExp_of_running (s.withStatus st) hrun, exec_tmrIncExp_of_running s hrun, hsame]
    cases s.ctx.flag .ackRun <;> rfl

theorem exec_rxReset_withStatus (s : State) (st : Byte) : exec .rxReset (s.withStatus st) = exec .rxReset s := by
  have hbegin : (s.withStatus st).begin = s.begin.withStatus st := rfl
  rw [exec_rxReset, exec_rxReset, hbegin, State.cancelTimers_withStatus]
  rfl

theorem exec_backMatch_withStatus (s : State) (st : Byte) : exec .backMatch (s.withStatus st) = exec .backMatch s := by
  have hmatched : (s.withStatus st).matched = s.matched.withStatus st := rfl
  rw [exec_backMatch, exec_backMatch, hmatched, State.raiseIf_withStatus]
  rfl

/-- The other commands test no state that they have built. -/
theorem exec_withStatus (i : Instr) (s : State) (st : Byte) : exec i (s.withStatus st) = exec i s := by
  cases i with
  | ltParse => exact execLtParse_withStatus s st
  | tmrIncExp => exact exec_tmrIncExp_withStatus s st
  | rxReset => exact exec_rxReset_withStatus s st
  | backMatch => exact exec_backMatch_withStatus s st
  | _ => rfl

/-- Every command begins by clearing EVENTS. -/
theorem exec_begin (i : Instr) (s : State) : exec i s.begin = exec i s := by cases i <;> rfl

/-- Settles O53: a command clears EVENTS first, and carries STATUS along unread until it writes it. -/
theorem commandsDoNotReadStatusOrEvents : Obligations.CommandsDoNotReadStatusOrEvents := by
  intro i s t st ev hrun
  have hbegin : { s with status := st, events := ev }.begin = s.begin.withStatus st := rfl
  rw [← exec_begin, hbegin, exec_withStatus, exec_begin, hrun]

end Sys2Proof.Machine
end

