-- ==== Sys2Proof/Proofs/ContextInvariant.lean ====
section
/-! The reassembly context along every command and every step: its invariant (10_state.md R63) under the host's duty (70_reset_and_hazards.md
R303), and the spec's inferences about LASTSEQAUTH and about groups (44_reassembly.md R213). -/

namespace Sys2Proof.Machine

/-! The context in which a segment is stored. -/

@[simp] theorem RxContext.store_lastValid (c : RxContext) (o : BitVec 5) (p : List Byte) : (c.store o p).lastValid = c.lastValid := rfl

theorem State.Joins.lastValid {s j : State} {t : Seq} {g : Segment} (h : s.Joins t g j) : j.ctx.lastValid = true := by
  cases h with
  | new => rw [RxContext.lastValid, State.newSeqAuth_ctx_lsav, setBit_same _ _ _ (by decide)]
  | same hvalid => simpa [RxContext.lastValid] using hvalid

theorem State.Joins.lastseqauth {s j : State} {t : Seq} {g : Segment} (h : s.Joins t g j) : j.ctx.lastseqauth = t := by
  cases h with
  | new => simp
  | same _ hlast => simpa using hlast

theorem State.Joins.flag_incRun {s j : State} {t : Seq} {g : Segment} (h : s.Joins t g j) : j.ctx.flag .incRun = true := by
  cases h with
  | new => simp
  | same _ _ hrun => simpa using hrun

theorem State.parseUnsegmented_ctx (s : State) : s.parseUnsegmented.ctx = s.ctx := by simp [State.parseUnsegmented]

theorem State.cancelTimers_ctx (s : State) : s.cancelTimers.ctx = s.ctx := by simp [State.cancelTimers]

/-- The two masks agree: both empty for a new SeqAuth, and as the invariant has them for a message in progress. -/
theorem State.Joins.segvalid_eq_blockack {s j : State} {t : Seq} {g : Segment} (h : s.Joins t g j) (hc : s.ctx.Consistent) :
    j.ctx.segvalid = j.ctx.blockack := by
  cases h with
  | new => simp
  | same _ _ hrun =>
    obtain ⟨-, hmasks, -⟩ := hc.collecting hrun
    simpa using hmasks

/-! Contexts that meet the invariant. -/

/-- An idle context: nothing stored, and no acknowledgement due without a record. -/
theorem RxContext.consistent_of_idle {c : RxContext} (hrun : c.flag .incRun = false) (hseg : c.segvalid = 0)
    (hack : c.flag .ackSent = true ∨ c.flag .ackRun = true → c.lastValid = true) : c.Consistent where
  storedIsAcked := by simp [hseg]
  collecting h := absurd (hrun.symm.trans h) (by decide)
  idle _ := hseg
  acking := hack

/-- A context that collects a message: its masks agree and hold the bit of the segment just stored. -/
theorem RxContext.consistent_store {c : RxContext} (o : BitVec 5) (p : List Byte) (hvalid : c.lastValid = true)
    (hrun : c.flag .incRun = true) (hmasks : c.segvalid = c.blockack) : (c.store o p).Consistent where
  storedIsAcked := by rw [RxContext.store_segvalid, RxContext.store_blockack, hmasks, BitVec.and_not_self]
  collecting _ := by
    refine ⟨hvalid, by rw [RxContext.store_segvalid, RxContext.store_blockack, hmasks], fun hzero => ?_⟩
    have hbit : (c.store o p).segvalid.getLsbD o.toNat = true := by
      rw [RxContext.store_segvalid, BitVec.getLsbD_or, segBit_getLsbD, decide_eq_true rfl, Bool.or_true]
    rw [hzero] at hbit
    simp at hbit
  idle h := absurd (hrun.symm.trans h) (by decide)
  acking _ := hvalid

/-- The context after a command meets the invariant if that before it did. -/
theorem State.Ends.consistent {s t : State} {i : Instr} (h : s.Ends i t) (hc : s.ctx.Consistent) : t.ctx.Consistent := by
  cases h with
  | unsegmented => exact s.begin.parseUnsegmented_ctx.symm ▸ hc
  | ignored g => exact (State.noteSegment_ctx _ g).symm ▸ hc
  | pending _ hj => exact RxContext.consistent_store _ _ hj.lastValid hj.flag_incRun (hj.segvalid_eq_blockack hc)
  | delivered _ hj _ =>
    refine RxContext.consistent_of_idle (by rw [State.deliver_flag]) (State.deliver_ctx_segvalid _ _ _) fun _ => ?_
    rw [RxContext.lastValid, State.deliver_ctx_lsav]
    exact hj.lastValid
  | incExpired =>
    split
    · refine RxContext.consistent_of_idle (by simp [State.abandonMessage_flag]) rfl fun hack => hc.acking (.inl ?_)
      simpa [State.abandonMessage_flag] using hack
    · refine RxContext.consistent_of_idle (State.abandonMessage_flag _ _) rfl fun hack => hc.acking ?_
      simpa [State.abandonMessage_flag] using hack
  | ackExpired hrun =>
    exact ⟨hc.storedIsAcked, fun h => hc.collecting ((State.sendDueAck_flag _ _).symm.trans h),
      fun h => hc.idle ((State.sendDueAck_flag _ _).symm.trans h), fun _ => hc.acking (.inr hrun)⟩
  | rxReset =>
    exact RxContext.consistent_of_idle (RxContext.cleared_flag _ _) rfl fun hack => by simp [RxContext.cleared_flag] at hack
  | backMatch =>
    rw [State.finish_ctx, State.raiseIf_ctx]
    exact hc
  | _ => exact hc

/-! Writes of the window. -/

/-- All a write of the window can do. -/
inductive State.WritesTo (s : State) (a : Nat) (v : Byte) : State → Prop
  /-- A reserved or read-only address. -/
  | none : s.WritesTo a v s
  | buffer {r : Reg} {j : Nat} (ha : a = r.base + j) (hj : j < r.size) (hb : r.isBuffer = true) :
      s.WritesTo a v { s with mem := s.mem.write a v }
  | reg {r : Reg} {j : Nat} (ha : a = r.base + j) (hj : j < r.size) (hw : r.access ≠ .readOnly) (hb : r.isBuffer = false) :
      s.WritesTo a v (s.setRegBytes r ((s.regBytes r).set j (v &&& r.mask j)))

theorem State.writesTo (s : State) (a : Nat) (v : Byte) : s.WritesTo a v (s.windowWrite a v) := by
  unfold State.windowWrite
  split
  · exact .none
  · rename_i r j hloc
    obtain ⟨ha, hj⟩ := (locate_eq_some a r j).mp hloc
    split
    · exact .none
    · split
      · exact .buffer ha hj ‹_›
      · exact .reg ha hj ‹_› (by simpa using ‹¬ r.isBuffer = true›)

/-- The two registers of the context that the host writes (R45). -/
theorem State.setRegBytes_ctx (s : State) (r : Reg) (bs : List Byte) : (s.setRegBytes r bs).ctx = s.ctx ∨
    (r = .lastseqauth ∨ r = .lsav) ∧ ∃ q l, (s.setRegBytes r bs).ctx = { s.ctx with lastseqauth := q, lsav := l } := by
  cases r with
  | lastseqauth => exact .inr ⟨.inl rfl, _, _, rfl⟩
  | lsav => exact .inr ⟨.inr rfl, _, _, rfl⟩
  | _ => exact .inl rfl

/-- A write of the window changes the context at the addresses of LASTSEQAUTH and LSAV alone, and nothing else of it. -/
theorem State.WritesTo.ctx {s t : State} {a : Nat} {v : Byte} (h : s.WritesTo a v t) : t.ctx = s.ctx ∨
    (0x020 ≤ a ∧ a ≤ 0x023) ∧ ∃ q l, t.ctx = { s.ctx with lastseqauth := q, lsav := l } := by
  cases h with
  | none => exact .inl rfl
  | buffer => exact .inl rfl
  | @reg r j ha hj =>
    refine (s.setRegBytes_ctx r _).imp id fun ⟨hr, hctx⟩ => ⟨?_, hctx⟩
    rcases hr with rfl | rfl <;> simp only [Reg.base, Reg.size] at ha hj <;> omega

/-- With RFLAGS 0 the record may be replaced: nothing is collected and no acknowledgement is due. -/
theorem RxContext.Consistent.of_rflags_zero {c : RxContext} (hc : c.Consistent) (hzero : c.rflags = 0x00) (q : Seq) (l : Byte) :
    { c with lastseqauth := q, lsav := l }.Consistent := by
  have hflag (f : RFlag) : c.flag f = false := by simp [RxContext.flag, hzero]
  refine RxContext.consistent_of_idle (hflag .incRun) (hc.idle (hflag .incRun)) fun hack => ?_
  exact absurd (hack.imp (hflag .ackSent).symm.trans (hflag .ackRun).symm.trans) (by decide)

/-- After reset nothing is recorded and nothing is collected. -/
theorem State.resetWith_consistent (content : Nat → Byte) (port : HostPort) : (State.resetWith content port).ctx.Consistent :=
  RxContext.consistent_of_idle (BitVec.getLsbD_zero) rfl fun hack =>
    absurd (hack.imp (BitVec.getLsbD_zero (w := 8)).symm.trans (BitVec.getLsbD_zero (w := 8)).symm.trans) (by decide)

/-- Settles O57: a command keeps the invariant whichever way it ends, a write of the window reaches the context only where the duty has
RFLAGS 0, and a reset establishes it. -/
theorem stepKeepsTheContextConsistent : Obligations.StepKeepsTheContextConsistent := by
  intro s t hc hduty hstep
  cases State.stepsTo_of_step hstep with
  | idle => exact hc
  | read => exact hc
  | command _ hrun => exact (State.ends_of_exec hrun).consistent hc
  | illegal => exact hc
  | @write a v rest hp =>
    rcases (s.writesTo a v).ctx with hsame | ⟨⟨hlo, hhi⟩, q, l, hctx⟩
    · exact (hsame.symm ▸ hc : (s.windowWrite a v).ctx.Consistent)
    · exact (hctx.symm ▸ hc.of_rflags_zero (hduty _ _ hp a v rfl hlo hhi) q l : (s.windowWrite a v).ctx.Consistent)
  | reset => exact State.resetWith_consistent _ _

/-! The record (R213 (a)). -/

/-- A command keeps the record, or has stored a segment of a SeqAuth that is not below it. -/
theorem State.Ends.record {s t : State} {i : Instr} (h : s.Ends i t) :
    (t.ctx.lastseqauth = s.ctx.lastseqauth ∧ t.ctx.lastValid = s.ctx.lastValid) ∨
      t.ctx.lastValid = true ∧ (s.ctx.lastValid = true → s.ctx.lastseqauth ≤ t.ctx.lastseqauth) := by
  have hjoined {t : Seq} {g : Segment} {j : State} (hj : s.Joins t g j) (hvalid : s.ctx.lastValid = true) :
      s.ctx.lastseqauth ≤ j.ctx.lastseqauth := by
    rw [hj.lastseqauth]
    cases hj with
    | new hnew => exact BitVec.le_of_lt (hnew.resolve_left (by simp [hvalid]))
    | same _ hlast => exact hlast ▸ BitVec.le_refl _
  cases h with
  | unsegmented =>
    rw [State.parseUnsegmented_ctx]
    exact .inl ⟨rfl, rfl⟩
  | ignored g => exact .inl (by simp)
  | pending _ hj => exact .inr ⟨hj.lastValid, (hjoined hj :)⟩
  | delivered _ hj _ =>
    rw [State.deliver_ctx_lastseqauth, RxContext.lastValid, State.deliver_ctx_lsav]
    exact .inr ⟨hj.lastValid, (hjoined hj :)⟩
  | incExpired => split <;> exact .inl ⟨rfl, rfl⟩
  | rxReset =>
    rw [State.cancelTimers_ctx]
    exact .inl ⟨rfl, rfl⟩
  | backMatch =>
    rw [State.finish_ctx, State.raiseIf_ctx]
    exact .inl ⟨rfl, rfl⟩
  | _ => exact .inl ⟨rfl, rfl⟩

/-- Settles O54: only a segment that joins a message changes the record, and it joins none below it. -/
theorem lastSeqAuthNeverDecreases : Obligations.LastSeqAuthNeverDecreases := by
  intro i s t hrun hvalid
  rcases (State.ends_of_exec hrun).record with ⟨hlast, hkept⟩ | ⟨hkept, hle⟩
  · exact ⟨le_of_eq (congrArg BitVec.toNat hlast.symm), hkept.trans hvalid⟩
  · exact ⟨BitVec.le_def.mp (hle hvalid), hkept⟩

/-! Groups (R213 (f)). -/

/-- What towards a group the state in which a segment is stored holds of acknowledgements: none is armed. -/
theorem State.Joins.toGroup {s j : State} {t : Seq} {g : Segment} (h : s.Joins t g j) (hgroup : unicast s.par.dst = false) :
    Event.sendAck.isIn j.events = false ∧ Event.ackStart.isIn j.events = false ∧ j.ackbuf = s.ackbuf ∧
      j.parsed.acktmr = s.parsed.acktmr ∧ (j.ctx.flag .ackRun = true → s.ctx.flag .ackRun = true) := by
  cases h with
  | new => simp [State.newSeqAuth_isIn, State.newSeqAuth_parsed, hgroup]
  | same => simp [State.sameSeqAuth_isIn, State.sameSeqAuth_parsed, hgroup]

/-- Settles O55: of the ways LT_PARSE ends only those that store a segment could acknowledge, and towards a group neither the branch taken
nor the completion does. -/
theorem noAckTowardsAGroup : Obligations.NoAckTowardsAGroup := by
  intro s t hrun hgroup
  cases State.ends_of_exec hrun with
  | failed c _ _ => exact ⟨Event.isIn_zero _, Event.isIn_zero _, rfl, rfl, id⟩
  | unsegmented =>
    rw [State.parseUnsegmented_events, State.parseUnsegmented_ctx]
    simp [State.parseUnsegmented]
  | ignored g => simp
  | pending _ hj => exact hj.toGroup hgroup
  | delivered _ hj _ =>
    obtain ⟨hsend, hstart, hackbuf, hacktmr, hack⟩ := hj.toGroup hgroup
    have hdst := hj.dst
    simpa [State.deliver_isIn, State.deliver_ackbuf, hdst, hgroup, hsend, hstart, hackbuf, hacktmr] using hack
  | nonce _ hi | frameEnc hi | badPayload hi | frameRefused hi | frameOpened hi => exact absurd hi (by decide)

end Sys2Proof.Machine
end

