-- ==== Sys2Proof/Proofs/Window.lean ====
section
/-! One-byte accesses of the host window (20_memory.md R71 to R77; 10_state.md R23): what each address reads, what a write of it changes and
what it leaves. -/

namespace Sys2Proof.Machine

/-! The address classes of the rules against the register map. -/

/-- An address of the window where no register stands is in R75's list. -/
theorem reservedAddress_of_locate_none (a : Nat) (ha : a < 0x800) (h : locate a = none) : reservedAddress a = true := by
  have hgap : ∀ r ∈ Reg.all, a < r.base ∨ r.base + r.size ≤ a := fun r _ => (locate_eq_none a).mp h r
  simp only [Reg.all, List.forall_mem_cons, Reg.base, Reg.size] at hgap
  rw [reservedAddress_iff]
  omega

/-- R72's and R73's address lists are the access rights of R23, and R73's reserved bits those of the read-write registers. -/
theorem Reg.address_classes (r : Reg) (j : Nat) (hj : j < r.size) :
    writeOnlyAddress (r.base + j) = decide (r.access = .writeOnly) ∧ readOnlyAddress (r.base + j) = decide (r.access = .readOnly) ∧
      (r.access = .readWrite → r.mask j = writableBits (r.base + j)) := by
  have hall : ∀ r ∈ Reg.all, ∀ j < r.size, writeOnlyAddress (r.base + j) = decide (r.access = .writeOnly) ∧
      readOnlyAddress (r.base + j) = decide (r.access = .readOnly) ∧ (r.access = .readWrite → r.mask j = writableBits (r.base + j)) := by
    decide +kernel
  exact hall r r.mem_all j hj

/-! Reads. -/

theorem State.windowRead_of_writeOnly (s : State) {a : Nat} {r : Reg} {j : Nat} (hloc : locate a = some (r, j)) (hr : r.access = .writeOnly) :
    s.windowRead a = 0x00 := by
  simp only [State.windowRead, hloc, hr, if_true]

/-- A read depends on the bytes of the register at its address alone, and on memory for a buffer. -/
theorem State.windowRead_congr {s t : State} {a : Nat}
    (h : ∀ r j, locate a = some (r, j) → if r.isBuffer then t.mem.read a = s.mem.read a
      else r.access ≠ .writeOnly → (t.regBytes r).getD j 0x00 = (s.regBytes r).getD j 0x00) : t.windowRead a = s.windowRead a := by
  unfold State.windowRead
  cases hloc : locate a with
  | none => rfl
  | some p =>
    obtain ⟨r, j⟩ := p
    have hrj := h r j hloc
    dsimp only
    split
    · rfl
    · rename_i hr
      split
      · rename_i hb
        simpa [hb] using hrj
      · rename_i hb
        rw [if_neg hb] at hrj
        rw [hrj hr]

/-- Every readable register that is no buffer reads its bytes without the reserved bits. -/
theorem State.rd_eq_masked (s : State) (r : Reg) (ha : r.access ≠ .writeOnly) (hb : r.isBuffer = false) :
    s.rd r = List.zipWith (· &&& ·) (s.regBytes r) ((List.range r.size).map r.mask) := by
  apply List.ext_getElem
  · simp [State.rd, State.windowBytes]
  · intro j h1 h2
    have hj : j < r.size := by simpa [State.rd, State.windowBytes] using h1
    simp only [State.rd, State.windowBytes, List.getElem_map, List.getElem_range, List.getElem_zipWith]
    rw [State.windowRead_reg s r j hj ha hb, List.getD_eq_getElem _ _ (by simpa using hj)]

/-- A one-byte register. -/
theorem State.windowRead_one (s : State) (r : Reg) (b : Byte) (hbytes : s.regBytes r = beBytes 1 b) (ha : r.access ≠ .writeOnly := by decide)
    (hb : r.isBuffer = false := by decide) : s.windowRead r.base = b &&& r.mask 0 := by
  have hsize : 0 < r.size := (Reg.bounds r).1
  have hread := State.windowRead_reg s r 0 hsize ha hb
  rwa [hbytes, beBytes_one] at hread

theorem beBytes_and {w : Nat} (n : Nat) (x y : BitVec w) : beBytes n (x &&& y) = List.zipWith (· &&& ·) (beBytes n x) (beBytes n y) := by
  simp only [beBytes, List.zipWith_map, List.zipWith_self, BitVec.extractLsb'_and]

/-- Settles O9: the two address lists are those of the registers with one right alone. -/
theorem writeOnlyReadsZeroAndReadOnlyIgnoresWrites : Obligations.WriteOnlyReadsZeroAndReadOnlyIgnoresWrites := by
  intro s a v
  cases hloc : locate a with
  | none => exact ⟨fun _ => s.windowRead_of_locate_none a hloc, fun _ => s.windowWrite_of_locate_none a v hloc⟩
  | some p =>
    obtain ⟨r, j⟩ := p
    obtain ⟨rfl, hj⟩ := (locate_eq_some a r j).mp hloc
    obtain ⟨hwo, hro, -⟩ := r.address_classes j hj
    refine ⟨fun h => s.windowRead_of_writeOnly hloc (of_decide_eq_true (hwo.symm.trans h)), fun h => ?_⟩
    have hr : r.access = .readOnly := of_decide_eq_true (hro.symm.trans h)
    simp only [State.windowWrite, hloc, hr, if_true]

/-! Writes. -/

/-- A write inside a register that the host may write, no buffer. -/
theorem State.windowWrite_reg (s : State) (r : Reg) (j : Nat) (v : Byte) (hj : j < r.size) (hr : r.access ≠ .readOnly)
    (hb : r.isBuffer = false) : s.windowWrite (r.base + j) v = s.setRegBytes r ((s.regBytes r).set j (v &&& r.mask j)) := by
  simp [State.windowWrite, hj, hr, hb]

theorem State.windowWrite_buffer (s : State) (r : Reg) (j : Nat) (v : Byte) (hj : j < r.size) (hb : r.isBuffer = true) :
    s.windowWrite (r.base + j) v = { s with mem := s.mem.write (r.base + j) v } := by
  have hr : r.access ≠ .readOnly := by rcases r.isBuffer_iff.mp hb with rfl | rfl | rfl | rfl <;> decide
  simp [State.windowWrite, hj, hr, hb]

/-- The register's bytes after a write of one of them. -/
theorem State.regBytes_windowWrite (s : State) (r : Reg) (j : Nat) (v : Byte) (hj : j < r.size) (hr : r.access ≠ .readOnly)
    (hb : r.isBuffer = false) (hc : r ≠ .cmd) : (s.windowWrite (r.base + j) v).regBytes r = (s.regBytes r).set j (v &&& r.mask j) := by
  rw [s.windowWrite_reg r j v hj hr hb, State.regBytes_setRegBytes_same s r _ hr hb hc (by simp)]

/-- A byte of a register with read and write access reads what was written to it, its reserved bits dropped. -/
theorem State.windowRead_windowWrite (s : State) (r : Reg) (j : Nat) (v : Byte) (hj : j < r.size) (hr : r.access = .readWrite) :
    (s.windowWrite (r.base + j) v).windowRead (r.base + j) = v &&& r.mask j := by
  have hnotRo : r.access ≠ .readOnly := by rw [hr]; decide
  have hnotWo : r.access ≠ .writeOnly := by rw [hr]; decide
  cases hb : r.isBuffer with
  | true =>
    have hmask : r.mask j = 0xFF := by rcases r.isBuffer_iff.mp hb with rfl | rfl | rfl | rfl <;> rfl
    rw [s.windowWrite_buffer r j v hj hb, State.windowRead_buffer _ r j hj hb, Memory.read_write_same, hmask]
    exact BitVec.and_allOnes.symm
  | false =>
    have hc : r ≠ .cmd := by rintro rfl; exact absurd hr (by decide)
    rw [State.windowRead_reg _ r j hj hnotWo hb, s.regBytes_windowWrite r j v hj hnotRo hb hc, List.getD_eq_getElem _ _ (by simpa using hj),
      List.getElem_set_self, BitVec.and_assoc, BitVec.and_self]

/-- Settles O10: an address of no other class lies in a read-write register, whose reserved bits are those of its rule; a key has none. -/
theorem writtenByteIsHeld : Obligations.WrittenByteIsHeld := by
  refine ⟨fun s a v ha hres hro hwo => ?readWrite, fun s j v hj => ?keys⟩
  case readWrite =>
    cases hloc : locate a with
    | none => exact absurd ((reservedAddress_of_locate_none a ha hloc).symm.trans hres) (by decide)
    | some p =>
      obtain ⟨r, j⟩ := p
      obtain ⟨rfl, hj⟩ := (locate_eq_some a r j).mp hloc
      obtain ⟨hwo', hro', hmask⟩ := r.address_classes j hj
      have hr : r.access = .readWrite := by
        cases haccess : r.access with
        | readWrite => rfl
        | readOnly => simp [haccess, hro] at hro'
        | writeOnly => simp [haccess, hwo] at hwo'
      rw [s.windowRead_windowWrite r j v hj hr, hmask hr]
  case keys =>
    have hkeep (b : Byte) : b &&& 0xFF = b := BitVec.and_allOnes
    have hkey (r : Reg) (hsize : r.size = 16) (hmask : r.mask j = 0xFF) (hr : r.access ≠ .readOnly) (hb : r.isBuffer = false)
        (hc : r ≠ .cmd) :
        (s.windowWrite (r.base + j) v).regBytes r = (s.regBytes r).set j v := by
      rw [s.regBytes_windowWrite r j v (hsize ▸ hj) hr hb hc, hmask, hkeep]
    exact ⟨hkey .kenc rfl rfl (by decide) rfl (by decide), hkey .kpriv rfl rfl (by decide) rfl (by decide),
      hkey .ktrans rfl rfl (by decide) rfl (by decide)⟩

/-- A write of memory leaves the bytes of every register that is no buffer. -/
theorem State.regBytes_setMem (s : State) (m : Memory) (r : Reg) (hb : r.isBuffer = false) : { s with mem := m }.regBytes r = s.regBytes r := by
  cases r <;> simp_all [State.regBytes, Reg.isBuffer]

/-- A write leaves every register that does not span its address. -/
theorem State.WritesTo.regBytes {s t : State} {a : Nat} {v : Byte} (h : s.WritesTo a v t) (r : Reg) (hb : r.isBuffer = false)
    (ha : a < r.base ∨ r.base + r.size ≤ a) : t.regBytes r = s.regBytes r := by
  cases h with
  | none => rfl
  | buffer => exact s.regBytes_setMem _ r hb
  | @reg r' j haddr hj =>
    refine s.regBytes_setRegBytes_other r' r _ ?_
    rintro rfl
    omega

/-- A write leaves what every other address reads. -/
theorem State.WritesTo.windowRead {s t : State} {a : Nat} {v : Byte} (h : s.WritesTo a v t) {b : Nat} (hne : b ≠ a) :
    t.windowRead b = s.windowRead b := by
  refine State.windowRead_congr fun r k hloc => ?_
  obtain ⟨rfl, hk⟩ := (locate_eq_some b r k).mp hloc
  split
  · cases h with
    | none => rfl
    | buffer => exact Memory.read_write_other _ _ _ _ hne
    | reg => rw [State.setRegBytes_mem]
  · rename_i hb
    rw [Bool.not_eq_true] at hb
    intro hread
    by_cases hspan : a < r.base ∨ r.base + r.size ≤ a
    · rw [h.regBytes r hb hspan]
    cases h with
    | none => rfl
    | buffer => rw [s.regBytes_setMem _ r hb]
    | @reg r' j ha hj hw hb' =>
      have hsame : r' = r := by rcases r'.disjoint r with h | h | h <;> [exact h; omega; omega]
      subst hsame
      have hc : r' ≠ .cmd := by rintro rfl; exact hread rfl
      have hjk : j ≠ k := by rintro rfl; exact hne ha.symm
      rw [State.regBytes_setRegBytes_same s r' _ hw hb hc (by simp), List.getD_eq_getElem?_getD, List.getD_eq_getElem?_getD,
        List.getElem?_set_ne hjk]

/-- Settles O11: a write changes one byte of one register or of memory; the hidden store is no register, and each key is one. -/
theorem writeChangesNoOtherAddress : Obligations.WriteChangesNoOtherAddress := by
  intro s a v
  have h := s.writesTo a v
  have hhidden : (s.windowWrite a v).ctx.segbuf = s.ctx.segbuf ∧ (s.windowWrite a v).ctx.seglen = s.ctx.seglen := by
    rcases h.ctx with hctx | ⟨-, q, l, hctx⟩ <;> rw [hctx] <;> exact ⟨rfl, rfl⟩
  exact ⟨fun b hb => h.windowRead hb, s.windowWrite_port a v, hhidden.1, hhidden.2, fun ha => beBytes_inj rfl (h.regBytes .kenc rfl ha),
    fun ha => beBytes_inj rfl (h.regBytes .kpriv rfl ha), fun ha => beBytes_inj rfl (h.regBytes .ktrans rfl ha)⟩

end Sys2Proof.Machine
end

