-- ==== Sys2Proof/Proofs/WindowRegisters.lean ====
section
/-! Whole registers and buffers through the window (20_memory.md R72, R77; 10_state.md R23), and the script that loads a buffer (30_encoding.md
R97). -/

namespace Sys2Proof.Machine

/-! A register written byte after byte. -/

theorem State.setRegBytes_setRegBytes (s : State) (r : Reg) (bs bs' : List Byte) :
    (s.setRegBytes r bs).setRegBytes r bs' = s.setRegBytes r bs' := by
  cases r <;> rfl

/-- Writing a register's own bytes changes nothing. -/
theorem State.setRegBytes_regBytes (s : State) (r : Reg) : s.setRegBytes r (s.regBytes r) = s := by
  cases r <;> simp [State.setRegBytes, State.regBytes, fromBE_beBytes]

/-- What a run of byte writes needs of a register: it is written whole, and no bit of it is reserved. -/
structure Reg.IsPlain (r : Reg) : Prop where
  access : r.access = .readWrite
  noBuffer : r.isBuffer = false
  noReserved : ∀ j < r.size, r.mask j = 0xFF

theorem Reg.IsPlain.ne_cmd {r : Reg} (h : r.IsPlain) : r ≠ .cmd := by
  rintro rfl
  exact absurd h.access (by decide)

theorem Reg.IsPlain.not_readOnly {r : Reg} (h : r.IsPlain) : r.access ≠ .readOnly := by rw [h.access]; decide

theorem Reg.IsPlain.not_writeOnly {r : Reg} (h : r.IsPlain) : r.access ≠ .writeOnly := by rw [h.access]; decide

/-- Consecutive writes inside a register put their bytes in the place of its old ones. -/
theorem State.windowWrites_reg (s : State) {r : Reg} (hr : r.IsPlain) (k : Nat) (bs : List Byte) (h : k + bs.length ≤ r.size) :
    s.windowWrites (r.base + k) bs = s.setRegBytes r ((s.regBytes r).take k ++ bs ++ (s.regBytes r).drop (k + bs.length)) := by
  induction bs generalizing s k with
  | nil => rw [List.append_nil, List.length_nil, Nat.add_zero, List.take_append_drop, s.setRegBytes_regBytes, State.windowWrites_nil]
  | cons b rest ih =>
    rw [List.length_cons] at h
    have hk : k < r.size := by omega
    have hkeep : b &&& r.mask k = b := by rw [hr.noReserved k hk]; exact BitVec.and_allOnes
    have hfirst : s.windowWrite (r.base + k) b = s.setRegBytes r ((s.regBytes r).set k b) := by
      rw [s.windowWrite_reg r k b hk hr.not_readOnly hr.noBuffer, hkeep]
    have hbytes : (s.setRegBytes r ((s.regBytes r).set k b)).regBytes r = (s.regBytes r).set k b :=
      State.regBytes_setRegBytes_same s r _ hr.not_readOnly hr.noBuffer hr.ne_cmd (by simp)
    have htake : ((s.regBytes r).set k b).take (k + 1) = (s.regBytes r).take k ++ [b] := by
      rw [List.take_add_one, List.take_set_of_le le_rfl]
      simp [hk]
    have hdrop : ((s.regBytes r).set k b).drop (k + 1 + rest.length) = (s.regBytes r).drop (k + (rest.length + 1)) := by
      rw [List.drop_set_of_lt (by omega), Nat.add_assoc, Nat.add_comm 1]
    rw [State.windowWrites_cons, hfirst, Nat.add_assoc, ih _ (k + 1) (by omega), hbytes, State.setRegBytes_setRegBytes, htake, hdrop,
      List.append_assoc ((s.regBytes r).take k), List.singleton_append, List.length_cons]

/-- All bytes of a register written, most significant first. -/
theorem State.windowWrites_reg_full (s : State) {r : Reg} (hr : r.IsPlain) (bs : List Byte) (hl : bs.length = r.size) :
    s.windowWrites r.base bs = s.setRegBytes r bs := by
  have hall := s.windowWrites_reg hr 0 bs (by omega)
  rwa [Nat.add_zero, List.take_zero, List.nil_append, Nat.zero_add, List.drop_of_length_le (by simp [hl]), List.append_nil] at hall

/-- All bytes of a register written read back. -/
theorem State.rd_windowWrites (s : State) {r : Reg} (hr : r.IsPlain) (bs : List Byte) (hl : bs.length = r.size) :
    (s.windowWrites r.base bs).rd r = bs := by
  rw [s.windowWrites_reg_full hr bs hl, State.rd_eq_regBytes _ r hr.not_writeOnly hr.noBuffer hr.noReserved,
    State.regBytes_setRegBytes_same s r bs hr.not_readOnly hr.noBuffer hr.ne_cmd hl]

/-- The number a byte string spells, most significant byte first (00_scope.md R10). -/
theorem fromBE_toNat (w : Nat) (bs : List Byte) (h : 8 * bs.length ≤ w) :
    (fromBE w bs).toNat = bs.foldl (fun n b => n * 2 ^ 8 + b.toNat) 0 ∧ (fromBE w bs).toNat < 2 ^ (8 * bs.length) := by
  induction bs using List.reverseRecOn with
  | nil => simp [fromBE]
  | append_singleton xs b ih =>
    rw [List.length_append, List.length_singleton] at h ⊢
    obtain ⟨hvalue, hbound⟩ := ih (by omega)
    have hb := b.isLt
    have hpow : 2 ^ (8 * (xs.length + 1)) = 2 ^ (8 * xs.length) * 2 ^ 8 := by rw [← Nat.pow_add]; congr 1
    have hw : 2 ^ (8 * xs.length) * 2 ^ 8 ≤ 2 ^ w := by rw [← hpow]; exact Nat.pow_le_pow_right (by decide) h
    have hshift : (fromBE w xs <<< 8).toNat = (fromBE w xs).toNat * 2 ^ 8 := by
      rw [BitVec.toNat_shiftLeft, Nat.shiftLeft_eq, Nat.mod_eq_of_lt (by omega)]
    have hbyte : (b.setWidth w).toNat = b.toNat := by
      rw [BitVec.toNat_setWidth, Nat.mod_eq_of_lt (by have := Nat.one_le_two_pow (n := 8 * xs.length); omega)]
    have hstep : (fromBE w (xs ++ [b])).toNat = (fromBE w xs).toNat * 2 ^ 8 + b.toNat := by
      rw [fromBE_append, BitVec.toNat_or, hshift, hbyte, ← Nat.shiftLeft_eq, Nat.shiftLeft_add_eq_or_of_lt hb]
    rw [hstep, hpow, List.foldl_append, ← hvalue]
    exact ⟨rfl, by omega⟩

/-- Settles O12: the bytes written are the register's, which reads back as they are and spells their number. -/
theorem multiByteRegistersAreBigEndian : Obligations.MultiByteRegistersAreBigEndian := by
  intro s b0 b1 b2 b3 two three four
  have htwo : (fromBE 16 [b0, b1]).toNat = two := by
    rw [(fromBE_toNat 16 [b0, b1] le_rfl).1]
    simp [two]
  have hthree : (fromBE 24 [b0, b1, b2]).toNat = three := by
    rw [(fromBE_toNat 24 [b0, b1, b2] le_rfl).1]
    simp only [List.foldl_cons, List.foldl_nil, three]
    omega
  have hfour : (fromBE 32 [b0, b1, b2, b3]).toNat = four := by
    rw [(fromBE_toNat 32 [b0, b1, b2, b3] le_rfl).1]
    simp only [List.foldl_cons, List.foldl_nil, four]
    omega
  have hplain : Reg.nseq.IsPlain ∧ Reg.src.IsPlain ∧ Reg.dst.IsPlain ∧ Reg.ivindex.IsPlain ∧ Reg.tseq.IsPlain ∧ Reg.lastseqauth.IsPlain ∧
      Reg.alen.IsPlain ∧ Reg.ulen.IsPlain := by
    refine ⟨?_, ?_, ?_, ?_, ?_, ?_, ?_, ?_⟩ <;> exact ⟨rfl, rfl, fun _ _ => rfl⟩
  obtain ⟨hnseq, hsrc, hdst, hiv, htseq, hlast, halen, hulen⟩ := hplain
  exact ⟨⟨(congrArg (fun t : State => t.par.nseq.toNat) (s.windowWrites_reg_full hnseq _ rfl)).trans hthree, s.rd_windowWrites hnseq _ rfl⟩,
    ⟨(congrArg (fun t : State => t.par.src.toNat) (s.windowWrites_reg_full hsrc _ rfl)).trans htwo, s.rd_windowWrites hsrc _ rfl⟩,
    ⟨(congrArg (fun t : State => t.par.dst.toNat) (s.windowWrites_reg_full hdst _ rfl)).trans htwo, s.rd_windowWrites hdst _ rfl⟩,
    ⟨(congrArg (fun t : State => t.par.ivindex.toNat) (s.windowWrites_reg_full hiv _ rfl)).trans hfour, s.rd_windowWrites hiv _ rfl⟩,
    ⟨(congrArg (fun t : State => t.par.tseq.toNat) (s.windowWrites_reg_full htseq _ rfl)).trans hthree, s.rd_windowWrites htseq _ rfl⟩,
    ⟨(congrArg (fun t : State => t.ctx.lastseqauth.toNat) (s.windowWrites_reg_full hlast _ rfl)).trans hthree,
      s.rd_windowWrites hlast _ rfl⟩,
    ⟨(congrArg (fun t : State => t.len.alen.toNat) (s.windowWrites_reg_full halen _ rfl)).trans htwo, s.rd_windowWrites halen _ rfl⟩,
    ⟨(congrArg (fun t : State => t.len.ulen.toNat) (s.windowWrites_reg_full hulen _ rfl)).trans htwo, s.rd_windowWrites hulen _ rfl⟩⟩

/-! What each address reads. -/

/-- A one-byte register without reserved bits. -/
theorem State.windowRead_plain (s : State) (r : Reg) (b : Byte) (hbytes : s.regBytes r = beBytes 1 b) (hm : r.mask 0 = 0xFF := by rfl)
    (ha : r.access ≠ .writeOnly := by decide) (hb : r.isBuffer = false := by rfl) : s.windowRead r.base = b := by
  rw [s.windowRead_one r b hbytes ha hb, hm]
  exact BitVec.and_allOnes

/-- A two-byte register with reserved bits in its first byte. -/
theorem State.rd_masked_two (s : State) (r : Reg) (x mask : BitVec 16) (hbytes : s.regBytes r = beBytes 2 x)
    (hm : (List.range r.size).map r.mask = beBytes 2 mask) (ha : r.access ≠ .writeOnly := by decide) (hb : r.isBuffer = false := by rfl) :
    s.rd r = beBytes 2 (x &&& mask) := by
  rw [s.rd_eq_masked r ha hb, hbytes, hm, beBytes_and]

/-- Settles O60: each register reads its bytes under its mask, and an address of a buffer its byte of memory. -/
theorem eachAddressReadsItsRegister : Obligations.EachAddressReadsItsRegister := by
  intro s
  refine ⟨⟨s.windowRead_plain .status _ rfl, s.windowRead_plain .events _ rfl, s.windowRead_one .rflags _ rfl⟩,
    ⟨s.windowRead_one .cfg _ rfl, s.windowRead_one .ccmcfg _ rfl⟩,
    ⟨s.windowRead_plain .pdutype _ rfl, s.windowRead_one .nid _ rfl, s.windowRead_plain .ctlttl _ rfl, s.rd_nseq, s.rd_src, s.rd_dst,
      s.rd_ivindex, s.rd_tseq, s.windowRead_plain .tctrl _ rfl, s.windowRead_one .copc _ rfl, s.windowRead_one .sego _ rfl,
      s.windowRead_one .txseg _ rfl⟩,
    ⟨s.windowRead_one .rxseg _ rfl, s.windowRead_one .rxsego _ rfl, s.rd_eq_regBytes .acktmr (by decide) rfl fun _ _ => rfl⟩,
    ⟨s.rd_eq_regBytes .lastseqauth (by decide) rfl fun _ _ => rfl, s.windowRead_one .lsav _ rfl,
      s.rd_masked_two .rseqzero _ 0x1FFF rfl (by decide), s.rd_eq_regBytes .blockack (by decide) rfl fun _ _ => rfl,
      s.rd_eq_regBytes .segvalid (by decide) rfl fun _ _ => rfl⟩,
    ⟨s.rd_rxblockack, s.rd_eq_regBytes .missing (by decide) rfl fun _ _ => rfl, s.rd_masked_two .rxackhdr _ 0x9FFF rfl (by decide)⟩,
    ⟨s.rd_eq_regBytes .alen (by decide) rfl fun _ _ => rfl, s.rd_eq_regBytes .ulen (by decide) rfl fun _ _ => rfl,
      s.windowRead_plain .llen _ rfl, s.windowRead_plain .nlen _ rfl⟩,
    ⟨s.rd_nonce, s.rd_pecb, s.rd_ackbuf⟩, fun a ha => ?buffers⟩
  case buffers =>
    have hread (r : Reg) (hb : r.isBuffer = true) (hlo : r.base ≤ a) (hhi : a < r.base + r.size) : s.windowRead a = s.mem.read a := by
      obtain ⟨j, rfl⟩ := Nat.exists_eq_add_of_le hlo
      exact s.windowRead_buffer r j (by omega) hb
    rcases ha with ⟨hlo, hhi⟩ | ⟨hlo, hhi⟩ | ⟨hlo, hhi⟩ | ⟨hlo, hhi⟩
    · exact hread .lbuf rfl hlo (Nat.lt_succ_of_le hhi)
    · exact hread .nbuf rfl hlo (Nat.lt_succ_of_le hhi)
    · exact hread .abuf rfl hlo (Nat.lt_succ_of_le hhi)
    · exact hread .ubuf rfl hlo (Nat.lt_succ_of_le hhi)

/-! The script that loads a buffer (R97). -/

theorem run_add (m n : Nat) {s t : State} (h : Host.Core.run core m s = .next t) :
    Host.Core.run core (m + n) s = Host.Core.run core n t := by
  induction m generalizing s with
  | zero =>
    obtain rfl := Host.Outcome.next.inj h
    rw [Nat.zero_add]
  | succ m ih =>
    rw [Nat.succ_add]
    simp only [Host.Core.run] at h ⊢
    cases hstep : core.step s with
    | next s' =>
      rw [hstep] at h
      exact ih h
    | fault r => rw [hstep] at h; cases h
    | refused r => rw [hstep] at h; cases h

theorem State.setRegBytes_withPending (s : State) (q : List HostInput) (r : Reg) (bs : List Byte) :
    (s.withPending q).setRegBytes r bs = (s.setRegBytes r bs).withPending q := by
  cases r <;> rfl

/-- The registers with a length register are the buffers, and the length registers have no reserved bits (R52). -/
theorem isPlain_of_lengthReg {buf l : Reg} (hl : buf.lengthReg = some l) : buf.isBuffer = true ∧ l.IsPlain := by
  cases buf <;> cases hl <;> exact ⟨rfl, rfl, rfl, fun _ _ => rfl⟩

/-- The script's writes of a buffer's bytes and then of its length register, served. -/
theorem run_scriptLoad {s u : State} {buf l : Reg} {bs : List Byte} (hl : buf.lengthReg = some l) (hcap : bs.length ≤ buf.size)
    (hp : s.port.pending = scriptLoad buf bs)
    (hu : { s with mem := s.mem.writeRange buf.base bs }.setRegBytes l (beBytes l.size (BitVec.ofNat (8 * l.size) bs.length)) = u) :
    Host.Core.run core (bs.length + l.size) s = .next (u.withPending []) := by
  obtain ⟨hbuf, hplain⟩ := isPlain_of_lengthReg hl
  have hend := Reg.bounds buf
  have hlend := Reg.bounds l
  have hbase : buf.base ≠ 0 := by rcases buf.isBuffer_iff.mp hbuf with rfl | rfl | rfl | rfl <;> decide
  have hlbase : l.base ≠ 0 := by
    intro hzero
    have hbase : Reg.cmd.base = 0 := rfl
    have hsize : Reg.cmd.size = 1 := rfl
    exact hplain.ne_cmd ((Reg.disjoint .cmd l).resolve_right (by omega)).symm
  have hpending : s.port.pending = writeBytes buf.base bs ++ (scriptWr l bs.length ++ []) := by
    rw [hp, scriptLoad, hl, List.append_nil]
  rw [run_add _ _ (run_writeBytes s buf.base bs _ hpending hbase (by omega))]
  have hbytes := s.windowWrites_buffer buf hbuf 0 bs (by omega)
  rw [Nat.add_zero] at hbytes
  have hlen := run_writeBytes ((s.windowWrites buf.base bs).withPending (scriptWr l bs.length ++ [])) l.base
    (beBytes l.size (BitVec.ofNat (8 * l.size) bs.length)) [] rfl hlbase (by rw [beBytes_length]; omega)
  rw [beBytes_length] at hlen
  rw [hlen, State.windowWrites_reg_full _ hplain _ (beBytes_length _ _), hbytes, State.setRegBytes_withPending, hu]
  rfl

/-- A frame as what serving the whole queue may have changed. -/
theorem State.Frame.servedQueue {s t : State} {regs : List Reg} {lo n : Nat} (h : s.Frame t regs lo n) (hst : t.status = s.status)
    (hev : t.events = s.events) : s.ServedQueue (t.withPending []) regs lo n := by
  have hport : (t.withPending []).port = { s.port with pending := [] } := by rw [State.withPending, h.port]
  have hkept (u : State) (p : HostPort) (r : Reg) : { u with port := p }.regBytes r = u.regBytes r := by cases r <;> rfl
  refine ⟨hst, hev, hport, fun r hr hs he hb => ?_, h.bytes, h.hidden, rfl⟩
  rw [State.withPending, hkept, hkept]
  exact h.regs r hr hs he hb

/-- Settles O13: the script ends in the state that filling the buffer and its length register gives, the queue empty. -/
theorem loadScriptFillsTheBuffer : Obligations.LoadScriptFillsTheBuffer := by
  intro s bs
  refine ⟨fun hcap hp => ?abuf, fun hcap hp => ?ubuf, fun hcap hp => ?lbuf, fun hcap hp => ?nbuf⟩
  case abuf =>
    have hput : { s with mem := s.mem.writeRange Reg.abuf.base bs }.setRegBytes .alen (beBytes 2 (BitVec.ofNat 16 bs.length)) =
        s.putAbuf bs := by
      rw [State.setRegBytes, fromBE_beBytes 2 _ rfl]
      rfl
    exact ⟨(s.putAbuf bs).withPending [], run_scriptLoad rfl hcap hp hput, State.putAbuf_abuf s bs hcap, State.putAbuf_alen_toNat s bs hcap,
      (s.frame_refl.putAbuf bs).servedQueue rfl rfl⟩
  case ubuf =>
    have hput : { s with mem := s.mem.writeRange Reg.ubuf.base bs }.setRegBytes .ulen (beBytes 2 (BitVec.ofNat 16 bs.length)) =
        s.putUbuf bs := by
      rw [State.setRegBytes, fromBE_beBytes 2 _ rfl]
      rfl
    exact ⟨(s.putUbuf bs).withPending [], run_scriptLoad rfl hcap hp hput, State.putUbuf_ubuf s bs hcap, State.putUbuf_ulen_toNat s bs hcap,
      (s.frame_refl.putUbuf bs).servedQueue rfl rfl⟩
  case lbuf =>
    have hput : { s with mem := s.mem.writeRange Reg.lbuf.base bs }.setRegBytes .llen (beBytes 1 (BitVec.ofNat 8 bs.length)) =
        s.putLbuf bs := by
      rw [State.setRegBytes, fromBE_beBytes 1 _ rfl]
      rfl
    exact ⟨(s.putLbuf bs).withPending [], run_scriptLoad rfl hcap hp hput, State.putLbuf_lbuf s bs hcap, State.putLbuf_llen_toNat s bs hcap,
      (s.frame_refl.putLbuf bs).servedQueue rfl rfl⟩
  case nbuf =>
    have hput : { s with mem := s.mem.writeRange Reg.nbuf.base bs }.setRegBytes .nlen (beBytes 1 (BitVec.ofNat 8 bs.length)) =
        s.putNbuf bs := by
      rw [State.setRegBytes, fromBE_beBytes 1 _ rfl]
      rfl
    exact ⟨(s.putNbuf bs).withPending [], run_scriptLoad rfl hcap hp hput, State.putNbuf_nbuf s bs hcap, State.putNbuf_nlen_toNat s bs hcap,
      (s.frame_refl.putNbuf bs).servedQueue rfl rfl⟩

end Sys2Proof.Machine
end

