-- ==== Sys2Proof/Proofs/Representation.lean ====
section
/-! The representation invariant along every command and every step (10_state.md R61; 20_memory.md R73; 60_exceptions.md R261): reserved bits,
the two memories, the slots. -/

namespace Sys2Proof.Machine

/-! Reserved bits. -/

/-- The reserved bits of a register are 0. -/
def State.Clear (s : State) (r : Reg) : Prop := ∀ j < r.size, (s.regBytes r).getD j 0x00 &&& ~~~r.mask j = 0x00

/-- The registers with reserved bits (R27 to R51). -/
def Reg.withReserved : List Reg := [.rflags, .cfg, .ccmcfg, .nid, .copc, .sego, .txseg, .rxseg, .rxsego, .lsav, .rseqzero, .rxackhdr]

theorem Reg.mask_of_not_reserved {r : Reg} (h : r ∉ Reg.withReserved) (j : Nat) : r.mask j = 0xFF := by
  cases r <;> simp_all [Reg.withReserved, Reg.mask]

theorem State.clear_of_not_reserved (s : State) {r : Reg} (h : r ∉ Reg.withReserved) : s.Clear r := fun j _ => by
  rw [Reg.mask_of_not_reserved h]
  exact BitVec.and_zero

theorem State.Clear.congr {s t : State} {r : Reg} (h : s.Clear r) (heq : t.regBytes r = s.regBytes r) : t.Clear r := by
  unfold State.Clear
  rw [heq]
  exact h

theorem State.clear_byte {s : State} {r : Reg} (x : Byte) (hsize : r.size = 1) (hbytes : s.regBytes r = beBytes 1 x) :
    s.Clear r ↔ x &&& ~~~r.mask 0 = 0x00 := by
  simp [State.Clear, hsize, hbytes, beBytes_one]

/-- A register of two bytes whose reserved bits stand in the first. -/
theorem State.clear_word {s : State} {r : Reg} (x : BitVec 16) (hsize : r.size = 2) (hbytes : s.regBytes r = beBytes 2 x)
    (hmask : r.mask 1 = 0xFF) (hx : x.extractLsb' 8 8 &&& ~~~r.mask 0 = 0x00) : s.Clear r := by
  intro j hj
  rw [hsize] at hj
  have hj' : j < (s.regBytes r).length := by rw [hbytes, beBytes_length]; exact hj
  rw [List.getD_eq_getElem _ _ hj']
  simp only [hbytes, beBytes_getElem]
  match j, hj with
  | 0, _ => exact hx
  | 1, _ =>
    rw [hmask]
    exact BitVec.and_zero

/-- SeqZero in a register of sixteen bits. -/
theorem seqZero_reserved (z : BitVec 13) : (z.setWidth 16).extractLsb' 8 8 &&& ~~~0x1F = 0x00#8 := by
  have hhigh : (z.setWidth 16).extractLsb' 8 8 = 0#3 ++ z.extractLsb' 8 5 := by
    apply BitVec.eq_of_toNat_eq
    rw [toNat_append_eq, BitVec.extractLsb'_toNat, BitVec.extractLsb'_toNat, BitVec.toNat_setWidth, Nat.shiftRight_eq_div_pow,
      BitVec.toNat_ofNat]
    omega
  have hclear : ∀ x : BitVec 5, (0#3 ++ x : Byte) &&& ~~~0x1F = 0x00 := by decide
  exact hhigh ▸ hclear _

/-- RXACKHDR's layout (R51). -/
theorem ackHeader_reserved (b : Bool) (z : BitVec 13) : (BitVec.ofBool b ++ 0#2 ++ z).extractLsb' 8 8 &&& ~~~0x9F = 0x00#8 := by
  have hhigh : (BitVec.ofBool b ++ 0#2 ++ z).extractLsb' 8 8 = BitVec.ofBool b ++ 0#2 ++ z.extractLsb' 8 5 := by
    apply BitVec.eq_of_toNat_eq
    rw [toNat_append_eq, BitVec.extractLsb'_toNat, BitVec.extractLsb'_toNat, Nat.shiftRight_eq_div_pow, toNat_append_eq, toNat_append_eq,
      BitVec.toNat_ofNat]
    omega
  have hclear : ∀ (b : Bool) (x : BitVec 5), (BitVec.ofBool b ++ 0#2 ++ x : Byte) &&& ~~~0x9F = 0x00 := by decide
  exact hhigh ▸ hclear b _

/-- Every reserved bit is 0. -/
def State.ReservedClear (s : State) : Prop := ∀ r : Reg, r.isBuffer = false → s.Clear r

/-- An update keeps the reserved bits 0 if it leaves them 0 in the registers it writes. -/
theorem State.ReservedClear.update {s t : State} {regs : List Reg} {lo n : Nat} (h : s.ReservedClear) (hframe : s.OuterFrame t regs lo n)
    (hregs : ∀ r ∈ regs.filter (· ∈ Reg.withReserved), t.Clear r) : t.ReservedClear := by
  intro r hb
  by_cases hres : r ∈ Reg.withReserved
  · by_cases hmem : r ∈ regs
    · exact hregs r (List.mem_filter.mpr ⟨hmem, decide_eq_true hres⟩)
    · have hstatus : r ≠ .status := fun heq => absurd (heq ▸ hres) (by decide)
      have hevents : r ≠ .events := fun heq => absurd (heq ▸ hres) (by decide)
      exact (h r hb).congr (hframe.regs r hmem hstatus hevents hb)
  · exact t.clear_of_not_reserved hres

/-- An update of registers without reserved bits. -/
theorem State.ReservedClear.update_plain {s t : State} {regs : List Reg} {lo n : Nat} (h : s.ReservedClear)
    (hframe : s.OuterFrame t regs lo n) (hregs : ∀ r ∈ regs, r ∉ Reg.withReserved) : t.ReservedClear :=
  h.update hframe fun r hr => absurd (of_decide_eq_true (List.mem_filter.mp hr).2) (hregs r (List.mem_filter.mp hr).1)

/-! RFLAGS holds three flags (R27). -/

/-- No bit of RFLAGS but the three flags is set. -/
def RxContext.FlagsClear (c : RxContext) : Prop := c.rflags &&& ~~~0x07 = 0x00

theorem State.clear_rflags (s : State) : s.Clear .rflags ↔ s.ctx.FlagsClear := State.clear_byte _ rfl rfl

theorem RxContext.FlagsClear.setFlag {c : RxContext} (h : c.FlagsClear) (f : RFlag) (b : Bool) : (c.setFlag f b).FlagsClear := by
  have hbit : ∀ x : Byte, x &&& ~~~0x07 = 0x00 → ∀ i < 3, ∀ b : Bool, setBit x i b &&& ~~~0x07 = 0x00 := by decide +kernel
  exact hbit c.rflags h f.bit (by cases f <;> decide) b

theorem RxContext.FlagsClear.start {c : RxContext} (h : c.FlagsClear) (t : Seq) (z : BitVec 13) : (c.start t z).FlagsClear :=
  (h.setFlag .ackSent false).setFlag .incRun true

theorem State.ReservedClear.flags {s : State} (h : s.ReservedClear) : s.ctx.FlagsClear := s.clear_rflags.mp (h .rflags rfl)

/-! The updates of registers with reserved bits, one after another. -/

theorem State.ReservedClear.begin {s : State} (h : s.ReservedClear) : s.begin.ReservedClear :=
  h.update_plain s.frame_begin.outer (by simp)

theorem State.ReservedClear.finish {s : State} (h : s.ReservedClear) (c : StatusCode) : (s.finish c).ReservedClear :=
  h.update_plain (s.frame_refl.finish c).outer (by simp)

theorem zero_append_reserved (h0 : BitVec 7) : (0#1 ++ h0 : Byte) &&& ~~~0x7F = 0x00 := by revert h0; decide

theorem State.ReservedClear.noteHeaderByte {s : State} (h : s.ReservedClear) (h0 : BitVec 7) (z : Bool) :
    (s.noteHeaderByte h0 z).ReservedClear := by
  refine h.update (s.frame_noteHeaderByte h0 z).outer fun r hr => ?_
  obtain rfl : r = .copc := by simpa [Reg.withReserved] using hr
  refine (State.clear_byte _ rfl rfl).mpr ?_
  rw [State.noteHeaderByte_par]
  split
  · exact zero_append_reserved h0
  · exact (State.clear_byte _ rfl rfl).mp (h .copc rfl)

theorem State.ReservedClear.setSegmentIndices {s : State} (h : s.ReservedClear) {x y : Byte} (hx : x &&& ~~~0x9F = 0x00)
    (hy : y &&& ~~~0x1F = 0x00) : (s.setParsed { s.parsed with rxseg := x, rxsego := y }).ReservedClear := by
  refine h.update (s.frame_setSegmentIndices x y).outer fun r hr => ?_
  have hr' : r = .rxseg ∨ r = .rxsego := by simpa [Reg.withReserved] using hr
  rcases hr' with rfl | rfl
  · exact (State.clear_byte _ rfl rfl).mpr hx
  · exact (State.clear_byte _ rfl rfl).mpr hy

theorem State.ReservedClear.noteSegment {s : State} (h : s.ReservedClear) (g : Segment) : (s.noteSegment g).ReservedClear := by
  have hn : ∀ n : BitVec 5, (1#1 ++ 0#2 ++ n : Byte) &&& ~~~0x9F = 0x00 := by decide
  have ho : ∀ o : BitVec 5, (0#3 ++ o : Byte) &&& ~~~0x1F = 0x00 := by decide
  exact (h.noteHeaderByte g.h0 g.szmic).setSegmentIndices (hn g.segN) (ho g.segO)

/-- An update of the context's flags that writes no other register with reserved bits. -/
theorem State.ReservedClear.update_flags {s t : State} {regs : List Reg} {lo n : Nat} (h : s.ReservedClear)
    (hframe : s.OuterFrame t regs lo n) (hregs : ∀ r ∈ regs, r ∈ Reg.withReserved → r = .rflags) (hflags : t.ctx.FlagsClear) :
    t.ReservedClear := by
  refine h.update hframe fun r hr => ?_
  obtain ⟨hmem, hres⟩ := List.mem_filter.mp hr
  obtain rfl := hregs r hmem (of_decide_eq_true hres)
  exact t.clear_rflags.mpr hflags

theorem RxContext.FlagsClear.newSeqAuth {s : State} (h : s.ctx.FlagsClear) (t : Seq) (z : BitVec 13) : (s.newSeqAuth t z).ctx.FlagsClear := by
  rw [State.newSeqAuth_ctx]
  split
  · exact (h.start t z).setFlag _ _
  split
  · exact (h.start t z).setFlag _ _
  · exact h.start t z

theorem State.ReservedClear.newSeqAuth {s : State} (h : s.ReservedClear) (t : Seq) (z : BitVec 13) : (s.newSeqAuth t z).ReservedClear := by
  refine h.update (s.frame_newSeqAuth t z).outer fun r hr => ?_
  have hr' : r = .lsav ∨ r = .rseqzero ∨ r = .rflags := by simpa [Reg.withReserved] using hr
  rcases hr' with rfl | rfl | rfl
  · have hbit : ∀ x : Byte, x &&& ~~~0x01 = 0x00 → setBit x 0 true &&& ~~~0x01 = 0x00 := by decide +kernel
    refine (State.clear_byte _ rfl rfl).mpr ?_
    rw [State.newSeqAuth_ctx_lsav]
    exact hbit _ ((State.clear_byte _ rfl rfl).mp (h .lsav rfl))
  · refine State.clear_word _ rfl rfl rfl ?_
    rw [State.newSeqAuth_ctx_rseqzero]
    exact seqZero_reserved z
  · exact (State.clear_rflags _).mpr (h.flags.newSeqAuth t z)

theorem State.ReservedClear.sameSeqAuth {s : State} (h : s.ReservedClear) : s.sameSeqAuth.ReservedClear := by
  refine h.update_flags s.frame_sameSeqAuth.outer (by decide) ?_
  rw [State.sameSeqAuth_ctx]
  split
  · exact h.flags.setFlag _ _
  · exact h.flags

theorem State.ReservedClear.joins {s j : State} {t : Seq} {g : Segment} (h : s.ReservedClear) (hj : s.Joins t g j) : j.ReservedClear := by
  cases hj with
  | new => exact (h.begin.noteSegment g).newSeqAuth t g.seqZero
  | same => exact (h.begin.noteSegment g).sameSeqAuth

theorem State.ReservedClear.withSegment {s : State} (h : s.ReservedClear) (g : Segment) : (s.withSegment g).ReservedClear :=
  h.update_plain (s.outerFrame_withSegment g) (by decide)

theorem State.ReservedClear.deliver {s : State} (h : s.ReservedClear) (t : Seq) (segN : BitVec 5) : (s.deliver t segN).ReservedClear := by
  refine h.update_flags (s.frame_deliver t segN).outer (by decide) ?_
  rw [State.deliver_ctx]
  unfold RxContext.FlagsClear
  dsimp only
  split
  · exact ((h.flags.setFlag .incRun false).setFlag .ackSent true).setFlag .ackRun false
  · exact h.flags.setFlag .incRun false

theorem State.ReservedClear.parseUnsegmented {s : State} (h : s.ReservedClear) : s.parseUnsegmented.ReservedClear := by
  have hput := (h.noteHeaderByte ((s.lbuf.getD 0 0).extractLsb' 0 7) false).update_plain
    (((State.frame_refl _).putUbuf (s.lbuf.drop 1)).trans (State.frame_setTseq _ s.par.nseq)).outer (by decide)
  exact ((hput.setSegmentIndices (x := 0) (y := 0) rfl rfl).update_plain (State.frame_raise _ .complete).outer (by simp)).finish .ok

/-- A command keeps the reserved bits 0. -/
theorem State.Ends.reservedClear {s t : State} {i : Instr} (h : s.Ends i t) (hs : s.ReservedClear) : t.ReservedClear := by
  by_cases hplain : ∀ r ∈ i.writes, r ∉ Reg.withReserved
  · obtain ⟨regs, lo, n, hframe, hsub⟩ := h.outerFrame
    exact hs.update_plain hframe fun r hr => hplain r (hsub hr)
  cases h with
  | ltFrame pdu txseg _ htx =>
    refine hs.update (((s.frame_begin.putLbuf pdu).setTxseg txseg).finish .ok).outer fun r hr => ?_
    obtain rfl : r = .txseg := by simpa [Reg.withReserved] using hr
    exact (State.clear_byte _ rfl rfl).mpr htx
  | unsegmented => exact hs.begin.parseUnsegmented
  | ignored g => exact (hs.begin.noteSegment g).finish _
  | pending _ hj => exact ((hs.joins hj).withSegment _).finish _
  | delivered _ hj _ => exact ((hs.joins hj).withSegment _).deliver _ _
  | failed c _ _ => exact hs.begin.finish c
  | incIgnored | ackIgnored => exact hs.begin.finish _
  | incExpired =>
    have habandon := hs.begin.update_flags (State.frame_abandonMessage _).outer (by decide) (hs.flags.setFlag .incRun false)
    split
    · exact (habandon.update_flags (State.frame_cancelAckTimer _).outer (by decide) (habandon.flags.setFlag .ackRun false)).finish .ok
    · exact habandon.finish .ok
  | ackExpired =>
    exact (hs.begin.update_flags (State.frame_sendDueAck _).outer (by decide)
      ((hs.flags.setFlag .ackRun false).setFlag .ackSent true)).finish .ok
  | rxReset =>
    have hcancel := hs.begin.update_plain (State.frame_cancelTimers _).outer (by simp)
    refine (hcancel.update (State.frame_cleared _).outer fun r hr => ?_).finish .ok
    have hr' : r = .rflags ∨ r = .rseqzero := by simpa [Reg.withReserved] using hr
    rcases hr' with rfl | rfl
    · exact (State.clear_rflags _).mpr (((hcancel.flags.setFlag .incRun false).setFlag .ackRun false).setFlag .ackSent false)
    · exact State.clear_word 0 rfl rfl rfl rfl
  | backMatch =>
    refine (State.ReservedClear.update_plain ?_ (State.frame_raiseIf _ _ _).outer (by simp)).finish .ok
    refine hs.update s.frame_matched.outer fun r hr => ?_
    obtain rfl : r = .rxackhdr := by simpa [Reg.withReserved] using hr
    refine State.clear_word _ rfl rfl rfl ?_
    exact ackHeader_reserved _ _
  | nonce _ hi | frameEnc hi | badPayload hi | frameRefused hi | frameOpened hi => exact absurd (by clear hplain; revert i; decide) hplain
  | _ => exact absurd (by decide) hplain

end Sys2Proof.Machine
end

