-- ==== Sys2Proof/Proofs/RepresentationInvariant.lean ====
section
/-! The two memories and the slots along every command, and the representation invariant along every step and at reset (10_state.md R61;
20_memory.md R73; 70_reset_and_hazards.md R290; log 3). -/

namespace Sys2Proof.Machine

/-! The buffers' memory. -/

/-- A memory in canonical form that lists bytes of the buffers alone. -/
def Memory.InBuffers (m : Memory) : Prop := m.wf ∧ ∀ c ∈ m, ∃ r : Reg, r.isBuffer = true ∧ r.base ≤ c.1 ∧ c.1 < r.base + r.size

theorem Memory.InBuffers.writeRange {m : Memory} (h : m.InBuffers) {r : Reg} (hb : r.isBuffer = true) {lo : Nat} {bs : List Byte}
    (hlo : r.base ≤ lo) (hhi : lo + bs.length ≤ r.base + r.size) : (m.writeRange lo bs).InBuffers := by
  refine ⟨Memory.writeRange_wf lo bs h.1, fun c hc => ?_⟩
  rcases Memory.mem_writeRange hc with ⟨hge, hlt⟩ | hold
  · exact ⟨r, hb, by omega, by omega⟩
  · exact h.2 c hold

/-- The capacity counted for UBUF is its size. -/
theorem Memory.InBuffers.writtenIn {m m' : Memory} {regs : List Reg} (h : m.InBuffers) (hw : m.WrittenIn m' regs 384) : m'.InBuffers := by
  rcases hw with rfl | ⟨b, -, hb, lo, bs, hlo, hhi, rfl⟩
  · exact h
  · refine h.writeRange hb hlo ?_
    split at hhi
    · rename_i hubuf
      exact hubuf ▸ hhi
    · exact hhi

theorem Memory.InBuffers.write {m : Memory} (h : m.InBuffers) {r : Reg} (hb : r.isBuffer = true) {j : Nat} (hj : j < r.size) (v : Byte) :
    (m.write (r.base + j) v).InBuffers :=
  h.writeRange (bs := [v]) hb (Nat.le_add_right _ _) (by rw [List.length_singleton]; omega)

/-! The hidden store. -/

/-- The segment store in canonical form, every segment marked as stored with 1 to 12 bytes. -/
structure RxContext.WellStored (c : RxContext) : Prop where
  canonical : c.segbuf.wf
  cells : ∀ cell ∈ c.segbuf, cell.1 < 384
  slots : ∀ i < 32, c.segvalid.getLsbD i = true → 1 ≤ (c.seglen.getD i 0).toNat ∧ (c.seglen.getD i 0).toNat ≤ 12

/-- Unmarking every segment, or none, leaves the store well formed. -/
theorem RxContext.WellStored.congr {c c' : RxContext} (h : c.WellStored) (hbuf : c'.segbuf = c.segbuf) (hlen : c'.seglen = c.seglen)
    (hvalid : c'.segvalid = c.segvalid ∨ c'.segvalid = 0) : c'.WellStored := by
  refine ⟨hbuf ▸ h.canonical, hbuf ▸ h.cells, fun i hi hbit => ?_⟩
  rcases hvalid with hsame | hzero
  · exact hlen ▸ h.slots i hi (hsame ▸ hbit)
  · simp [hzero] at hbit

theorem RxContext.WellStored.store {c : RxContext} (h : c.WellStored) (o : BitVec 5) {p : List Byte} (hlo : 1 ≤ p.length)
    (hhi : p.length ≤ 12) : (c.store o p).WellStored := by
  have ho := o.isLt
  refine ⟨Memory.writeRange_wf _ _ h.canonical, fun cell hc => ?_, fun i hi hbit => ?_⟩
  · rcases Memory.mem_writeRange hc with ⟨-, hlt⟩ | hold
    · omega
    · exact h.cells cell hold
  · have hlen := c.store_seglen o p i
    rw [BitVec.ofNat_eq_ofNat, hlen]
    by_cases hio : i = o.toNat
    · rw [if_pos hio, BitVec.toNat_ofNat, Nat.mod_eq_of_lt (by omega)]
      exact ⟨hlo, hhi⟩
    · rw [if_neg hio]
      refine h.slots i hi ?_
      rw [RxContext.store_segvalid, BitVec.getLsbD_or, segBit_getLsbD, decide_eq_false hio, Bool.or_false] at hbit
      exact hbit

/-- A complete message fits into UBUF. -/
theorem RxContext.WellStored.assembled_length_le {c : RxContext} (h : c.WellStored) {segN : BitVec 5} (hc : c.isComplete segN = true) :
    (c.assembled segN).length ≤ 384 := by
  have hn := segN.isLt
  have hmask : c.segvalid = segmentMask segN := eq_of_beq hc
  refine c.assembled_length_le segN 12 fun i hi => (h.slots i (by omega) ?_).2
  rw [hmask, segmentMask_getLsbD]
  exact decide_eq_true hi

/-- A segment that passes the checks carries 1 to 12 bytes (R191). -/
theorem State.Receives.payload_length {s : State} {g : Segment} {t : Seq} (h : s.Receives g t) :
    g.payload.length = s.len.llen.toNat - 4 := by
  rw [h.fields]
  simp [segmentFields]

theorem State.Receives.payload_bounds {s : State} {g : Segment} {t : Seq} (h : s.Receives g t) :
    1 ≤ g.payload.length ∧ g.payload.length ≤ 12 := by
  obtain ⟨hlo, hhi⟩ := h.length
  have hsize := segmentSize_bounds s.ctl
  rw [h.payload_length]
  omega

theorem State.Joins.wellStored {s j : State} {t : Seq} {g : Segment} (hj : s.Joins t g j) (h : s.ctx.WellStored) : j.ctx.WellStored := by
  cases hj with
  | new => exact h.congr (by simp) (by simp) (.inr (by simp))
  | same => exact h.congr (by simp) (by simp) (.inl (by simp))

theorem State.Joins.wellStored_withSegment {s j : State} {t : Seq} {g : Segment} (hj : s.Joins t g j) (hr : s.Receives g t)
    (h : s.ctx.WellStored) : (j.withSegment g).ctx.WellStored :=
  (hj.wellStored h).store g.segO hr.payload_bounds.1 hr.payload_bounds.2

/-- A command keeps the store well formed. -/
theorem State.Ends.wellStored {s t : State} {i : Instr} (h : s.Ends i t) (hs : s.ctx.WellStored) : t.ctx.WellStored := by
  cases h with
  | unsegmented => exact s.begin.parseUnsegmented_ctx.symm ▸ hs
  | ignored g => exact (State.noteSegment_ctx _ g).symm ▸ hs
  | pending hr hj => exact hj.wellStored_withSegment hr hs
  | delivered hr hj _ => exact (hj.wellStored_withSegment hr hs).congr (by simp) (by simp) (.inr (State.deliver_ctx_segvalid _ _ _))
  | incExpired => exact hs.congr (by split <;> rfl) (by split <;> rfl) (.inr (by split <;> rfl))
  | rxReset =>
    rw [State.finish_ctx, State.setCtx_ctx, State.cancelTimers_ctx]
    exact hs.congr rfl rfl (.inr rfl)
  | backMatch =>
    rw [State.finish_ctx, State.raiseIf_ctx]
    exact hs
  | _ => exact hs.congr rfl rfl (.inl rfl)

/-! The representation invariant. -/

theorem State.Represented.inBuffers {s : State} (h : s.Represented) : s.mem.InBuffers := ⟨h.memory.1, h.cells.1⟩

theorem State.Represented.wellStored {s : State} (h : s.Represented) : s.ctx.WellStored := ⟨h.memory.2, h.cells.2, h.slots⟩

theorem State.Represented.reservedClear {s : State} (h : s.Represented) : s.ReservedClear := h.reserved

theorem State.represented_of_parts {s : State} (hstatus : s.status ∈ StatusCode.all.map StatusCode.toByte) (hreserved : s.ReservedClear)
    (hmem : s.mem.InBuffers) (hstore : s.ctx.WellStored) : s.Represented :=
  ⟨hstatus, hreserved, ⟨hmem.1, hstore.canonical⟩, ⟨hmem.2, hstore.cells⟩, hstore.slots⟩

theorem StatusCode.toByte_mem (c : StatusCode) : c.toByte ∈ StatusCode.all.map StatusCode.toByte :=
  List.mem_map_of_mem (by cases c <;> decide)

/-- A command keeps the representation. -/
theorem State.Ends.represented {s t : State} {i : Instr} (h : s.Ends i t) (hs : s.Represented) : t.Represented := by
  obtain ⟨c, -, hstatus⟩ := h.status
  refine State.represented_of_parts (hstatus ▸ c.toByte_mem) (h.reservedClear hs.reservedClear) ?_ (h.wellStored hs.wellStored)
  exact hs.inBuffers.writtenIn
    (h.mem le_rfl fun hr hj hc => (hj.wellStored_withSegment hr hs.wellStored).assembled_length_le hc)

/-- The host's port is no part of the representation. -/
theorem State.Represented.congr_port {s : State} (h : s.Represented) (p : HostPort) : { s with port := p }.Represented :=
  ⟨h.status, fun r hb => (h.reservedClear r hb).congr (by cases r <;> rfl), h.memory, h.cells, h.slots⟩

theorem State.setRegBytes_status (s : State) (r : Reg) (bs : List Byte) : (s.setRegBytes r bs).status = s.status := by cases r <;> rfl

/-- One byte of a register written without its reserved bits. -/
theorem State.ReservedClear.setRegBytes {s : State} (h : s.ReservedClear) {r : Reg} {j : Nat} (hj : j < r.size) (hw : r.access ≠ .readOnly)
    (hb : r.isBuffer = false) (v : Byte) : (s.setRegBytes r ((s.regBytes r).set j (v &&& r.mask j))).ReservedClear := by
  intro r' hr'
  by_cases hne : r' = r
  · subst hne
    by_cases hc : r' = .cmd
    · exact State.clear_of_not_reserved _ (hc ▸ by decide)
    intro k hk
    rw [State.regBytes_setRegBytes_same s r' _ hw hb hc (by simp)]
    by_cases hkj : j = k
    · subst hkj
      rw [List.getD_eq_getElem _ _ (by simpa using hj), List.getElem_set_self, BitVec.and_assoc, BitVec.and_not_self]
      exact BitVec.and_zero
    · rw [List.getD_eq_getElem?_getD, List.getElem?_set_ne hkj, ← List.getD_eq_getElem?_getD]
      exact h r' hr' k hk
  · exact (h r' hr').congr (s.regBytes_setRegBytes_other r r' _ hne)

/-- A write of the window keeps the representation: reserved bits are dropped, and memory grows inside a buffer alone (R73). -/
theorem State.WritesTo.represented {s t : State} {a : Nat} {v : Byte} (h : s.WritesTo a v t) (hs : s.Represented) : t.Represented := by
  cases h with
  | none => exact hs
  | buffer ha hj hb =>
    subst ha
    exact State.represented_of_parts hs.status (fun r hr => (hs.reservedClear r hr).congr (s.regBytes_setMem _ r hr))
      (hs.inBuffers.write hb hj v) hs.wellStored
  | @reg r j ha hj hw hb =>
    refine State.represented_of_parts (s.setRegBytes_status r _ ▸ hs.status) (hs.reservedClear.setRegBytes hj hw hb v)
      (s.setRegBytes_mem r _ ▸ hs.inBuffers) ?_
    rcases s.setRegBytes_ctx r ((s.regBytes r).set j (v &&& r.mask j)) with hsame | ⟨-, q, l, hctx⟩
    · exact hsame ▸ hs.wellStored
    · exact hctx ▸ hs.wellStored.congr rfl rfl (.inl rfl)

/-! Reset. -/

theorem contentBytes_length (content : Nat → Byte) (addr n : Nat) : (contentBytes content addr n).length = n := by simp [contentBytes]

theorem contentMemory_inBuffers (content : Nat → Byte) : (contentMemory content).InBuffers := by
  have hempty : Memory.InBuffers [] := ⟨Memory.nil_wf, fun c hc => absurd hc List.not_mem_nil⟩
  have hfill {m : Memory} (h : m.InBuffers) {r : Reg} (hb : r.isBuffer = true) :
      (m.writeRange r.base (contentBytes content r.base r.size)).InBuffers :=
    h.writeRange hb le_rfl (by rw [contentBytes_length])
  exact hfill (r := .ubuf) (hfill (r := .abuf) (hfill (r := .nbuf) (hfill (r := .lbuf) hempty rfl) rfl) rfl) rfl

theorem State.resetWith_mem (content : Nat → Byte) (port : HostPort) : (State.resetWith content port).mem = contentMemory content := by
  simp only [State.resetWith]

theorem State.resetWith_segbuf (content : Nat → Byte) (port : HostPort) :
    (State.resetWith content port).ctx.segbuf = Memory.writeRange [] 0 (contentBytes content 0x800 384) := by
  simp only [State.resetWith]

theorem State.resetWith_wellStored (content : Nat → Byte) (port : HostPort) : (State.resetWith content port).ctx.WellStored where
  canonical := State.resetWith_segbuf content port ▸ Memory.writeRange_wf _ _ Memory.nil_wf
  cells cell hc := by
    rw [State.resetWith_segbuf] at hc
    rcases Memory.mem_writeRange hc with ⟨-, hlt⟩ | hold
    · rwa [contentBytes_length, Nat.zero_add] at hlt
    · exact absurd hold List.not_mem_nil
  slots i _ hbit := absurd hbit (by simp [State.resetWith, State.reset])

/-- The registers and buffers whose reset contents are left open (R290). -/
def Reg.unspecified : List Reg := [.kenc, .kpriv, .ktrans, .nonce, .pecb, .ackbuf, .lbuf, .nbuf, .abuf, .ubuf]

theorem beBytes_of_zero {w : Nat} (n : Nat) : beBytes n (0 : BitVec w) = List.replicate n 0x00 := by
  refine List.ext_getElem (by simp) fun j h1 h2 => ?_
  rw [beBytes_getElem, List.getElem_replicate]
  ext k hk
  simp

/-- Every other register is 0 after reset (R290). -/
theorem State.resetWith_regBytes (content : Nat → Byte) (port : HostPort) {r : Reg} (hr : r ∉ Reg.unspecified) :
    (State.resetWith content port).regBytes r = List.replicate r.size 0x00 := by
  cases r with
  | kenc | kpriv | ktrans | nonce | pecb | ackbuf | lbuf | nbuf | abuf | ubuf => exact absurd (by decide) hr
  | cmd => rfl
  | _ => exact beBytes_of_zero _

theorem State.resetWith_reservedClear (content : Nat → Byte) (port : HostPort) : (State.resetWith content port).ReservedClear := by
  have hspecified : ∀ r ∈ Reg.withReserved, r ∉ Reg.unspecified := by decide
  intro r _
  by_cases hr : r ∈ Reg.withReserved
  · intro j hj
    rw [State.resetWith_regBytes content port (hspecified r hr), List.getD_eq_getElem _ _ (by rwa [List.length_replicate]),
      List.getElem_replicate]
    exact BitVec.zero_and
  · exact State.clear_of_not_reserved _ hr

theorem State.resetWith_represented (content : Nat → Byte) (port : HostPort) : (State.resetWith content port).Represented :=
  State.represented_of_parts (StatusCode.toByte_mem .ok) (State.resetWith_reservedClear content port)
    (State.resetWith_mem content port ▸ contentMemory_inBuffers content) (State.resetWith_wellStored content port)

/-- Settles O15: writing 0x00 over no cells leaves no cell. -/
theorem initialStateIsResetWithZeros : Obligations.InitialStateIsResetWithZeros := by
  show State.reset = _
  decide +kernel

/-- Settles O59: after reset nothing is recorded or stored, every register with reserved bits is 0, and the contents left free fill the
buffers and the segment store. -/
theorem resetMeetsTheInvariants : Obligations.ResetMeetsTheInvariants := by
  have hreset : State.reset = _ := initialStateIsResetWithZeros
  refine ⟨fun content port => ⟨State.resetWith_consistent content port, State.resetWith_represented content port⟩, ?_, ?_⟩
  · rw [hreset]
    exact State.resetWith_consistent _ _
  · rw [hreset]
    exact State.resetWith_represented _ _

/-- Settles O58: a command keeps the representation whichever way it ends, a write of the window drops reserved bits and stays inside its
register or buffer, and a reset establishes it. -/
theorem stepKeepsTheRepresentation : Obligations.StepKeepsTheRepresentation := by
  intro s t hs hstep
  cases State.stepsTo_of_step hstep with
  | idle => exact hs
  | read => exact hs.congr_port _
  | command _ hrun => exact (State.ends_of_exec hrun).represented (hs.congr_port _)
  | @illegal _ rest _ =>
    have hpending := hs.congr_port { s.port with pending := rest }
    exact State.represented_of_parts (StatusCode.toByte_mem .errCmd) (hpending.reservedClear.begin.finish .errCmd) hs.inBuffers hs.wellStored
  | write => exact ((s.writesTo _ _).represented hs).congr_port _
  | reset => exact State.resetWith_represented _ _

end Sys2Proof.Machine
end

