-- ==== Sys2Proof/Proofs/ResetValues.lean ====
section
/-! What the reset leaves at each address and what each command does right after it (70_reset_and_hazards.md R290 to R292). -/

namespace Sys2Proof.Machine

/-! What each address reads. -/

theorem getD_contentBytes (content : Nat → Byte) (addr n j : Nat) (hj : j < n) :
    (contentBytes content addr n).getD j 0x00 = content (addr + j) := by
  simp [contentBytes, hj]

/-- A range filled with content reads it; every other address reads as before. -/
theorem Memory.read_writeRange_contentBytes (m : Memory) (content : Nat → Byte) (base n a : Nat) :
    (m.writeRange base (contentBytes content base n)).read a = if base ≤ a ∧ a < base + n then content a else m.read a := by
  have hlen := contentBytes_length content base n
  split
  · rename_i h
    obtain ⟨j, rfl⟩ := Nat.exists_eq_add_of_le h.1
    have hj : j < n := by omega
    rw [Memory.read_writeRange_inside _ _ _ j (hlen.symm ▸ hj)]
    simp [contentBytes]
  · exact Memory.read_writeRange_outside _ _ _ _ (by omega)

/-- Every byte of a buffer is the content given for its address (R292). -/
theorem contentMemory_read (content : Nat → Byte) {r : Reg} (hb : r.isBuffer = true) {j : Nat} (hj : j < r.size) :
    (contentMemory content).read (r.base + j) = content (r.base + j) := by
  simp only [contentMemory, Memory.read_writeRange_contentBytes]
  rcases r.isBuffer_iff.mp hb with rfl | rfl | rfl | rfl <;>
    simp only [Reg.base, Reg.size, lbufBase, nbufBase, abufBase, ubufBase] at hj ⊢ <;> grind

/-- The registers whose contents are left open hold what is given for their addresses. -/
theorem State.resetWith_regBytes_open (content : Nat → Byte) (port : HostPort) {r : Reg} (hr : r ∈ Reg.unspecified)
    (hb : r.isBuffer = false) : (State.resetWith content port).regBytes r = contentBytes content r.base r.size := by
  have hspelled {w : Nat} (n : Nat) (addr : Nat) (hw : w = 8 * n) :
      beBytes n (fromBE w (contentBytes content addr n)) = contentBytes content addr n :=
    beBytes_fromBE w n _ (contentBytes_length _ _ _) (by omega)
  simp only [Reg.unspecified, List.mem_cons, List.not_mem_nil, or_false] at hr
  rcases hr with rfl | rfl | rfl | rfl | rfl | rfl | rfl | rfl | rfl | rfl
  · exact hspelled 16 _ rfl
  · exact hspelled 16 _ rfl
  · exact hspelled 16 _ rfl
  · exact hspelled 13 _ rfl
  · exact hspelled 6 _ rfl
  · exact hspelled 6 _ rfl
  all_goals exact absurd hb (by decide)

/-- R290's readable addresses with contents left open are those of the registers and buffers left open that are not write-only. -/
theorem unspecifiedAddress_eq (r : Reg) (j : Nat) (hj : j < r.size) :
    unspecifiedAddress (r.base + j) = decide (r ∈ Reg.unspecified ∧ r.access ≠ .writeOnly) := by
  have hall : ∀ r ∈ Reg.all, ∀ j < r.size,
      unspecifiedAddress (r.base + j) = decide (r ∈ Reg.unspecified ∧ r.access ≠ .writeOnly) := by decide +kernel
  exact hall r r.mem_all j hj

theorem unspecifiedAddress_of_reserved {a : Nat} (h : reservedAddress a = true) : unspecifiedAddress a = false := by
  rw [reservedAddress_iff] at h
  rw [← Bool.not_eq_true]
  simp only [unspecifiedAddress, Bool.or_eq_true, Bool.and_eq_true, decide_eq_true_eq]
  omega

/-- What a byte of a register or buffer reads after reset. -/
theorem State.resetWith_windowRead (content : Nat → Byte) (port : HostPort) (r : Reg) (j : Nat) (hj : j < r.size) :
    (State.resetWith content port).windowRead (r.base + j) =
      if r ∈ Reg.unspecified ∧ r.access ≠ .writeOnly then content (r.base + j) else 0x00 := by
  have hplain : ∀ r ∈ Reg.unspecified, r ∉ Reg.withReserved := by decide
  by_cases hwo : r.access = .writeOnly
  · rw [State.windowRead_of_writeOnly _ (locate_base_add r j hj) hwo, if_neg fun h => h.2 hwo]
  cases hb : r.isBuffer with
  | true =>
    have hopen : r ∈ Reg.unspecified := by rcases r.isBuffer_iff.mp hb with rfl | rfl | rfl | rfl <;> decide
    rw [State.windowRead_buffer _ r j hj hb, State.resetWith_mem, contentMemory_read content hb hj, if_pos ⟨hopen, hwo⟩]
  | false =>
    rw [State.windowRead_reg _ r j hj hwo hb]
    by_cases hopen : r ∈ Reg.unspecified
    · have hmask : r.mask j = 0xFF := Reg.mask_of_not_reserved (hplain r hopen) j
      rw [State.resetWith_regBytes_open content port hopen hb, getD_contentBytes _ _ _ _ hj, hmask, if_pos ⟨hopen, hwo⟩]
      exact BitVec.and_allOnes
    · rw [State.resetWith_regBytes content port hopen, if_neg fun h => hopen h.1, List.getD_eq_getElem _ _ (by rwa [List.length_replicate]),
        List.getElem_replicate]
      exact BitVec.zero_and

/-- Settles O14: an address is reserved or a byte of a register, and each register is left open or 0. -/
theorem resetLeavesTheStatedValues : Obligations.ResetLeavesTheStatedValues := by
  intro content port s
  refine ⟨fun a ha => ?address, fun j hj => ?keys⟩
  case address =>
    cases hloc : locate a with
    | none =>
      rw [s.windowRead_of_locate_none a hloc, unspecifiedAddress_of_reserved (reservedAddress_of_locate_none a ha hloc)]
      rfl
    | some p =>
      obtain ⟨r, j⟩ := p
      obtain ⟨rfl, hj⟩ := (locate_eq_some a r j).mp hloc
      simp only [s, State.resetWith_windowRead content port r j hj, unspecifiedAddress_eq r j hj, decide_eq_true_eq]
  case keys =>
    have hkey (r : Reg) (k : Key) (hbytes : s.regBytes r = beBytes 16 k) (hr : r ∈ Reg.unspecified) (hb : r.isBuffer = false)
        (hsize : r.size = 16) : k.extractLsb' (8 * (15 - j)) 8 = content (r.base + j) := by
      have hopen := State.resetWith_regBytes_open content port hr hb
      have hbyte := congrArg (List.getD · j 0x00) (hbytes.symm.trans hopen)
      simp only [getD_contentBytes content r.base r.size j (hsize ▸ hj)] at hbyte
      rw [← hbyte, List.getD_eq_getElem _ _ (by rwa [beBytes_length]), beBytes_getElem]
    exact ⟨hkey .kenc _ rfl (by decide) rfl rfl, hkey .kpriv _ rfl (by decide) rfl rfl, hkey .ktrans _ rfl (by decide) rfl rfl⟩

/-! Right after reset (R291). -/

/-- With every length 0 and CCM's key selected, a command that takes a buffer fails with ERR_LEN. -/
theorem exec_of_zero_lengths {s : State} (hlen : s.len = ⟨0, 0, 0, 0⟩) (hksel : s.ksel < 2) {i : Instr}
    (hi : i ∉ [.nonceNet, .nonceApp, .nonceDev, .nonceProxy, .rxReset, .tmrIncExp, .tmrAckExp]) :
    exec i s = .next (s.begin.fail .errLen) := by
  have halen : s.len.alen.toNat = 0 := by rw [hlen]; rfl
  have hulen : s.len.ulen.toNat = 0 := by rw [hlen]; rfl
  have hllen : s.len.llen.toNat = 0 := by rw [hlen]; rfl
  have hnlen : s.len.nlen.toNat = 0 := by rw [hlen]; rfl
  have hencrypt (layout : NonceLayout) : s.encryptFrame layout = s.begin.fail .errLen := by rw [State.encryptFrame_eq, if_pos (by omega)]
  have hdecrypt (layout : NonceLayout) : s.decryptFrame layout = s.begin.fail .errLen := by rw [State.decryptFrame_eq, if_pos (by omega)]
  cases i with
  | nonceNet | nonceApp | nonceDev | nonceProxy | rxReset | tmrIncExp | tmrAckExp => exact absurd (by decide) hi
  | ccmEnc => exact exec_ccmEnc_of_length s hksel (.inl (by omega))
  | ccmDec => exact exec_ccmDec_of_length s hksel (.inl (by omega))
  | utEnc => exact (exec_utEnc s).trans (if_pos (by omega))
  | utDec => exact (exec_utDec s).trans (if_pos (by omega))
  | pecbGen => exact (exec_pecbGen s).trans (if_pos (by omega))
  | hdrObf => exact (exec_hdrObf s).trans (if_pos (by omega))
  | hdrDeobf => exact (exec_hdrDeobf s).trans (if_pos (by omega))
  | netEnc => exact (exec_netEnc s).trans (congrArg _ (hencrypt _))
  | proxyEnc => exact (exec_proxyEnc s).trans (congrArg _ (hencrypt _))
  | netDec => exact (exec_netDec s).trans (congrArg _ (hdecrypt _))
  | proxyDec => exact (exec_proxyDec s).trans (congrArg _ (hdecrypt _))
  | ltFrame => exact (exec_ltFrame s).trans (if_pos (by omega))
  | ltParse =>
    rcases execLtParse_cases s with ⟨-, hrun⟩ | ⟨hlo, -⟩ | ⟨hlo, -⟩ | ⟨hlo, -⟩
    · exact hrun
    all_goals omega
  | backMatch => exact (exec_backMatch s).trans (if_pos (by omega))

/-- Settles O16: after reset every length and every flag is 0. -/
theorem commandsRightAfterReset : Obligations.CommandsRightAfterReset := by
  intro content port i
  have hflag (f : RFlag) : (State.resetWith content port).ctx.flag f = false := BitVec.getLsbD_zero
  by_cases hi : i ∈ [.nonceNet, .nonceApp, .nonceDev, .nonceProxy, .rxReset, .tmrIncExp, .tmrAckExp]
  · simp only [List.mem_cons, List.not_mem_nil, or_false] at hi
    rcases hi with rfl | rfl | rfl | rfl | rfl | rfl | rfl
    · exact ⟨_, exec_nonceNet _, rfl⟩
    · exact ⟨_, exec_nonceApp _, rfl⟩
    · exact ⟨_, exec_nonceDev _, rfl⟩
    · exact ⟨_, exec_nonceProxy _, rfl⟩
    · exact ⟨_, exec_rxReset _, rfl⟩
    · exact ⟨_, exec_tmrIncExp_of_idle _ (hflag .incRun), rfl⟩
    · exact ⟨_, (exec_tmrAckExp _).trans (if_pos (hflag .ackRun)), rfl⟩
  · have hksel : (State.resetWith content port).ksel < 2 := show ((0x00#8).extractLsb' 0 2).toNat < 2 by decide
    refine ⟨_, exec_of_zero_lengths rfl hksel hi, ?_⟩
    simp_all [StatusCode.toByte]

end Sys2Proof.Machine
end

