-- ==== Sys2Proof/Proofs/RoundTrips.lean ====
section
/-! The spec's inferences that one command undoes another (41_ccm.md R139; 42_nonce_upper.md R161; 45_network.md R242, R244). -/

namespace Sys2Proof.Machine

/-! CCM (R139). -/

/-- The part of an encryption before its MIC. -/
theorem ccmEncrypt_take (k : Key) (nonce : Nonce) (m : Nat) (p : List Byte) : (ccmEncrypt k nonce m p).take p.length = ctrCrypt k nonce p :=
  List.take_left' (ctrCrypt_length k nonce p)

/-- Settles O20: the ciphertext part is the stream cipher's, which knows nothing of the MIC. -/
theorem ccmRoundTripAndLengths : Obligations.CcmRoundTripAndLengths := by
  intro k nonce p _
  refine ⟨fun m hm _ => ?_, ?_⟩
  · have hm16 : m ≤ 16 := by omega
    exact ⟨ccmDecrypt_ccmEncrypt k nonce m p hm16, ccmEncrypt_length k nonce m p hm16⟩
  · rw [ccmEncrypt_take, ccmEncrypt_take]

/-! Buffers carried over. -/

/-- A range read from a memory that agrees with another there. -/
theorem Memory.readRange_congr {m m' : Memory} {base n : Nat} (h : ∀ a, base ≤ a → m.read a = m'.read a) :
    m.readRange base n = m'.readRange base n :=
  List.map_congr_left fun j _ => h (base + j) (Nat.le_add_right _ _)

/-- ABUF and ALEN after the plaintext that they held was put back. -/
theorem State.putAbuf_abuf_of (t s : State) (hn : s.len.alen.toNat ≤ 380) :
    (t.putAbuf s.abuf).abuf = s.abuf ∧ (t.putAbuf s.abuf).len.alen = s.len.alen := by
  refine ⟨t.putAbuf_abuf _ (by rwa [State.abuf_length]), ?_⟩
  rw [State.putAbuf_len, State.abuf_length, BitVec.ofNat_toNat, BitVec.setWidth_eq]

/-- A CCM_ENC that succeeds passed R137's checks. -/
theorem ccmEnc_of_ok {s t : State} (hrun : exec .ccmEnc s = .next t) (hok : t.status = 0x00) :
    s.ksel < 2 ∧ (1 ≤ s.len.alen.toNat ∧ s.len.alen.toNat ≤ 380 ∧ s.len.alen.toNat + transMicLen s.micl ≤ 384) ∧
      t = (s.begin.putUbuf (ccmEncrypt s.rawKey s.nonce (transMicLen s.micl) s.abuf)).finish .ok := by
  have hfails {c : StatusCode} (h : exec .ccmEnc s = .next (s.begin.fail c)) : c.toByte = 0x00 := by
    cases hrun.symm.trans h
    exact hok
  by_cases hk : 2 ≤ s.ksel
  · exact absurd (hfails (exec_ccmEnc_of_ksel s hk)) (by decide)
  by_cases hlen : s.len.alen.toNat < 1 ∨ 380 < s.len.alen.toNat ∨ 384 < s.len.alen.toNat + transMicLen s.micl
  · exact absurd (hfails (exec_ccmEnc_of_length s (by omega) hlen)) (by decide)
  have hrange : 1 ≤ s.len.alen.toNat ∧ s.len.alen.toNat ≤ 380 ∧ s.len.alen.toNat + transMicLen s.micl ≤ 384 := by omega
  exact ⟨by omega, hrange, Host.Outcome.next.inj (hrun.symm.trans (exec_ccmEnc_of_valid s (by omega) hrange.1 hrange.2.1 hrange.2.2))⟩

/-- Settles O23: what CCM_DEC reads is what CCM_ENC left, and it opens to the plaintext. -/
theorem ccmDecUndoesCcmEnc : Obligations.CcmDecUndoesCcmEnc := by
  intro s t m n hrun hok hmem
  obtain ⟨hk, ⟨h1, h380, h384⟩, ht⟩ := ccmEnc_of_ok hrun hok
  have hm := transMicLen_bounds s.micl
  have hm16 : transMicLen s.micl ≤ 16 := by omega
  have hlen := ccmEncrypt_length s.rawKey s.nonce (transMicLen s.micl) s.abuf hm16
  rw [State.abuf_length] at hlen
  have hcap : (ccmEncrypt s.rawKey s.nonce (transMicLen s.micl) s.abuf).length ≤ 384 := hlen.trans_le h384
  let r : State := { t with mem := m, len := { t.len with alen := n } }
  have hubuf : r.ubuf = ccmEncrypt s.rawKey s.nonce (transMicLen s.micl) s.abuf := by
    have hsame : r.ubuf = t.ubuf := Memory.readRange_congr hmem
    rw [hsame, ht]
    exact State.putUbuf_ubuf _ _ hcap
  have hulen : r.len.ulen.toNat = s.len.alen.toNat + transMicLen s.micl := by
    have hsame : r.len.ulen = t.len.ulen := rfl
    rw [hsame, ht]
    exact (State.putUbuf_ulen_toNat _ _ hcap).trans hlen
  have hoperands : r.ksel = s.ksel ∧ r.micl = s.micl ∧ r.rawKey = s.rawKey ∧ r.nonce = s.nonce := by
    simp only [r, ht]
    exact ⟨rfl, rfl, rfl, rfl⟩
  obtain ⟨hksel, hmicl, hkey, hnonce⟩ := hoperands
  have hdec := exec_ccmDec_of_valid r (hksel ▸ hk) (by rw [hmicl, hulen]; omega) (by rw [hulen]; exact h384)
  rw [hubuf, hmicl, hkey, hnonce, ccmDecrypt_ccmEncrypt _ _ _ _ hm16] at hdec
  obtain ⟨habuf, halen⟩ := r.begin.putAbuf_abuf_of s h380
  exact ⟨_, hdec, rfl, habuf, halen⟩

/-! Upper transport (R161). -/

/-- A UT_ENC that succeeds passed R158's checks. -/
theorem utEnc_of_ok {s t : State} (hrun : exec .utEnc s = .next t) (hok : t.status = 0x00) :
    (1 ≤ s.len.alen.toNat ∧ s.len.alen.toNat ≤ 380 ∧ s.len.alen.toNat + transMicLen s.effectiveAszmic ≤ 384) ∧
      t = ((s.begin.setNonce (s.upperNonce s.effectiveAszmic)).putUbuf
        (ccmEncrypt s.keys.ktrans (s.upperNonce s.effectiveAszmic) (transMicLen s.effectiveAszmic) s.abuf)).finish .ok := by
  rw [exec_utEnc] at hrun
  split at hrun
  · cases hrun
    have herr : StatusCode.errLen.toByte = 0x00 := hok
    exact absurd herr (by decide)
  · exact ⟨by omega, (Host.Outcome.next.inj hrun).symm⟩

/-- SZMIC is no part of what selects a nonce's type and fields. -/
theorem State.upperNonce_setSzmic (s : State) (b flag : Bool) :
    (s.setPar { s.par with tctrl := setBit s.par.tctrl 7 b }).upperNonce flag = s.upperNonce flag := by
  have hakf : (s.setPar { s.par with tctrl := setBit s.par.tctrl 7 b }).akf = s.akf := setBit_getLsbD _ 7 b 6 (by decide)
  simp only [State.upperNonce, State.transportType, hakf]
  rfl

/-- Settles O26: UT_DEC under the effective flag computes the nonce and MIC length of UT_ENC, and opens what it left. -/
theorem utDecUndoesUtEnc : Obligations.UtDecUndoesUtEnc := by
  intro s t hrun hok long
  obtain ⟨⟨h1, h380, h384⟩, ht⟩ := utEnc_of_ok hrun hok
  have hlong : s.effectiveAszmic = long := rfl
  rw [hlong] at h384 ht
  have hm := transMicLen_bounds long
  have hm16 : transMicLen long ≤ 16 := by omega
  have hlen := ccmEncrypt_length s.keys.ktrans (s.upperNonce long) (transMicLen long) s.abuf hm16
  rw [State.abuf_length] at hlen
  have hcap : (ccmEncrypt s.keys.ktrans (s.upperNonce long) (transMicLen long) s.abuf).length ≤ 384 := hlen.trans_le h384
  let r : State := t.setPar { t.par with tctrl := setBit t.par.tctrl 7 long }
  have hszmic : r.szmic = long := setBit_same _ _ _ (by decide)
  have hnonce : r.upperNonce long = s.upperNonce long := (t.upperNonce_setSzmic long long).trans (ht ▸ rfl)
  have hkey : r.keys.ktrans = s.keys.ktrans := by
    simp only [r, ht]
    rfl
  have hubuf : r.ubuf = ccmEncrypt s.keys.ktrans (s.upperNonce long) (transMicLen long) s.abuf := by
    have hsame : r.ubuf = t.ubuf := rfl
    rw [hsame, ht]
    exact State.putUbuf_ubuf _ _ hcap
  have hulen : r.len.ulen.toNat = s.len.alen.toNat + transMicLen long := by
    have hsame : r.len.ulen = t.len.ulen := rfl
    rw [hsame, ht]
    exact (State.putUbuf_ulen_toNat _ _ hcap).trans hlen
  have hdec := exec_utDec r
  rw [hszmic, hulen, if_neg (by omega), hubuf, hnonce, hkey, ccmDecrypt_ccmEncrypt _ _ _ _ hm16] at hdec
  obtain ⟨habuf, halen⟩ := (r.begin.setNonce (s.upperNonce long)).putAbuf_abuf_of s h380
  exact ⟨_, hdec, rfl, habuf, halen⟩

/-! The network header (R242). -/

theorem headerCtlTtl_append (c : Byte) (q : Seq) (a : MeshAddr) : headerCtlTtl (c ++ q ++ a : Six) = c := by
  apply BitVec.eq_of_toNat_eq
  rw [headerCtlTtl, BitVec.extractLsb'_toNat, toNat_append_eq, toNat_append_eq, Nat.shiftRight_eq_div_pow]
  omega

theorem headerSeq_append (c : Byte) (q : Seq) (a : MeshAddr) : headerSeq (c ++ q ++ a : Six) = q := by
  apply BitVec.eq_of_toNat_eq
  rw [headerSeq, BitVec.extractLsb'_toNat, toNat_append_eq, toNat_append_eq, Nat.shiftRight_eq_div_pow]
  omega

theorem headerSrc_append (c : Byte) (q : Seq) (a : MeshAddr) : headerSrc (c ++ q ++ a : Six) = a := by
  apply BitVec.eq_of_toNat_eq
  rw [headerSrc, BitVec.extractLsb'_toNat, toNat_append_eq, toNat_append_eq, Nat.shiftRight_eq_div_pow]
  omega

/-- The three registers taken back from the header they spelled. -/
theorem State.header_fields (s : State) :
    headerCtlTtl s.header = s.par.ctlttl ∧ headerSeq s.header = s.par.nseq ∧ headerSrc s.header = s.par.src :=
  ⟨headerCtlTtl_append _ _ _, headerSeq_append _ _ _, headerSrc_append _ _ _⟩

theorem State.par_withHeader (s : State) : s.par.withHeader s.header = s.par := by
  obtain ⟨hctlttl, hnseq, hsrc⟩ := s.header_fields
  rw [ParamRegs.withHeader, hctlttl, hnseq, hsrc]

/-- The header spelled by registers taken from it. -/
theorem State.header_withHeader (s : State) (p : ParamRegs) (h : Six) : (s.setPar (p.withHeader h)).header = h := by
  have hbytes := (s.setPar (p.withHeader h)).headerBytes_of_header h rfl rfl rfl
  rw [← State.beBytes_header] at hbytes
  rw [← fromBE_beBytes 6 (s.setPar (p.withHeader h)).header rfl, hbytes, fromBE_beBytes 6 h rfl]

/-- NBUF's header after one was written to it. -/
theorem State.nbufHeader_of_putNbufHeader (s t : State) (h : Six) (hmem : t.mem = (s.putNbufHeader h).mem) : t.nbufHeader = h := by
  rw [← fromBE_beBytes 6 t.nbufHeader rfl, t.beBytes_nbufHeader, s.windowBytes_of_putNbufHeader t h hmem, fromBE_beBytes 6 h rfl]

theorem xor_xor_cancel {w : Nat} (x y : BitVec w) : x ^^^ y ^^^ y = x := by
  rw [BitVec.xor_assoc, BitVec.xor_self, BitVec.xor_zero]

/-- HDR_DEOBF where NBUF holds the obfuscated header of `s`. -/
theorem exec_hdrDeobf_of_obfuscated {s r : State} (hlen : 8 ≤ r.len.nlen.toNat) (hpecb : r.pecb = s.pecb)
    (hmem : r.mem = (s.begin.putNbufHeader (s.header ^^^ s.pecb)).mem) :
    exec .hdrDeobf r = .next ((r.begin.setPar (r.par.withHeader s.header)).finish .ok) := by
  rw [exec_hdrDeobf, if_neg (by omega), State.nbufHeader_of_putNbufHeader s.begin r _ hmem, hpecb, xor_xor_cancel]

/-- HDR_OBF where the registers hold the header that NBUF of `s` de-obfuscates to. -/
theorem exec_hdrObf_of_deobfuscated {s r : State} (hlen : 8 ≤ r.len.nlen.toNat) (hpecb : r.pecb = s.pecb)
    (hheader : r.header = s.nbufHeader ^^^ s.pecb) : exec .hdrObf r = .next ((r.begin.putNbufHeader s.nbufHeader).finish .ok) := by
  rw [exec_hdrObf, if_neg (by omega), hheader, hpecb, xor_xor_cancel]

/-- Settles O29: each command xors what the other left with the same PECB. -/
theorem obfuscationIsAnInvolution : Obligations.ObfuscationIsAnInvolution := by
  intro s hlen
  refine ⟨⟨_, (exec_hdrObf s).trans (if_neg (by omega)), fun c q r => ?deobfuscated⟩,
    _, (exec_hdrDeobf s).trans (if_neg (by omega)), fun bs _ => ?obfuscated⟩
  case deobfuscated => exact ⟨_, exec_hdrDeobf_of_obfuscated (s := s) hlen rfl rfl, rfl, s.par_withHeader⟩
  case obfuscated =>
    have hheader := s.header_withHeader s.par (s.nbufHeader ^^^ s.pecb)
    exact ⟨_, exec_hdrObf_of_deobfuscated (s := s) hlen rfl hheader, rfl,
      (State.windowBytes_of_putNbufHeader _ _ _ rfl).trans s.beBytes_nbufHeader⟩

/-! The frame (R244). -/

/-- A frame encryption that succeeds built a frame. -/
theorem State.encryptFrame_of_ok {s : State} {layout : NonceLayout} (hok : (s.encryptFrame layout).status = 0x00) :
    (1 ≤ s.len.llen.toNat ∧ s.len.llen.toNat ≤ 16) ∧ s.encryptFrame layout =
      (((s.begin.setNonce (s.frameNonce layout)).setPecb (s.framePecb layout)).putNbuf (s.builtFrame layout)).finish .ok := by
  rw [State.encryptFrame_eq] at hok ⊢
  split at hok
  · have herr : StatusCode.errLen.toByte = 0x00 := hok
    exact absurd herr (by decide)
  · rename_i hlen
    exact ⟨by omega, if_neg hlen⟩

/-- NBUF read in the pieces a frame is made of. -/
theorem State.nbuf_eq_pieces (r : State) (h : 8 ≤ r.len.nlen.toNat) :
    r.nbuf = [r.mem.read 0x0A0, r.mem.read 0x0A1] ++ r.mem.readRange 0x0A2 6 ++ r.mem.readRange 0x0A8 (r.len.nlen.toNat - 8) := by
  obtain ⟨k, hk⟩ := Nat.exists_eq_add_of_le h
  rw [State.nbuf, hk, Memory.readRange_add, Memory.readRange_add _ _ 2 6, Nat.add_sub_cancel_left]
  rfl

/-- `r` holds in NBUF the frame that `s` builds under a layout, and shares its NetKey's material. -/
structure State.Carries (r s : State) (layout : NonceLayout) : Prop where
  kenc : r.keys.kenc = s.keys.kenc
  kpriv : r.keys.kpriv = s.keys.kpriv
  nid : r.par.nid &&& 0x7F = s.par.nid &&& 0x7F
  ivindex : r.par.ivindex = s.par.ivindex
  short : 1 ≤ s.len.llen.toNat
  long : s.len.llen.toNat ≤ 16
  nbuf : r.nbuf = s.builtFrame layout
  nlen : r.len.nlen.toNat = (s.builtFrame layout).length

section
variable {r s : State} {layout : NonceLayout} (h : r.Carries s layout)
include h

theorem State.Carries.nlen_eq : r.len.nlen.toNat = 10 + s.len.llen.toNat + netMicLen s.ctl := h.nlen.trans (s.builtFrame_length layout)

theorem State.Carries.pieces : r.mem.read 0x0A0 = s.par.pdutype ∧ r.mem.read 0x0A1 = s.iviNid ∧
    r.nbufHeader = s.header ^^^ s.framePecb layout ∧ r.mem.readRange 0x0A8 (r.len.nlen.toNat - 8) = s.encryptedPayload layout := by
  have hframe := h.nbuf
  rw [r.nbuf_eq_pieces (by rw [h.nlen_eq]; omega), State.builtFrame, State.frameOf] at hframe
  obtain ⟨hhead, hpayload⟩ := List.append_inj hframe (by simp)
  obtain ⟨hfirst, hheader⟩ := List.append_inj hhead rfl
  obtain ⟨hpdutype, hnid⟩ : r.mem.read 0x0A0 = s.par.pdutype ∧ r.mem.read 0x0A1 = s.iviNid := by simpa using hfirst
  refine ⟨hpdutype, hnid, ?_, hpayload⟩
  rw [State.nbufHeader, show nbufBase + 2 = 0x0A2 from rfl, hheader, fromBE_beBytes 6 _ rfl]

/-- The receiver computes the sender's PECB from the payload. -/
theorem State.Carries.nbufPecb : r.nbufPecb = s.framePecb layout := by
  obtain ⟨-, -, -, hpayload⟩ := h.pieces
  have hlen : 7 ≤ r.len.nlen.toNat - 8 := by
    have hm := netMicLen_bounds s.ctl
    have hlo := h.short
    rw [h.nlen_eq]
    omega
  have hrandom : r.mem.readRange (nbufBase + 8) 7 = (s.encryptedPayload layout).take 7 := by
    rw [← hpayload, Memory.readRange_take _ _ _ 7 hlen]
    rfl
  rw [State.nbufPecb, State.framePecb, State.nbufRandom, h.kpriv, h.ivindex, hrandom, privacyRandom, privacyRandom, List.take_take,
    Nat.min_self]

theorem State.Carries.candidate : r.candidate = s.header := by
  obtain ⟨-, -, hheader, -⟩ := h.pieces
  rw [State.candidate, hheader, h.nbufPecb, xor_xor_cancel]

theorem State.Carries.candidateMic : r.candidateMic = netMicLen s.ctl := by
  obtain ⟨hctlttl, -, -⟩ := s.header_fields
  rw [State.candidateMic_eq, h.candidate, hctlttl, State.ctl]

/-- The cipher answers the sender's plaintext. -/
theorem State.Carries.cipherAnswer : r.cipherAnswer layout = some s.networkPlaintext := by
  obtain ⟨-, -, -, hpayload⟩ := h.pieces
  obtain ⟨hctlttl, hnseq, hsrc⟩ := s.header_fields
  have hnonce : r.candidateNonce layout = s.frameNonce layout := by
    rw [State.candidateNonce, h.candidate, hctlttl, hnseq, hsrc, h.ivindex, State.frameNonce]
  have hm := netMicLen_bounds s.ctl
  rw [State.cipherAnswer, h.kenc, hnonce, h.candidateMic, hpayload, State.encryptedPayload, ccmDecrypt_ccmEncrypt _ _ _ _ (by omega)]

theorem State.Carries.decryptFrame : r.decryptFrame layout = r.opened layout s.networkPlaintext := by
  obtain ⟨-, hnid, -, -⟩ := h.pieces
  have hivi : ∀ (b : Bool) (n : Byte), (BitVec.ofBool b ++ n.extractLsb' 0 7 : Byte) &&& 0x7F = n &&& 0x7F := by decide
  have hsame : r.mem.read 0x0A1 &&& 0x7F = r.par.nid &&& 0x7F := by rw [hnid, h.nid, State.iviNid, State.nid7, hivi]
  have hlen := h.nlen_eq
  have hm := netMicLen_bounds s.ctl
  have hlo := h.short
  have hhi := h.long
  rw [State.decryptFrame_eq, h.candidateMic, if_neg (by omega), if_neg (not_not.mpr hsame), if_neg (by omega), h.cipherAnswer]
  rfl

end

/-- Settles O32: the receiver computes the sender's PECB, header, nonce and MIC length from the frame, and the cipher answers the
plaintext. -/
theorem frameRoundTrip : Obligations.FrameRoundTrip := by
  intro enc dec s t r hpair hrun hok hkenc hkpriv hnid hivindex hnbuf hnlen
  obtain ⟨layout, henc, hdec⟩ : ∃ layout, exec enc s = .next (s.encryptFrame layout) ∧ exec dec r = .next (r.decryptFrame layout) := by
    have hcases : (enc = .netEnc ∧ dec = .netDec) ∨ (enc = .proxyEnc ∧ dec = .proxyDec) := by simpa using hpair
    rcases hcases with ⟨rfl, rfl⟩ | ⟨rfl, rfl⟩
    · exact ⟨networkNonce, exec_netEnc s, exec_netDec r⟩
    · exact ⟨proxyNonce, exec_proxyEnc s, exec_proxyDec r⟩
  obtain rfl := Host.Outcome.next.inj (hrun.symm.trans henc)
  obtain ⟨⟨hlo, hhi⟩, hbuilt⟩ := State.encryptFrame_of_ok hok
  have hm := netMicLen_bounds s.ctl
  have hcap : (s.builtFrame layout).length ≤ 34 := by rw [State.builtFrame_length]; omega
  rw [hbuilt] at hnbuf hnlen
  have hcarries : r.Carries s layout := ⟨hkenc, hkpriv, hnid, hivindex, hlo, hhi, hnbuf.trans (State.putNbuf_nbuf _ _ hcap),
    (congrArg BitVec.toNat hnlen).trans (State.putNbuf_nlen_toNat _ _ hcap)⟩
  obtain ⟨hpdutype, -, -, -⟩ := hcarries.pieces
  obtain ⟨hctlttl, hnseq, hsrc⟩ := s.header_fields
  have hlower : s.networkPlaintext.drop 2 = s.lbuf := List.drop_left' (beBytes_length 2 _)
  have hdst : fromBE 16 (s.networkPlaintext.take 2) = s.par.dst := by
    rw [State.networkPlaintext, List.take_left' (beBytes_length 2 _), fromBE_beBytes 2 _ rfl]
  have hcandidate := hcarries.candidate
  refine ⟨_, hdec.trans (congrArg _ hcarries.decryptFrame), rfl, hpdutype, ?_, ?_, ?_, hdst, ?_, ?_⟩
  · exact (congrArg headerCtlTtl hcandidate).trans hctlttl
  · exact (congrArg headerSeq hcandidate).trans hnseq
  · exact (congrArg headerSrc hcandidate).trans hsrc
  · rw [State.opened, hlower]
    exact State.putLbuf_lbuf _ _ (by rwa [State.lbuf_length])
  · rw [State.opened, hlower, State.finish_len, State.putLbuf_len, State.lbuf_length, BitVec.ofNat_toNat, BitVec.setWidth_eq]

end Sys2Proof.Machine
end

