-- ==== Sys2Proof/Proofs/Segments.lean ====
section
/-! Segments between the framer and the parser (43_segmentation.md R172, R174, R179; 44_reassembly.md R191, R194, R200, R213): header fields
read back, slices concatenated, the sequence number reconciled, the format checks, and the segment store filled in any order. -/

namespace Sys2Proof.Machine

/-! Header fields (R172, R200). -/

/-- Settles O35: each field is a part of a header byte, or two parts that stand side by side. -/
theorem segmentHeaderReadsBack : Obligations.SegmentHeaderReadsBack := by
  intro h0 szmic z segO segN payload
  have hszmic : (BitVec.ofBool szmic ++ z.extractLsb' 6 7 : Byte).getLsbD 7 = szmic := by
    rw [BitVec.getLsbD_append, if_neg (by decide)]
    cases szmic <;> rfl
  have hz : z.extractLsb' 6 7 ++ z.extractLsb' 0 6 = z := BitVec.extractLsb'_append_extractLsb' (w := 7) (len := 6)
  have hsegO : segO.extractLsb' 3 2 ++ segO.extractLsb' 0 3 = segO := BitVec.extractLsb'_append_extractLsb' (w := 2) (len := 3)
  simp only [segmentFields, segmentHeader, List.cons_append, List.nil_append, List.getD_cons_zero, List.getD_cons_succ,
    BitVec.extractLsb'_append_eq_right, BitVec.extractLsb'_append_eq_left, hszmic, hz, hsegO, List.drop_succ_cons, List.drop_zero]

/-! Slices (R174). -/

/-- The first slices of a byte string, concatenated. -/
theorem flatMap_segmentSlice (upper : List Byte) (size k : Nat) :
    (List.range k).flatMap (segmentSlice upper size) = upper.take (k * size) := by
  induction k with
  | zero => simp
  | succ k ih => rw [List.range_succ, List.flatMap_append, ih, List.flatMap_singleton, segmentSlice, Nat.succ_mul, List.take_add]

theorem le_ceilDiv_mul_size (n size : Nat) (hsize : 0 < size) : n ≤ ceilDiv n size * size := by
  have hdiv := Nat.div_add_mod (n + size - 1) size
  have hmod := Nat.mod_lt (n + size - 1) hsize
  rw [ceilDiv, Nat.mul_comm]
  omega

/-- All slices of a byte string, concatenated. -/
theorem flatMap_segmentSlice_all (upper : List Byte) (size : Nat) (hsize : 0 < size) :
    (List.range (ceilDiv upper.length size)).flatMap (segmentSlice upper size) = upper := by
  rw [flatMap_segmentSlice, List.take_of_length_le (le_ceilDiv_mul_size _ _ hsize)]

/-! The segments of one message (R179). -/

/-- LT_FRAME's result for a segment of a message of more than one (R176). -/
theorem exec_ltFrame_of_segment (s : State) (hlo : segmentSize s.ctl < s.len.ulen.toNat) (hhi : s.len.ulen.toNat ≤ 32 * segmentSize s.ctl)
    (hi : s.segIndex.toNat ≤ ceilDiv s.len.ulen.toNat (segmentSize s.ctl) - 1) :
    exec .ltFrame s = .next (s.begin.framed
      (segmentHeader s.headerBits (!s.ctl && s.szmic) s.tseqZero s.segIndex
          (BitVec.ofNat 5 (ceilDiv s.len.ulen.toNat (segmentSize s.ctl) - 1)) ++
        segmentSlice s.ubuf (segmentSize s.ctl) s.segIndex.toNat)
      (txSegOf true (BitVec.ofNat 5 (ceilDiv s.len.ulen.toNat (segmentSize s.ctl) - 1)))) := by
  rw [exec_ltFrame, if_neg (by omega), if_neg (by omega), if_neg (by omega)]

theorem segmentHeader_length (h0 : BitVec 7) (szmic : Bool) (z : BitVec 13) (segO segN : BitVec 5) :
    (segmentHeader h0 szmic z segO segN).length = 4 := rfl

/-- What LT_FRAME builds for segment `i`. -/
theorem State.framedAt_eq (s : State) {i : Nat} (hlo : segmentSize s.ctl < s.len.ulen.toNat) (hhi : s.len.ulen.toNat ≤ 32 * segmentSize s.ctl)
    (hi : i < ceilDiv s.len.ulen.toNat (segmentSize s.ctl)) :
    s.framedAt i = segmentHeader s.headerBits (!s.ctl && s.szmic) s.tseqZero (BitVec.ofNat 5 i)
      (BitVec.ofNat 5 (ceilDiv s.len.ulen.toNat (segmentSize s.ctl) - 1)) ++ segmentSlice s.ubuf (segmentSize s.ctl) i := by
  obtain ⟨hpos, h12⟩ := segmentSize_bounds s.ctl
  have hlast := ceilDiv_sub_one_lt s.len.ulen.toNat _ 32 (by omega) hpos hhi
  have hindex : (s.setPar { s.par with sego := BitVec.ofNat 8 i }).segIndex = BitVec.ofNat 5 i := by
    rw [State.segIndex_eq_ofNat]
    apply BitVec.eq_of_toNat_eq
    simp
  have hi32 : (BitVec.ofNat 5 i).toNat = i := by
    rw [BitVec.toNat_ofNat]
    omega
  have hrun := exec_ltFrame_of_segment (s.setPar { s.par with sego := BitVec.ofNat 8 i }) hlo hhi
    (by rw [hindex, hi32]; exact Nat.le_sub_one_of_lt hi)
  rw [hindex, hi32] at hrun
  unfold State.framedAt
  rw [hrun]
  refine (if_pos rfl).trans (State.putLbuf_lbuf _ _ ?_)
  rw [List.length_append, segmentHeader_length, segmentSlice, List.length_take]
  exact Nat.add_le_add_left ((Nat.min_le_left _ _).trans h12) 4

/-- A slice that begins inside the message is not empty. -/
theorem segmentSlice_length_pos {upper : List Byte} {size i : Nat} (hsize : 0 < size) (hi : i < ceilDiv upper.length size) :
    0 < (segmentSlice upper size i).length := by
  have hn : 0 < upper.length := Nat.pos_of_ne_zero fun h0 => by
    rw [h0, ceilDiv, Nat.zero_add, Nat.div_eq_of_lt (Nat.sub_one_lt_of_lt hsize)] at hi
    exact absurd hi (Nat.not_lt_zero i)
  have hinside := mul_lt_of_le_ceilDiv_sub_one upper.length size i hn hsize (Nat.le_sub_one_of_lt hi)
  rw [segmentSlice, List.length_take, List.length_drop]
  omega

/-- Settles O34: the headers differ in SegO alone, which stands in their last two bytes, and the slices are UBUF cut up. -/
theorem segmentsConcatenateToTheMessage : Obligations.SegmentsConcatenateToTheMessage := by
  intro s size n hlo hhi
  have hpos : 0 < size := (segmentSize_bounds s.ctl).1
  have hframed {i : Nat} (hi : i < ceilDiv n size) := s.framedAt_eq hlo hhi hi
  have hpayload {i : Nat} (hi : i < ceilDiv n size) : (s.framedAt i).drop 4 = segmentSlice s.ubuf size i := by
    rw [hframed hi, List.drop_left' (segmentHeader_length _ _ _ _ _)]
    rfl
  have hn : s.ubuf.length = n := s.ubuf_length
  refine ⟨?concatenation, fun i hi => ⟨?header, ?length⟩⟩
  case concatenation =>
    have hall := flatMap_segmentSlice_all s.ubuf size hpos
    rw [hn] at hall
    rw [← hall]
    exact List.flatMap_congr fun i hi => hpayload (List.mem_range.mp hi)
  case header =>
    rw [hframed hi, hframed (Nat.zero_lt_of_lt hi)]
    rfl
  case length =>
    have hslice := segmentSlice_length_pos (upper := s.ubuf) hpos (by rwa [hn])
    rw [← hpayload hi, List.length_drop] at hslice
    omega

/-! Reconciliation (R194). -/

/-- Settles O36: the candidate is NSEQ with its low 13 bits replaced, less 0x2000 where that is above NSEQ. -/
theorem reconciledSequenceNumber : Obligations.ReconciledSequenceNumber := by
  refine ⟨fun nseq z t => ?_, fun nseq z => ?_⟩
  · have hnseq := nseq.isLt
    have hz := z.isLt
    have ht := t.isLt
    unfold reconcile
    dsimp only
    split
    · split
      · simp only [reduceCtorEq, false_iff]
        omega
      · rw [Option.some_inj, ← BitVec.toNat_inj, BitVec.toNat_ofNat]
        omega
    · rw [Option.some_inj, ← BitVec.toNat_inj, BitVec.toNat_ofNat]
      omega
  · have hz := z.isLt
    unfold reconcile
    dsimp only
    split
    · split
      · simp only [true_iff]
        omega
      · simp only [reduceCtorEq, false_iff]
        omega
    · simp only [reduceCtorEq, false_iff]
      omega

end Sys2Proof.Machine
end

