-- ==== Sys2Proof/Proofs/SegmentStore.lean ====
section
/-! The segment store filled in any order (44_reassembly.md R201 to R203, R213 (g)). -/

namespace Sys2Proof.Machine

/-! One slot. -/

/-- Slot `o` holds a segment's bytes, no more than a slot has room for. -/
def RxContext.Holds (c : RxContext) (o : BitVec 5) (bs : List Byte) : Prop :=
  c.slot o.toNat = bs ∧ (c.seglen.getD o.toNat 0).toNat ≤ 12

theorem RxContext.holds_store_same (c : RxContext) (o : BitVec 5) {bs : List Byte} (h : bs.length ≤ 12) : (c.store o bs).Holds o bs := by
  refine ⟨c.slot_store_same o bs (by omega), ?_⟩
  have hlen := c.store_seglen o bs o.toNat
  rw [if_pos rfl] at hlen
  rw [BitVec.ofNat_eq_ofNat, hlen, BitVec.toNat_ofNat]
  omega

/-- Storing another segment leaves a slot. -/
theorem RxContext.Holds.store_other {c : RxContext} {o o' : BitVec 5} {bs bs' : List Byte} (h : c.Holds o bs) (hne : o ≠ o')
    (hlen : bs'.length ≤ 12) : (c.store o' bs').Holds o bs := by
  have hne' : o.toNat ≠ o'.toNat := fun heq => hne (BitVec.eq_of_toNat_eq heq)
  obtain ⟨hslot, hbound⟩ := h
  refine ⟨(c.slot_store_other o' bs' o.toNat hlen hne' hbound).trans hslot, ?_⟩
  have hkeep := c.store_seglen o' bs' o.toNat
  rw [if_neg hne'] at hkeep
  rw [BitVec.ofNat_eq_ofNat, hkeep]
  exact hbound

/-! Segments stored one after another, each with the bytes that belong to its index. -/

/-- The segments of a list of indices stored in its order. -/
def RxContext.storeAll (c : RxContext) (part : BitVec 5 → List Byte) (order : List (BitVec 5)) : RxContext :=
  order.foldl (fun c o => c.store o (part o)) c

theorem RxContext.storeAll_append_singleton (c : RxContext) (part : BitVec 5 → List Byte) (order : List (BitVec 5)) (o : BitVec 5) :
    c.storeAll part (order ++ [o]) = (c.storeAll part order).store o (part o) := by
  rw [RxContext.storeAll, List.foldl_append]
  rfl

/-- Every slot whose index was stored holds its bytes, whatever was stored after it. -/
theorem RxContext.storeAll_holds (c : RxContext) {part : BitVec 5 → List Byte} (hpart : ∀ o, (part o).length ≤ 12)
    {order : List (BitVec 5)} {o : BitVec 5} (ho : o ∈ order) : (c.storeAll part order).Holds o (part o) := by
  induction order using List.reverseRecOn with
  | nil => exact absurd ho List.not_mem_nil
  | append_singleton order last ih =>
    rw [RxContext.storeAll_append_singleton]
    by_cases hlast : o = last
    · exact hlast ▸ RxContext.holds_store_same _ _ (hpart _)
    · have hearlier : o ∈ order := by simpa [hlast] using ho
      exact (ih hearlier).store_other hlast (hpart last)

/-- The segments marked as stored: those that were, and those of the list. -/
theorem RxContext.storeAll_segvalid (c : RxContext) (part : BitVec 5 → List Byte) (order : List (BitVec 5)) (i : Nat) :
    (c.storeAll part order).segvalid.getLsbD i = (c.segvalid.getLsbD i || decide (∃ o ∈ order, o.toNat = i)) := by
  induction order using List.reverseRecOn with
  | nil => simp [RxContext.storeAll]
  | append_singleton order last ih =>
    have hmem : (∃ o ∈ order ++ [last], o.toNat = i) ↔ (∃ o ∈ order, o.toNat = i) ∨ i = last.toNat := by
      simp [or_and_right, exists_or, eq_comm]
    rw [RxContext.storeAll_append_singleton, RxContext.store_segvalid, BitVec.getLsbD_or, segBit_getLsbD, ih, Bool.or_assoc,
      ← Bool.decide_or, decide_eq_decide.mpr hmem]

/-! The message assembled. -/

/-- The slice that a segment index names (R174). -/
def indexedSlice (upper : List Byte) (size : Nat) (o : BitVec 5) : List Byte := segmentSlice upper size o.toNat

/-- Settles O45: after any order every index of the message is marked and its slot holds its slice, and the slices are the message cut up. -/
theorem anyOrderReassemblesTheMessage : Obligations.AnyOrderReassemblesTheMessage := by
  intro c upper ctl order size segN hlo hhi hempty hbound hall c'
  obtain ⟨hpos, h12⟩ : 0 < size ∧ size ≤ 12 := segmentSize_bounds ctl
  have hlast : segN < 32 := ceilDiv_sub_one_lt upper.length size 32 hlo hpos hhi
  have htoNat : (BitVec.ofNat 5 segN).toNat = segN := by rw [BitVec.toNat_ofNat]; omega
  have hpart (o : BitVec 5) : (indexedSlice upper size o).length ≤ 12 := (List.length_take_le _ _).trans h12
  have hc' : c' = c.storeAll (indexedSlice upper size) order := rfl
  refine ⟨?complete, ?assembled⟩
  case complete =>
    refine beq_iff_eq.mpr (BitVec.eq_of_getLsbD_eq fun i hi => ?_)
    have hmarked : (∃ o ∈ order, o.toNat = i) ↔ i ≤ segN := by
      refine ⟨?_, hall i⟩
      rintro ⟨o, ho, rfl⟩
      exact hbound o ho
    rw [hc', RxContext.storeAll_segvalid, hempty, segmentMask_getLsbD, htoNat]
    simp [hmarked]
  case assembled =>
    have hslot (i : Nat) (hi : i ≤ segN) : c'.slot i = segmentSlice upper size i := by
      obtain ⟨o, ho, rfl⟩ := hall i hi
      exact (c.storeAll_holds hpart ho).1
    have hcount : segN + 1 = ceilDiv upper.length size := by
      have hone : 0 < ceilDiv upper.length size := Nat.pos_of_ne_zero fun h0 => by
        have hle := le_ceilDiv_mul_size upper.length size hpos
        rw [h0] at hle
        omega
      exact Nat.succ_pred_eq_of_pos hone
    rw [RxContext.assembled, htoNat]
    calc (List.range (segN + 1)).flatMap c'.slot
        = (List.range (segN + 1)).flatMap (segmentSlice upper size) :=
          List.flatMap_congr fun i hi => hslot i (Nat.le_of_lt_succ (List.mem_range.mp hi))
      _ = upper := by rw [hcount, flatMap_segmentSlice_all upper size hpos]

end Sys2Proof.Machine
end

