-- ==== Sys2Proof/Proofs/Reception.lean ====
section
/-! LT_PARSE at a segment (44_reassembly.md R191, R196, R198, R201 to R205, R208): the format checks in their order, and the branches that take
a segment, with and without a completion. -/

namespace Sys2Proof.Machine

/-! The fields of a segment as numbers (R200). -/

theorem top_bit_iff (x : Byte) : x.getLsbD 7 = true ↔ 128 ≤ x.toNat := by
  revert x
  decide +kernel

theorem segmentFields_toNat (bs : List Byte) :
    (segmentFields bs).seqZero.toNat = (bs.getD 1 0).toNat % 128 * 64 + (bs.getD 2 0).toNat / 4 ∧
      (segmentFields bs).segO.toNat = (bs.getD 2 0).toNat % 4 * 8 + (bs.getD 3 0).toNat / 32 ∧
      (segmentFields bs).segN.toNat = (bs.getD 3 0).toNat % 32 := by
  have h2 := (bs.getD 2 0).isLt
  have h3 := (bs.getD 3 0).isLt
  simp only [segmentFields, toNat_append_eq, BitVec.extractLsb'_toNat, Nat.shiftRight_eq_div_pow]
  omega

theorem State.lbuf_getD (s : State) {j : Nat} (h : j < s.len.llen.toNat) : s.lbuf.getD j 0 = s.mem.read (0x090 + j) := by
  have hlen : j < s.lbuf.length := by rwa [State.lbuf_length]
  rw [List.getD_eq_getElem _ _ hlen]
  exact Memory.readRange_getElem _ _ _ _ hlen

/-! The format checks (R191). -/

theorem exec_ltParse_of_length {s : State} (h : s.len.llen.toNat < 2 ∨ 16 < s.len.llen.toNat) :
    exec .ltParse s = .next (s.begin.fail .errLen) := if_pos h

theorem exec_ltParse_of_segmented {s : State} (hlo : 2 ≤ s.len.llen.toNat) (hhi : s.len.llen.toNat ≤ 16)
    (hseg : (s.mem.read 0x090).getLsbD 7 = true) : exec .ltParse s = .next s.begin.parseSegment := by
  have hfirst : (s.begin.lbuf.getD 0 0).getLsbD 7 = true := by
    rw [s.begin.lbuf_getD_zero (Nat.zero_lt_of_lt hlo)]
    exact hseg
  exact (if_neg (not_or.mpr ⟨Nat.not_lt.mpr hlo, Nat.not_lt.mpr hhi⟩)).trans (if_neg (by rw [hfirst]; decide))

/-- Settles O38: the checks in their order, each with the fields as R200 reads them. -/
theorem ltParseFormatChecks : Obligations.LtParseFormatChecks := by
  intro s n size b seqZero segO segN
  have h12 : size ≤ 12 := (segmentSize_bounds s.ctl).2
  have hrun (hset : 128 ≤ b 0) (hlo : 2 ≤ n) (hhi : n ≤ 16) :=
    exec_ltParse_of_segmented hlo hhi ((top_bit_iff (s.mem.read 0x090)).mpr hset)
  have hfields (hn : 5 ≤ n) : (segmentFields s.begin.lbuf).seqZero.toNat = seqZero ∧ (segmentFields s.begin.lbuf).segO.toNat = segO ∧
      (segmentFields s.begin.lbuf).segN.toNat = segN := by
    have hbytes := segmentFields_toNat s.lbuf
    rwa [s.lbuf_getD (j := 1) (by omega), s.lbuf_getD (j := 2) (by omega), s.lbuf_getD (j := 3) (by omega)] at hbytes
  have hfail {c : StatusCode} (hparse : s.begin.parseSegment = s.begin.fail c) (hset : 128 ≤ b 0) (hlo : 2 ≤ n) (hhi : n ≤ 16) :
      ∃ t, exec .ltParse s = .next t ∧ s.FailedWith t c.toByte :=
    ⟨_, hparse ▸ hrun hset hlo hhi, s.failedWith_begin_fail c⟩
  have hchecked (hlo : 5 ≤ n) (hhi : n ≤ 4 + size) : ¬ (n < 5 ∨ 4 + size < n) := by omega
  refine ⟨fun hlen => ⟨_, exec_ltParse_of_length hlen, s.failedWith_begin_fail .errLen⟩, fun hlo hhi hset hlen => ?badSegment,
    fun hset hlo hhi hlt => ?malformed, fun hset hlo hhi hle hsmall hbelow => ?noSequence⟩
  case badSegment => exact hfail (c := .errLen) (if_pos hlen) hset hlo hhi
  case malformed =>
    obtain ⟨-, hsegO, hsegN⟩ := hfields hlo
    refine hfail (c := .errMalformed) ((if_neg (hchecked hlo hhi)).trans (if_pos ?_)) hset (by omega) (by omega)
    rw [BitVec.lt_def, hsegN, hsegO]
    exact hlt
  case noSequence =>
    obtain ⟨hz, hsegO, hsegN⟩ := hfields hlo
    refine hfail (c := .errSeq) ((if_neg (hchecked hlo hhi)).trans ((if_neg ?_).trans ?_)) hset (by omega) (by omega)
    · rw [BitVec.lt_def, hsegN, hsegO]
      omega
    · have hnone : reconcile s.begin.par.nseq (segmentFields s.begin.lbuf).seqZero = none :=
        (reconciledSequenceNumber.2 _ _).mpr ⟨hsmall, by rw [hz]; exact hbelow⟩
      rw [hnone]

/-! The bit and the slot of a segment (R201, R202). -/

theorem segmentBit_eq (o : BitVec 5) : segmentBit o = 1#32 <<< o.toNat := by
  refine BitVec.eq_of_getLsbD_eq fun i hi => ?_
  rw [segBit_getLsbD, segmentBit, BitVec.getLsbD_ofNat, Nat.testBit_two_pow]
  simp [hi, eq_comm]

theorem State.withSegment_segvalid (s : State) (g : Segment) :
    (s.withSegment g).ctx.segvalid = s.ctx.segvalid ||| segmentBit g.segO := by rw [segmentBit_eq]; rfl

theorem State.withSegment_blockack (s : State) (g : Segment) :
    (s.withSegment g).ctx.blockack = s.ctx.blockack ||| segmentBit g.segO := by rw [segmentBit_eq]; rfl

/-- R202's test as a comparison of masks. -/
theorem RxContext.isComplete_iff (c : RxContext) (segN : BitVec 5) :
    c.isComplete segN = true ↔ c.segvalid = BitVec.ofNat 32 (2 ^ (segN.toNat + 1) - 1) := beq_iff_eq

theorem State.Joins.hidden {s j : State} {t : Seq} {g : Segment} (h : s.Joins t g j) :
    j.ctx.segbuf = s.ctx.segbuf ∧ j.ctx.seglen = s.ctx.seglen := ⟨h.frame.hidden.1, h.frame.hidden.2⟩

/-- The segment stands in its slot, and the others are as they were. -/
theorem State.Joins.slotStored {s j : State} {t : Seq} {g : Segment} (h : s.Joins t g j) (hr : s.Receives g t) :
    s.SlotStored (j.withSegment g) g := by
  obtain ⟨hsegbuf, hseglen⟩ := h.hidden
  have hlen := hr.payload_bounds.2
  refine ⟨j.ctx.slot_store_same g.segO g.payload (by omega), fun i _ hne => ⟨?_, fun k hk => ?_⟩⟩
  · have hkeep := j.ctx.store_seglen g.segO g.payload i
    rw [if_neg hne, hseglen] at hkeep
    exact hkeep
  · rw [← hsegbuf]
    exact j.ctx.segbuf_store_other g.segO g.payload i k hlen hne hk

/-! The header outputs. -/

/-- The header outputs are read from four registers. -/
theorem State.HeaderNoted.congr {s t u : State} {g : Segment} (h : s.HeaderNoted t g) (hcopc : u.par.copc = t.par.copc)
    (htctrl : u.par.tctrl = t.par.tctrl) (hrxseg : u.parsed.rxseg = t.parsed.rxseg) (hrxsego : u.parsed.rxsego = t.parsed.rxsego) :
    s.HeaderNoted u g := by
  unfold State.HeaderNoted
  rw [hcopc, htctrl, hrxseg, hrxsego]
  exact h

theorem State.Joins.headerNoted {s j : State} {t : Seq} {g : Segment} (h : s.Joins t g j) : s.HeaderNoted j g := by
  have hnoted : s.HeaderNoted (s.begin.noteSegment g) g := s.begin.headerNoted_noteSegment g
  cases h with
  | new =>
    refine hnoted.congr (by rw [State.newSeqAuth_par]) (by rw [State.newSeqAuth_par]) ?_ ?_ <;>
      (rw [State.newSeqAuth_parsed]; split <;> rfl)
  | same =>
    refine hnoted.congr (by rw [State.sameSeqAuth_par]) (by rw [State.sameSeqAuth_par]) ?_ ?_ <;>
      (rw [State.sameSeqAuth_parsed]; split <;> rfl)

/-! The acknowledgement timer's duration (R205). -/

theorem State.startAckTimer_acktmr_toNat (s : State) : s.startAckTimer.parsed.acktmr.toNat = s.ackDuration := by
  have httl : s.ttl.toNat = s.par.ctlttl.toNat % 128 := by simp [State.ttl]
  rw [State.startAckTimer_parsed, State.ackDuration, ← httl, BitVec.toNat_ofNat]
  have hlt := s.ttl.isLt
  exact Nat.mod_eq_of_lt (by simp only [Config.ackBaseMs, Config.ackPerTtlMs]; omega)

theorem State.noteSegment_ackDuration (s : State) (g : Segment) : (s.begin.noteSegment g).ackDuration = s.ackDuration := by
  simp [State.ackDuration]

/-! Events. -/

/-- The same events in another order, or with repetitions. -/
theorem State.eventsAre.congr {t : State} {es es' : List Event} (h : t.eventsAre es) (hsub : es ⊆ es') (hsup : es' ⊆ es) :
    t.eventsAre es' := fun e => (h e).trans (Bool.eq_iff_iff.mpr (by
  simp only [List.contains_iff_mem]
  exact ⟨fun hm => hsub hm, fun hm => hsup hm⟩))

theorem State.eventsAre.newSeqAuth {s : State} {es : List Event} (h : s.eventsAre es) (t : Seq) (z : BitVec 13) :
    (s.newSeqAuth t z).eventsAre
      (es ++ [Event.incStart] ++ if unicast s.par.dst then [Event.ackStart] else if s.ctx.flag .ackRun then [Event.ackCancel] else []) := by
  intro e
  rw [State.newSeqAuth_isIn, h e]
  cases unicast s.par.dst <;> cases s.ctx.flag .ackRun <;> simp [Bool.or_comm]

theorem State.eventsAre.sameSeqAuth {s : State} {es : List Event} (h : s.eventsAre es) :
    s.sameSeqAuth.eventsAre (es ++ [Event.incStart] ++ if !s.ctx.flag .ackRun && unicast s.par.dst then [Event.ackStart] else []) := by
  intro e
  rw [State.sameSeqAuth_isIn, h e]
  cases !s.ctx.flag .ackRun && unicast s.par.dst <;> simp [Bool.or_comm]

theorem State.eventsAre.deliver {s : State} {es : List Event} (h : s.eventsAre es) (t : Seq) (segN : BitVec 5) :
    (s.deliver t segN).eventsAre
      (es ++ [Event.incCancel, Event.complete] ++
        if unicast s.par.dst && !s.ctx.flag .ackSent then [Event.sendAck, Event.ackCancel] else []) := by
  intro e
  rw [State.deliver_isIn, h e]
  cases unicast s.par.dst && !s.ctx.flag .ackSent <;> simp [Bool.or_comm, Bool.or_left_comm]

theorem State.eventsAre_noteSegment (s : State) (g : Segment) : (s.begin.noteSegment g).eventsAre [] := by
  intro e
  rw [State.noteSegment_events]
  exact s.eventsAre_begin e

/-! A completion (R203). -/

theorem State.deliver_ubuf {s : State} (t : Seq) {segN : BitVec 5} (h : (s.ctx.assembled segN).length ≤ 384) :
    (s.deliver t segN).ubuf = s.ctx.assembled segN ∧ (s.deliver t segN).len.ulen.toNat = (s.ctx.assembled segN).length := by
  have hulen := s.putUbuf_ulen_toNat _ h
  refine ⟨?_, by rw [State.deliver_len, hulen]⟩
  rw [State.ubuf, State.deliver_mem, State.deliver_len, hulen]
  exact Memory.readRange_writeRange _ _ _ _ rfl

/-- The block-ack a completion puts into ACKBUF, as the host reads it (R208). -/
theorem State.deliver_rd_ackbuf (s : State) (t : Seq) (segN : BitVec 5) : (s.deliver t segN).rd .ackbuf =
    if unicast s.par.dst && !s.ctx.flag .ackSent then ackBytes (s.conf.cfg.getLsbD 0) s.ctx.rseqzero.toNat s.ctx.blockack
    else s.rd .ackbuf := by
  rw [State.rd_ackbuf, State.deliver_ackbuf, State.rd_ackbuf]
  split
  · exact beBytes_ackPayload _ _ _
  · rfl

theorem State.Joins.headerNoted_deliver {s j : State} {t : Seq} {g : Segment} (h : s.Joins t g j) :
    s.HeaderNoted ((j.withSegment g).deliver t g.segN) g :=
  h.headerNoted.congr (by rw [State.deliver_par]; rfl) (by rw [State.deliver_par]; rfl) (by rw [State.deliver_parsed]; rfl)
    (by rw [State.deliver_parsed]; rfl)

/-! The two branches. -/

theorem State.Receives.exec_of_incomplete {s j : State} {g : Segment} {t : Seq} (hr : s.Receives g t)
    (hjoin : s.begin.acceptSegment t g = j.storeSegment t g)
    (hmask : j.ctx.segvalid ||| segmentBit g.segO ≠ BitVec.ofNat 32 (2 ^ (g.segN.toNat + 1) - 1)) :
    exec .ltParse s = .next ((j.withSegment g).finish .pending) := by
  rw [hr.exec_ltParse, hjoin, j.storeSegment_of_incomplete t g]
  rw [← Bool.not_eq_true, RxContext.isComplete_iff, State.withSegment_segvalid]
  exact hmask

theorem State.Receives.exec_of_complete {s j : State} {g : Segment} {t : Seq} (hr : s.Receives g t)
    (hjoin : s.begin.acceptSegment t g = j.storeSegment t g)
    (hmask : j.ctx.segvalid ||| segmentBit g.segO = BitVec.ofNat 32 (2 ^ (g.segN.toNat + 1) - 1)) :
    exec .ltParse s = .next ((j.withSegment g).deliver t g.segN) := by
  rw [hr.exec_ltParse, hjoin, j.storeSegment_of_complete t g]
  rw [RxContext.isComplete_iff, State.withSegment_segvalid]
  exact hmask

theorem State.Joins.conf {s j : State} {t : Seq} {g : Segment} (h : s.Joins t g j) : j.conf = s.conf := by
  cases h <;> simp

theorem State.Joins.ackbuf {s j : State} {t : Seq} {g : Segment} (h : s.Joins t g j) : j.ackbuf = s.ackbuf := by
  cases h <;> simp

/-- What a completion leaves in UBUF, TSEQ, ACKBUF and the acknowledgement flags, by what the state in which the segment was stored holds. -/
theorem State.Joins.rd_ackbuf_deliver {s j : State} {t : Seq} {g : Segment} (h : s.Joins t g j) :
    ((j.withSegment g).deliver t g.segN).rd .ackbuf =
      if unicast s.par.dst && !j.ctx.flag .ackSent then
        ackBytes (s.conf.cfg.getLsbD 0) j.ctx.rseqzero.toNat (j.ctx.blockack ||| segmentBit g.segO)
      else s.rd .ackbuf := by
  have hackbuf : (j.withSegment g).rd .ackbuf = s.rd .ackbuf := by
    rw [State.rd_ackbuf, State.rd_ackbuf, State.withSegment_ackbuf, h.ackbuf]
  rw [State.deliver_rd_ackbuf, State.withSegment_blockack, hackbuf, State.withSegment_par, h.dst]
  simp only [State.withSegment, State.setCtx_conf, State.setCtx_ctx, RxContext.store_flag, RxContext.store_rseqzero, h.conf]

/-! The new branch (R196). -/

/-- What the new branch leaves before the segment is stored. -/
structure State.Starts (s : State) (t : Seq) (g : Segment) (j : State) : Prop where
  joins : s.Joins t g j
  accepted : s.begin.acceptSegment t g = j.storeSegment t g
  events : j.eventsAre (Event.incStart :: if unicast s.par.dst then [Event.ackStart] else if s.ctx.flag .ackRun then [Event.ackCancel] else [])
  rseqzero : j.ctx.rseqzero = g.seqZero.setWidth 16
  blockack : j.ctx.blockack = 0
  segvalid : j.ctx.segvalid = 0
  ackRun : j.ctx.flag .ackRun = unicast s.par.dst
  ackSent : j.ctx.flag .ackSent = false
  acktmr : j.parsed.acktmr.toNat = if unicast s.par.dst then s.ackDuration else s.parsed.acktmr.toNat

theorem State.exists_starts (s : State) {t : Seq} (g : Segment) (hnew : s.ctx.lastValid = false ∨ s.ctx.lastseqauth < t) :
    ∃ j, s.Starts t g j := by
  have hdst : (s.begin.noteSegment g).par.dst = s.par.dst := by simp
  have hctx : (s.begin.noteSegment g).ctx = s.ctx := by simp
  have hevents := (s.eventsAre_noteSegment g).newSeqAuth t g.seqZero
  have hflag := (s.begin.noteSegment g).newSeqAuth_flag t g.seqZero
  rw [hdst] at hevents hflag
  rw [hctx] at hevents
  refine ⟨_, .new hnew, s.begin.acceptSegment_of_new t g hnew, hevents, State.newSeqAuth_ctx_rseqzero _ _ _,
    State.newSeqAuth_ctx_blockack _ _ _, State.newSeqAuth_ctx_segvalid _ _ _, hflag .ackRun, hflag .ackSent, ?_⟩
  rw [State.newSeqAuth_parsed, hdst]
  split
  · rw [State.startAckTimer_acktmr_toNat, State.noteSegment_ackDuration]
  · rw [State.noteSegment_parsed]
    rfl

/-- One segment's bit is not the mask of a message of more than one segment. -/
theorem segmentBit_ne_segmentMask (o : BitVec 5) {segN : BitVec 5} (h : segN ≠ 0) :
    segmentBit o ≠ BitVec.ofNat 32 (2 ^ (segN.toNat + 1) - 1) := by
  intro heq
  have hlast : 1 ≤ segN.toNat := Nat.pos_of_ne_zero fun h0 => h (BitVec.eq_of_toNat_eq h0)
  have hmarked (i : Nat) (hi : i ≤ segN.toNat) : i = o.toNat := by
    have hbit := congrArg (BitVec.getLsbD · i) (heq.trans (show _ = segmentMask segN from rfl))
    simp only [segmentBit_eq, segBit_getLsbD, segmentMask_getLsbD, decide_eq_decide] at hbit
    exact hbit.mpr hi
  have hzero := hmarked 0 (Nat.zero_le _)
  have hone := hmarked 1 hlast
  omega

/-- Settles O40: the new branch, and a mask of one bit that is not the message's. -/
theorem newSeqAuthStartsReassembly : Obligations.NewSeqAuthStartsReassembly := by
  intro s g t hr hnew hsegN
  obtain ⟨j, hj⟩ := s.exists_starts g (t := t) hnew
  have hmask : j.ctx.segvalid ||| segmentBit g.segO ≠ BitVec.ofNat 32 (2 ^ (g.segN.toNat + 1) - 1) := by
    rw [hj.segvalid]
    exact BitVec.zero_or.symm ▸ segmentBit_ne_segmentMask g.segO hsegN
  have hblockack := j.withSegment_blockack g
  have hsegvalid := j.withSegment_segvalid g
  rw [hj.blockack] at hblockack
  rw [hj.segvalid] at hsegvalid
  exact ⟨_, hr.exec_of_incomplete hj.accepted hmask, rfl, hj.events, hj.joins.headerNoted, hj.joins.lastseqauth, hj.joins.lastValid,
    hj.rseqzero, hblockack.trans BitVec.zero_or, hsegvalid.trans BitVec.zero_or, hj.joins.flag_incRun, hj.ackRun, hj.ackSent, hj.acktmr,
    hj.joins.slotStored hr, hj.joins.outerFrame_withSegment.trans ((State.frame_refl _).finish .pending).outer |>.mono (by decide)⟩

/-- The requests of a single-segment message in the order they are raised, and in that of O41. -/
theorem singleSegmentEvents_subset (toUnicast running : Bool) :
    let raised : List Event := (Event.incStart :: if toUnicast then [Event.ackStart] else if running then [Event.ackCancel] else []) ++
      [Event.incCancel, Event.complete] ++
      if toUnicast then [Event.sendAck, Event.ackCancel] else []
    let listed : List Event := [Event.incStart, Event.incCancel, Event.complete] ++
      if toUnicast then [Event.ackStart, Event.sendAck, Event.ackCancel] else if running then [Event.ackCancel] else []
    raised ⊆ listed ∧ listed ⊆ raised := by
  revert toUnicast running
  decide

/-- Settles O41: the new branch, its one bit the whole mask, and a completion whose message is the one slot. -/
theorem singleSegmentMessageIsDelivered : Obligations.SingleSegmentMessageIsDelivered := by
  intro s g t hr hnew hsegN
  obtain ⟨j, hj⟩ := s.exists_starts g (t := t) hnew
  have hsegO : g.segO = 0 := by
    have hordered := hr.ordered
    rw [hsegN] at hordered
    exact BitVec.eq_of_toNat_eq (Nat.le_zero.mp hordered)
  have hbit : segmentBit g.segO = 1 := by rw [hsegO]; rfl
  have hmask : j.ctx.segvalid ||| segmentBit g.segO = BitVec.ofNat 32 (2 ^ (g.segN.toNat + 1) - 1) := by
    rw [hj.segvalid, hbit, hsegN]
    rfl
  have hassembled : (j.withSegment g).ctx.assembled g.segN = g.payload := by
    obtain ⟨hslot, -⟩ := hj.joins.slotStored hr
    rw [hsegO] at hslot
    rw [hsegN]
    simpa [RxContext.assembled] using hslot
  obtain ⟨hplo, hphi⟩ := hr.payload_bounds
  obtain ⟨hubuf, hulen⟩ := State.deliver_ubuf (s := j.withSegment g) t (segN := g.segN) (by rw [hassembled]; omega)
  have hframe := hj.joins.outerFrame_deliver
  have hackbuf := hj.joins.rd_ackbuf_deliver
  have hdst : (j.withSegment g).par.dst = s.par.dst := hj.joins.dst
  have hevents := State.eventsAre.deliver (s := j.withSegment g) hj.events t g.segN
  have hsent : (j.withSegment g).ctx.flag .ackSent = false := hj.ackSent
  have hrun : (j.withSegment g).ctx.flag .ackRun = unicast s.par.dst := hj.ackRun
  have hflag := (j.withSegment g).deliver_flag t g.segN
  rw [hdst, hsent, Bool.not_false, Bool.and_true] at hevents
  rw [hdst, hsent, hrun] at hflag
  rw [hassembled, hr.payload_length] at hulen hframe
  rw [hassembled] at hubuf
  rw [hj.rseqzero, hj.ackSent, hj.blockack, hbit, Bool.not_false, Bool.and_true] at hackbuf
  refine ⟨_, hr.exec_of_complete hj.accepted hmask, State.deliver_status _ _ _, ?events, hj.joins.headerNoted_deliver, hubuf, hulen,
    by rw [State.deliver_par], ?lastseqauth, ?lastValid, ?rseqzero, ?blockack, State.deliver_ctx_segvalid _ _ _, hflag .incRun,
    (hflag .ackRun).trans ?ackRun, hflag .ackSent, ?ackbuf, ?acktmr, hframe⟩
  case events =>
    obtain ⟨hsub, hsup⟩ := singleSegmentEvents_subset (unicast s.par.dst) (s.ctx.flag .ackRun)
    exact hevents.congr hsub hsup
  case lastseqauth => exact (State.deliver_ctx_lastseqauth _ _ _).trans hj.joins.lastseqauth
  case lastValid =>
    rw [RxContext.lastValid, State.deliver_ctx_lsav]
    exact hj.joins.lastValid
  case rseqzero => exact (State.deliver_ctx_rseqzero _ _ _).trans hj.rseqzero
  case blockack =>
    rw [State.deliver_ctx_blockack, State.withSegment_blockack, hj.blockack, hbit]
    rfl
  case ackRun => cases unicast s.par.dst <;> rfl
  case ackbuf =>
    rw [BitVec.toNat_setWidth_of_le (by decide)] at hackbuf
    exact hackbuf
  case acktmr =>
    rw [State.deliver_parsed]
    exact hj.acktmr

/-! The same branch (R198). -/

/-- The registers a further segment writes. -/
def furtherSegmentWrites : List Reg := [.tctrl, .copc, .rxseg, .rxsego, .blockack, .segvalid, .rflags, .acktmr]

/-- What the same branch leaves before the segment is stored. -/
structure State.Continues (s : State) (t : Seq) (g : Segment) (j : State) : Prop where
  joins : s.Joins t g j
  accepted : s.begin.acceptSegment t g = j.storeSegment t g
  events : j.eventsAre (Event.incStart :: if !s.ctx.flag .ackRun && unicast s.par.dst then [Event.ackStart] else [])
  rseqzero : j.ctx.rseqzero = s.ctx.rseqzero
  blockack : j.ctx.blockack = s.ctx.blockack
  segvalid : j.ctx.segvalid = s.ctx.segvalid
  ackRun : j.ctx.flag .ackRun = (s.ctx.flag .ackRun || !s.ctx.flag .ackRun && unicast s.par.dst)
  ackSent : j.ctx.flag .ackSent = s.ctx.flag .ackSent
  acktmr : j.parsed.acktmr.toNat =
    if !s.ctx.flag .ackRun && unicast s.par.dst then s.ackDuration else s.parsed.acktmr.toNat
  frame : s.OuterFrame (j.withSegment g) furtherSegmentWrites 0 0

theorem State.exists_continues (s : State) {t : Seq} (g : Segment) (hvalid : s.ctx.lastValid = true) (hlast : s.ctx.lastseqauth = t)
    (hrun : s.ctx.flag .incRun = true) : ∃ j, s.Continues t g j := by
  have hdst : (s.begin.noteSegment g).par.dst = s.par.dst := by simp
  have hctx : (s.begin.noteSegment g).ctx = s.ctx := by simp
  have hevents := (s.eventsAre_noteSegment g).sameSeqAuth
  have hflag := (s.begin.noteSegment g).sameSeqAuth_flag
  have hframe := (s.frame_begin.trans (s.begin.frame_noteSegment g)).trans (State.frame_sameSeqAuth _)
  rw [hdst, hctx] at hevents hflag
  have hor : ∀ a b : Bool, (a || b) = (a || !a && b) := by decide
  refine ⟨_, .same hvalid hlast hrun, s.begin.acceptSegment_of_same t g hvalid hlast hrun, hevents, by simp, by simp, by simp,
    (hflag .ackRun).trans (hor _ _), hflag .ackSent, ?_,
    (hframe.outer.trans (State.outerFrame_withSegment _ g)).mono (by decide)⟩
  rw [State.sameSeqAuth_parsed, hdst, hctx]
  split
  · rw [State.startAckTimer_acktmr_toNat, State.noteSegment_ackDuration]
  · rw [State.noteSegment_parsed]
    rfl

/-- Settles O42: the same branch, and a mask that is not the message's. -/
theorem sameSeqAuthStoresTheSegment : Obligations.SameSeqAuthStoresTheSegment := by
  intro s g t hr hvalid hlast hrun hmask arms
  obtain ⟨j, hj⟩ := s.exists_continues g hvalid hlast hrun
  rw [← hj.segvalid] at hmask
  exact ⟨_, hr.exec_of_incomplete hj.accepted hmask, rfl, hj.events, hj.joins.headerNoted,
    (j.withSegment_blockack g).trans (by rw [hj.blockack]), (j.withSegment_segvalid g).trans (by rw [hj.segvalid]), hj.joins.flag_incRun, hj.ackRun, hj.ackSent, hj.acktmr,
    hj.joins.slotStored hr, hj.frame.trans ((State.frame_refl _).finish .pending).outer |>.mono (by decide)⟩

/-- The message a completing segment brings together: its payload in its place among the slots that were stored (R203). -/
theorem State.Continues.assembled {s j : State} {t : Seq} {g : Segment} (hj : s.Continues t g j) (hr : s.Receives g t) (hs : s.Represented)
    (hmask : s.ctx.segvalid ||| segmentBit g.segO = BitVec.ofNat 32 (2 ^ (g.segN.toNat + 1) - 1)) :
    (j.withSegment g).ctx.assembled g.segN =
      (List.range (g.segN.toNat + 1)).flatMap fun i => if i = g.segO.toNat then g.payload else s.ctx.slot i := by
  obtain ⟨hsegbuf, hseglen⟩ := hj.joins.hidden
  have hlen := hr.payload_bounds.2
  refine List.flatMap_congr fun i hi => ?_
  have hle : i ≤ g.segN.toNat := Nat.le_of_lt_succ (List.mem_range.mp hi)
  have hlt := g.segN.isLt
  split
  · rename_i heq
    exact heq ▸ (hj.joins.slotStored hr).1
  · rename_i hne
    have hstored : s.ctx.segvalid.getLsbD i = true := by
      have hbit := congrArg (BitVec.getLsbD · i) (hmask.trans (show _ = segmentMask g.segN from rfl))
      simp only [BitVec.getLsbD_or, segmentBit_eq, segBit_getLsbD, segmentMask_getLsbD, hne, hle, decide_false, decide_true,
        Bool.or_false] at hbit
      exact hbit
    obtain ⟨-, hbound⟩ := hs.slots i (by omega) hstored
    rw [← hseglen] at hbound
    refine (j.ctx.slot_store_other g.segO g.payload i hlen hne hbound).trans ?_
    rw [RxContext.slot, RxContext.slot, hsegbuf, hseglen]

/-- The requests of a completion in the order they are raised, and in that of O43. -/
theorem completionEvents_subset (arms acks : Bool) :
    let raised : List Event := (Event.incStart :: if arms then [Event.ackStart] else []) ++ [Event.incCancel, Event.complete] ++
      if acks then [Event.sendAck, Event.ackCancel] else []
    let listed : List Event := [Event.incStart, Event.incCancel, Event.complete] ++ (if arms then [Event.ackStart] else []) ++
      if acks then [Event.sendAck, Event.ackCancel] else []
    raised ⊆ listed ∧ listed ⊆ raised := by
  revert arms acks
  decide

/-- Settles O43: the same branch, a mask that is the message's, and a completion whose message fits into UBUF because every slot has at most
twelve bytes. -/
theorem lastSegmentDeliversTheMessage : Obligations.LastSegmentDeliversTheMessage := by
  intro s g t hs hr hvalid hlast hrun hmask arms acks pdu
  obtain ⟨j, hj⟩ := s.exists_continues g hvalid hlast hrun
  have hassembled : (j.withSegment g).ctx.assembled g.segN = pdu := hj.assembled hr hs hmask
  have hmask' : j.ctx.segvalid ||| segmentBit g.segO = BitVec.ofNat 32 (2 ^ (g.segN.toNat + 1) - 1) := hj.segvalid ▸ hmask
  have hcomplete : (j.withSegment g).ctx.isComplete g.segN = true := by
    rw [RxContext.isComplete_iff, State.withSegment_segvalid]
    exact hmask'
  obtain ⟨hubuf, hulen⟩ := State.deliver_ubuf (s := j.withSegment g) t
    ((hj.joins.wellStored_withSegment hr hs.wellStored).assembled_length_le hcomplete)
  have hdst : (j.withSegment g).par.dst = s.par.dst := hj.joins.dst
  have hsent : (j.withSegment g).ctx.flag .ackSent = s.ctx.flag .ackSent := hj.ackSent
  have hack : (j.withSegment g).ctx.flag .ackRun = (s.ctx.flag .ackRun || arms) := hj.ackRun
  have hevents := State.eventsAre.deliver (s := j.withSegment g) hj.events t g.segN
  have hflag := (j.withSegment g).deliver_flag t g.segN
  have hackbuf := hj.joins.rd_ackbuf_deliver
  rw [hdst, hsent] at hevents
  rw [hdst, hsent, hack] at hflag
  rw [hj.rseqzero, hj.ackSent, hj.blockack] at hackbuf
  rw [hassembled] at hubuf hulen
  refine ⟨_, hr.exec_of_complete hj.accepted hmask', State.deliver_status _ _ _, ?events, hj.joins.headerNoted_deliver, hubuf, hulen,
    by rw [State.deliver_par], ?blockack, State.deliver_ctx_segvalid _ _ _, hflag .incRun, (hflag .ackRun).trans (Bool.and_comm _ _),
    (hflag .ackSent).trans ?ackSent, hackbuf, ?acktmr, ?frame⟩
  case events =>
    obtain ⟨hsub, hsup⟩ := completionEvents_subset arms acks
    exact hevents.congr hsub hsup
  case blockack => rw [State.deliver_ctx_blockack, State.withSegment_blockack, hj.blockack]
  case ackSent =>
    have hor : ∀ a b : Bool, (a || b) = (a || b && !a) := by decide
    exact hor _ _
  case acktmr =>
    rw [State.deliver_parsed]
    exact hj.acktmr
  case frame =>
    have hframe := (hj.frame.trans ((j.withSegment g).frame_deliver t g.segN).outer).mono
      (regs' := furtherSegmentWrites ++ [.ulen, .tseq, .ackbuf]) (by decide)
    rwa [hassembled] at hframe

end Sys2Proof.Machine
end

