-- ==== Sys2Proof/Proofs/AesVectors.lean ====
section
/-! The tables of AES and its published vectors (40_aes.md R111, R113, R119). -/

namespace Sys2Proof.Machine

/-- The affine map of R113. -/
def affine (v : Byte) : Byte := v ^^^ v.rotateRight 4 ^^^ v.rotateRight 5 ^^^ v.rotateRight 6 ^^^ v.rotateRight 7 ^^^ 0x63

/-- The map that undoes it. -/
def affineInverse (b : Byte) : Byte := b.rotateRight 2 ^^^ b.rotateRight 5 ^^^ b.rotateRight 7 ^^^ 0x05

theorem affine_affineInverse (b : Byte) : affine (affineInverse b) = b := by
  revert b
  decide +kernel

theorem gfMul_small (a : Byte) : gfMul a 0x02 = xtime a ∧ gfMul a 0x03 = xtime a ^^^ a := by
  revert a
  decide +kernel

/-- What stands behind an S-box entry is the inverse of its index, 0 for 0. -/
theorem affineInverse_sbox (a : Byte) :
    if a = 0 then affineInverse (sbox a) = 0 else gfMul a (affineInverse (sbox a)) = 0x01 := by
  revert a
  decide +kernel

theorem aes_fips197_appendixC :
    aes 0x000102030405060708090a0b0c0d0e0f 0x00112233445566778899aabbccddeeff = 0x69c4e0d86a7b0430d8cdb78070b4c55a := by decide +kernel

theorem aes_fips197_appendixB :
    aes 0x2b7e151628aed2a6abf7158809cf4f3c 0x3243f6a8885a308d313198a2e0370734 = 0x3925841d02dc09fbdc118597196a0b32 := by decide +kernel

theorem aes_zero : aes 0 0 = 0x66e94bd4ef8a2c3b884cfa59ca342b2e := by decide +kernel

/-- Settles O19: the field's identities at every byte, the inverse read off the S-box entry by undoing the affine map, and the vectors
computed. -/
theorem aesTablesAndVectors : Obligations.AesTablesAndVectors :=
  ⟨gfMul_small, by decide, by decide, fun a => ⟨affineInverse (sbox a), affineInverse_sbox a, (affine_affineInverse (sbox a)).symm⟩,
    aes_fips197_appendixC, aes_fips197_appendixB, aes_zero⟩

end Sys2Proof.Machine
end
